-- ==== Sys2Proof/Word.lean ====
section
/-! DEFINITION. The bit-vector types of the core (spec/00_scope.md R9, R10). -/
namespace Sys2Proof

/-- A byte, an unsigned value 0..255 (R10). -/
abbrev Byte := BitVec 8

/-- A 64-bit register or MMIO word (R9). -/
abbrev Word := BitVec 64

/-- A node id: an arena index 0..510, or 511 for NONE (R9). -/
abbrev NodeId := BitVec 9

/-- A tree-node weight, 72 bits wide (R9, R133). -/
abbrev Weight := BitVec 72

/-- A code-table entry: bit `i` is the `i`-th bit of the path (R30). -/
abbrev Codeword := BitVec 256

end Sys2Proof
end

