-- ==== Sys2Proof/Syntax.lean ====
section
/-! DEFINITION. The commands of the core, one constructor per row of spec/opcode_table.json (30_encoding.md R74). -/
namespace Sys2Proof

/-- The nine commands. No command has an operand field (R73): every input is core state or the IN channel. -/
inductive Instr where
  /-- NOP, opcode 0x00 (40_control.md R108). -/
  | nop
  /-- CLEAR, opcode 0x01 (40_control.md R109). -/
  | clear
  /-- ENC_COUNT, opcode 0x10 (42_frequency.md R125). -/
  | encCount
  /-- ENC_BUILD, opcode 0x11 (44_encoder.md R151). -/
  | encBuild
  /-- ENC_HEADER, opcode 0x12 (44_encoder.md R156). -/
  | encHeader
  /-- ENC_EMIT, opcode 0x13 (44_encoder.md R158). -/
  | encEmit
  /-- DEC_HEADER, opcode 0x20 (45_decoder.md R176). -/
  | decHeader
  /-- DEC_BUILD, opcode 0x21 (45_decoder.md R179). -/
  | decBuild
  /-- DEC_PAYLOAD, opcode 0x22 (45_decoder.md R181). -/
  | decPayload
deriving DecidableEq, Repr

end Sys2Proof
end

