-- ==== Sys2Proof/Config.lean ====
section
/-! DEFINITION. What is fixed for the machine: the parameters of spec/00_scope.md R9, the identification value, and the
free values (opaque: no proof can see what they are). -/
namespace Sys2Proof

/-- NONE, the child id that means "no node" (R9). -/
def Config.none : NodeId := 0x1FF#9

/-- MAX_LEAVES: the largest frequency sequence the core holds (R9). -/
def Config.maxLeaves : Nat := 256

/-- The size in bytes of the MMIO window (R9). -/
def Config.windowSize : Nat := 0x8000

/-- The offset of CMD in the window (R22, R62). -/
def Config.cmdOffset : Nat := 0x008

/-- ID, hardwired (R21): "HUFF" read little-endian, interface revision 1. -/
def Config.idValue : Word := 0x0000000146465548#64

/-- BASE, the bus address of the window: OPEN, and nothing in the core depends on it (R9; log 7). -/
opaque Config.base : Nat

/-- FREE VALUE (log 3): what a read of a non-status register returns while BUSY = 1 (20_memory.md R63), one draw per
read, numbered by the state's draw counter. -/
opaque Config.busyRead : Nat → Word

/-- FREE VALUE (log 3): what a 64-bit transfer counter holds after one more transfer than it can count. The spec gives
XFER_IN and XFER_OUT 64 bits (10_state.md R35), says that no rule truncates silently (R10), and states no result here. -/
opaque Config.xferBeyond : Nat → Word

end Sys2Proof
end

