-- ==== Sys2Proof/WellFormed.lean ====
section
/-! DEFINITION. Well-formedness: of an instruction, of the two fields of a command word (30_encoding.md R72, R75), and
of a host access to the MMIO window (20_memory.md R64). -/
namespace Sys2Proof

/-- Every term of `Instr` is well-formed: no command has an operand that could be out of range (R73). -/
def Instr.wellFormed (_ : Instr) : Bool := true

/-- The opcodes of the nine commands (R74). -/
def knownOpcodes : List Byte :=
  [0x00#8, 0x01#8, 0x10#8, 0x11#8, 0x12#8, 0x13#8, 0x20#8, 0x21#8, 0x22#8]

/-- The two fields of CMD64 (R72): OPCODE, bits 7:0, and RSV, bits 63:8. -/
structure CmdFields where
  opcode : Byte
  rsv    : BitVec 56
deriving DecidableEq, Repr

/-- The fields of a command word (R72). -/
def CmdFields.ofWord (w : Word) : CmdFields :=
  { opcode := w.extractLsb' 0 8, rsv := w.extractLsb' 8 56 }

/-- A command word is legal when its opcode is one of the nine and RSV is 0 (R75). -/
def CmdFields.wellFormed (c : CmdFields) : Bool :=
  knownOpcodes.contains c.opcode && c.rsv == 0#56

/-- The host accesses the window accepts: 8 bytes, aligned, below 0x8000 (R64). -/
def accessWellFormed (offset size : Nat) : Bool :=
  size == 8 && offset % 8 == 0 && decide (offset < Config.windowSize)

end Sys2Proof
end

