-- ==== Sys2Proof/Decode.lean ====
section
/-! DEFINITION. DecodeCmd (30_encoding.md R76), total on every 64-bit word and rejecting by name, and the encoder
written from the same opcode map (R74). -/
namespace Sys2Proof

/-- Why a word is not a command (R75). -/
inductive DecodeError where
  /-- OPCODE is none of the nine of R74. -/
  | illegalOpcode
  /-- OPCODE is known and RSV is not 0. -/
  | reservedBits
deriving DecidableEq, Repr

/-- The opcode map, read from an opcode to its command (R74). -/
def commandOfOpcode (op : Byte) : Option Instr :=
  if op = 0x00#8 then some .nop
  else if op = 0x01#8 then some .clear
  else if op = 0x10#8 then some .encCount
  else if op = 0x11#8 then some .encBuild
  else if op = 0x12#8 then some .encHeader
  else if op = 0x13#8 then some .encEmit
  else if op = 0x20#8 then some .decHeader
  else if op = 0x21#8 then some .decBuild
  else if op = 0x22#8 then some .decPayload
  else none

/-- DecodeCmd(w) (R76): the opcode test comes first, so a word that fails both tests is ILLEGAL_OPCODE. -/
def decodeCmd (w : Word) : Except DecodeError Instr :=
  match commandOfOpcode (w.extractLsb' 0 8) with
  | none => .error .illegalOpcode
  | some i => if w.extractLsb' 8 56 = 0#56 then .ok i else .error .reservedBits

/-- The opcode map, read from a command to its opcode (R74). -/
def opcodeOf : Instr → Byte
  | .nop        => 0x00#8
  | .clear      => 0x01#8
  | .encCount   => 0x10#8
  | .encBuild   => 0x11#8
  | .encHeader  => 0x12#8
  | .encEmit    => 0x13#8
  | .decHeader  => 0x20#8
  | .decBuild   => 0x21#8
  | .decPayload => 0x22#8

/-- The command word of an instruction: RSV = 0 above its opcode (R72). -/
def encode (i : Instr) : Word := 0#56 ++ opcodeOf i

/-- The instruction in the opcode table's numbering of bits. A command is one 64-bit word, so the bits above `nbits` are
0 and a value that needs more than 64 bits is no command. -/
def decodeTableWord (nbits w : Nat) : Option Instr :=
  let v := w % 2 ^ nbits
  if v < 2 ^ 64 then
    match decodeCmd (BitVec.ofNat 64 v) with
    | .ok i => some i
    | .error _ => none
  else none

theorem commandOfOpcode_opcodeOf (i : Instr) : commandOfOpcode (opcodeOf i) = some i := by
  cases i <;> rfl

/-- Each constructor's word, written out from R72 and R74. -/
theorem decode_word_nop : decodeCmd 0x0000000000000000#64 = .ok .nop := by decide
theorem decode_word_clear : decodeCmd 0x0000000000000001#64 = .ok .clear := by decide
theorem decode_word_encCount : decodeCmd 0x0000000000000010#64 = .ok .encCount := by decide
theorem decode_word_encBuild : decodeCmd 0x0000000000000011#64 = .ok .encBuild := by decide
theorem decode_word_encHeader : decodeCmd 0x0000000000000012#64 = .ok .encHeader := by decide
theorem decode_word_encEmit : decodeCmd 0x0000000000000013#64 = .ok .encEmit := by decide
theorem decode_word_decHeader : decodeCmd 0x0000000000000020#64 = .ok .decHeader := by decide
theorem decode_word_decBuild : decodeCmd 0x0000000000000021#64 = .ok .decBuild := by decide
theorem decode_word_decPayload : decodeCmd 0x0000000000000022#64 = .ok .decPayload := by decide

end Sys2Proof
end

