-- ==== Sys2Proof/Machine/State.lean ====
section
/-! DEFINITION. The state of the core and of its one host, as plain data (10_state.md; the host of 00_scope.md R8 and
70_reset_and_hazards.md R236), the state after reset, and the reasons a step can stop. -/
namespace Sys2Proof.Machine

/-- An array of `n` registers, entry 0 first: plain data of a fixed length, compared entry by entry. -/
structure Bank (α : Type) (n : Nat) where
  entries : List α
  size    : entries.length = n
deriving DecidableEq, Repr

/-- The array with the same value in every entry. -/
def Bank.fill {α : Type} (n : Nat) (x : α) : Bank α n := { entries := List.replicate n x, size := by simp }

/-- PHASE (R19). The codes 8..14 are never held, so they have no constructor. -/
inductive Phase where
  | idle
  | counted
  | built
  | headed
  | encDone
  | decHeaded
  | decBuilt
  | decDone
  | error
deriving DecidableEq, Repr

/-- TYPE of an arena entry (R28). The code 3 is never held. -/
inductive NodeType where
  | unused
  | leaf
  | internal
deriving DecidableEq, Repr

/-- One entry of the tree arena (R28). -/
structure Node where
  type   : NodeType
  sym    : Byte
  zero   : NodeId
  one    : NodeId
  weight : Weight
deriving DecidableEq, Repr

/-- An unused entry: all fields 0 (R28). -/
def unusedNode : Node := { type := .unused, sym := 0, zero := 0, one := 0, weight := 0 }

/-- An element of the IN channel (R53). -/
inductive InElem where
  | byte (v : Byte)
  | endOfFile
  | fault
deriving DecidableEq, Repr

/-- The sink's answer to a push (R54). -/
inductive SinkAnswer where
  | ok
  | fault
deriving DecidableEq, Repr

/-- The position of the running command's sequential program (R37): the interaction point (40_control.md R107) it waits
at, with what its program still needs. -/
inductive Position where
  /-- No command is running. -/
  | idle
  /-- ENC_COUNT waits in InPop (R125). -/
  | countPop
  /-- ENC_HEADER waits in OutPush(b); `rest` are the header bytes after it (R156). -/
  | headerPush (b : Byte) (rest : List Byte)
  /-- ENC_EMIT waits in InPop (R158). -/
  | emitPop
  /-- ENC_EMIT waits in WriteBit's OutPush of the full OBUF; `bits` are the codeword bits not yet written (R114). -/
  | emitPush (bits : List Bool)
  /-- ENC_EMIT waits in the OutPush of its final Close (R116). -/
  | emitClose
  /-- ENC_EMIT waits in the OutPush of the Close inside AbortEmit (R160). -/
  | abortClose
  /-- DEC_HEADER waits for a byte of payload_bit_length; `got` are the bytes it has (R176). -/
  | decLen (got : List Byte)
  /-- DEC_HEADER waits for a byte of frequency_count. -/
  | decCount (got : List Byte)
  /-- DEC_HEADER waits for the byte value of entry `i`. -/
  | decSym (i : Nat)
  /-- DEC_HEADER waits for a byte of the count of entry `i`, whose byte value is `sym`. -/
  | decCnt (i : Nat) (sym : Byte) (got : List Byte)
  /-- DEC_PAYLOAD waits in ReadBit's InPop (R118). -/
  | payloadPop
  /-- DEC_PAYLOAD waits in the OutPush of the decoded byte `sym` (R183). -/
  | payloadPush (sym : Byte)
deriving DecidableEq, Repr

/-- One action of the host (30_encoding.md R83; 70_reset_and_hazards.md R236), or of the schedule (log 2). -/
inductive HostAction where
  /-- A write of `value`, `size` bytes wide, at an offset in the MMIO window (R61). -/
  | write (offset size : Nat) (value : Word)
  /-- A read, `size` bytes wide, at an offset in the MMIO window (R60). -/
  | read (offset size : Nat)
  /-- Append elements to IN (R83). -/
  | feed (elems : List InElem)
  /-- Discard every element left in IN (R83). -/
  | drainIn
  /-- Discard the elements of IN up to and including the first End: the drain of a host that has already appended the
  next file (70_reset_and_hazards.md R231). -/
  | drainFile
  /-- Keep the first `keep` bytes OUT received and discard the rest (R232). DESIGN CHOICE (log 11): the host table names
  no discard but the one after an error or a reset, and the model executes this action in any state. -/
  | discardOut (keep : Nat)
  /-- The sink answers Fault to the push numbered `k` (R83). DESIGN CHOICE (log 5): R83 does not say when the line takes
  effect, and the model makes it count from its place in the program on, so it changes no answer already given. A fault
  named by the launch from the start (R239) stands in `sinkFaults` of the start state, or as the first action. -/
  | sinkFaultAt (k : Nat)
  /-- The sink answers that many pushes more (`none`: every one) and then leaves a push waiting (R54, R235). -/
  | sinkQuota (q : Option Nat)
  /-- WAIT: poll STATUS until BUSY = 0 (R86). -/
  | wait
  /-- The schedule gives the core one step (R107). -/
  | core
  /-- The schedule sets whether an accepted command runs on by itself (log 2). -/
  | setEager (b : Bool)
  /-- Hardware reset (R225). -/
  | reset
deriving DecidableEq, Repr

/-- What one host read handed back (R60). -/
structure ReadResult where
  offset : Nat
  value  : Word
deriving DecidableEq, Repr

/-- The whole state. The registers and arrays are those of 10_state.md, each in its own field; then the running
command's position, the two channels, the host, and the model's own `draws` and `eager`. -/
structure State where
  /-- PHASE (R19). -/
  phase       : Phase
  /-- STATUS.BUSY (R20). -/
  busy        : Bool
  /-- STATUS.EMPTY (R20). -/
  empty       : Bool
  /-- STATUS.OVR (R20). -/
  ovr         : Bool
  /-- STATUS.LAST_OP (R20). -/
  lastOp      : Byte
  /-- ERR_KIND (R23). -/
  errKind     : Byte
  /-- ERR_DETAIL (R23). -/
  errDetail   : Byte
  /-- ERR_INFO (R24). -/
  errInfo     : Word
  /-- TOTAL (R25). -/
  total       : Word
  /-- FREQ[0..255] (R26). -/
  freq        : Bank Word 256
  /-- SEQ_N (R27). -/
  seqN        : BitVec 9
  /-- SEQ_SYM[0..255] (R27). -/
  seqSym      : Bank Byte 256
  /-- SEQ_CNT[0..255] (R27). -/
  seqCnt      : Bank Word 256
  /-- NODE[0..510] (R28). -/
  node        : Bank Node 511
  /-- ROOT (R29). -/
  root        : NodeId
  /-- NODE_COUNT (R29). -/
  nodeCount   : BitVec 10
  /-- CODE_LEN[0..255] (R30). -/
  codeLen     : Bank Byte 256
  /-- CODE_BITS[0..255] (R30). -/
  codeBits    : Bank Codeword 256
  /-- PAYLOAD_BITS (R31). -/
  payloadBits : Word
  /-- EMIT_BITS (R32). -/
  emitBits    : Word
  /-- OBUF (R32). -/
  obuf        : Byte
  /-- OCNT (R32). -/
  ocnt        : BitVec 3
  /-- STAT_ORIG (R33). -/
  statOrig    : Word
  /-- STAT_PAYLOAD (R33). -/
  statPayload : Word
  /-- STAT_HEADER (R33). -/
  statHeader  : Word
  /-- IBUF (R34). -/
  ibuf        : Byte
  /-- IPOS (R34). -/
  ipos        : BitVec 4
  /-- CUR (R34). -/
  cur         : NodeId
  /-- BITS_LEFT (R34). -/
  bitsLeft    : Word
  /-- XFER_IN (R35). -/
  xferIn      : Word
  /-- XFER_OUT (R35). -/
  xferOut     : Word
  /-- The running command's position, hidden from the host (R37). -/
  pos         : Position
  /-- The IN channel, head first (R53). -/
  inCh        : List InElem
  /-- The bytes the sink took from OUT, in push order (R54, R56). -/
  out         : List Byte
  /-- How many pushes the sink has answered, over the whole program (R83). -/
  pushes      : Nat
  /-- The numbers of the pushes the sink answers Fault (R83). -/
  sinkFaults  : List Nat
  /-- How many pushes the sink will still answer; `none`: every one (R54; log 5). -/
  sinkQuota   : Option Nat
  /-- The host program still to run, next action first (R83). -/
  script      : List HostAction
  /-- What the host's reads handed back, oldest first (R60). -/
  reads       : List ReadResult
  /-- The model's own (log 3): how many free values have been drawn. -/
  draws       : Nat
  /-- The model's own (log 2): an accepted command runs on until it completes or waits for the host. -/
  eager       : Bool
deriving DecidableEq, Repr

/-- The state right after hardware reset: every register at its value in R39, no command running. The channels and the
host program are the host's and are empty here (log 4); the sink answers Ok to every push (log 5). -/
def State.reset : State :=
  { phase := .idle, busy := false, empty := false, ovr := false, lastOp := 0x00#8
    errKind := 0#8, errDetail := 0#8, errInfo := 0#64
    total := 0#64, freq := Bank.fill 256 0#64
    seqN := 0#9, seqSym := Bank.fill 256 0#8, seqCnt := Bank.fill 256 0#64
    node := Bank.fill 511 unusedNode, root := 0x1FF#9, nodeCount := 0#10
    codeLen := Bank.fill 256 0#8, codeBits := Bank.fill 256 0#256
    payloadBits := 0#64, emitBits := 0#64, obuf := 0#8, ocnt := 0#3
    statOrig := 0#64, statPayload := 0#64, statHeader := 0#64
    ibuf := 0#8, ipos := 8#4, cur := 0x1FF#9, bitsLeft := 0#64
    xferIn := 0#64, xferOut := 0#64
    pos := .idle
    inCh := [], out := [], pushes := 0, sinkFaults := [], sinkQuota := none
    script := [], reads := [], draws := 0, eager := true }

/-- The run is stuck (70_reset_and_hazards.md R239): not final, and no claim is made of it. -/
inductive Fault where
  /-- Raised by `step` at a WAIT or at the end of the host program, when the core waits in InPop on an empty IN that
  nothing can fill any more (R239, 93 U19). Safe: the hardware would wait without bound. -/
  | stuckInPop
  /-- Raised by `step` at a WAIT or at the end of the host program, when the core waits in OutPush and the sink gives no
  answer (R239, 93 U19). Safe: the hardware would wait without bound. -/
  | stuckOutPush
  /-- Raised by `step` at a WAIT or at the end of the host program, when BUSY = 1 and no command is running, which no run
  from reset reaches (R239: a WAIT that never sees BUSY = 0). Safe. -/
  | stuckWait
deriving DecidableEq, Repr

/-- The host made a move the spec gives no meaning to. -/
inductive Refusal where
  /-- Raised by `exec` alone, for an instruction the model gives no meaning. Safe. -/
  | notModelled (mnemonic : String)
  /-- Raised by `step` for an MMIO access that is not 8 bytes wide, not aligned or not below 0x8000 (20_memory.md R64,
  70_reset_and_hazards.md R230). The run ends there, which marks it refused. Safe. -/
  | badAccess (offset size : Nat)
  /-- Raised by `step` when the host drains IN, all of it or one file, while BUSY = 1: the host table allows it only when
  BUSY = 0 and says nothing of it otherwise (R236; log 9). Safe. -/
  | drainWhileBusy
deriving DecidableEq, Repr

end Sys2Proof.Machine
end

