-- ==== Sys2Proof/Machine/Ops.lean ====
section
/-! DEFINITION. The named operations over the registers and arrays, the error record (the core's exception) with its
codes, ImplicitClear and hardware reset, and the issue of a command. -/
namespace Sys2Proof.Machine

/-! ### Arrays -/

/-- Entry `i` of an array; past its end, `d`. -/
def bankAt {α : Type} {n : Nat} (b : Bank α n) (i : Nat) (d : α) : α := b.entries[i]?.getD d

/-- `ARR[i] <- x` (00_scope.md R11); past the end of the array nothing is written. -/
def bankSet {α : Type} {n : Nat} (b : Bank α n) (i : Nat) (x : α) : Bank α n :=
  { entries := b.entries.set i x, size := by simp [b.size] }

/-- FREQ[v] (10_state.md R26). -/
def freqAt (s : State) (v : Byte) : Word := bankAt s.freq v.toNat 0#64

/-- `FREQ[v] <- x` (R26). -/
def setFreq (v : Byte) (x : Word) (s : State) : State := { s with freq := bankSet s.freq v.toNat x }

/-- SEQ_SYM[i] (R27); 0 past the last entry. -/
def seqSymAt (s : State) (i : Nat) : Byte := bankAt s.seqSym i 0#8

/-- SEQ_CNT[i] (R27); 0 past the last entry. -/
def seqCntAt (s : State) (i : Nat) : Word := bankAt s.seqCnt i 0#64

/-- `SEQ_SYM[i] <- v; SEQ_CNT[i] <- c` (R27). -/
def setSeqEntry (i : Nat) (v : Byte) (c : Word) (s : State) : State :=
  { s with seqSym := bankSet s.seqSym i v, seqCnt := bankSet s.seqCnt i c }

/-- NODE[k] (R28). NONE (0x1FF) names no entry and reads as an unused one. -/
def nodeAt (s : State) (k : NodeId) : Node := bankAt s.node k.toNat unusedNode

/-- CODE_LEN[v] (R30). -/
def codeLenAt (s : State) (v : Byte) : Byte := bankAt s.codeLen v.toNat 0#8

/-- CODE_BITS[v] (R30). -/
def codeBitsAt (s : State) (v : Byte) : Codeword := bankAt s.codeBits v.toNat 0#256

/-! ### Counters -/

/-- A 64-bit transfer counter after one more transfer (R35). Past 2^64 - 1 the spec states no value: a free value
(log 3). -/
def countTransfer (c : Word) (draws : Nat) : Word :=
  if c = BitVec.allOnes 64 then Config.xferBeyond draws else c + 1

/-- The draw counter after `countTransfer`. -/
def drawsAfter (c : Word) (draws : Nat) : Nat :=
  if c = BitVec.allOnes 64 then draws + 1 else draws

/-! ### Completion -/

/-- The running command completes: BUSY <- 0, no program runs (40_control.md R99). -/
def complete (s : State) : State := { s with busy := false, pos := .idle }

/-- `PHASE <- p; complete` (40_control.md R100). -/
def completeIn (p : Phase) (s : State) : State := complete { s with phase := p }

/-- The running command's program stops at an interaction point (40_control.md R107). -/
def waitAt (p : Position) (s : State) : State := { s with pos := p }

/-! ### The error record: the core's exception, its entry and its one exit -/

/-- Every error the core can raise (60_exceptions.md R202). FILE_OPEN is never raised (R203). -/
inductive ErrorCause where
  | writeHeader
  | writePayload
  | writeDecoded
  | readCountPass
  | readEmitPass
  | headerTruncated
  | headerReadFault
  | countRange
  | payloadTruncated
  | payloadReadFault
  | deadEnd
  | notAtRoot
  | noCodeword
  | overflowTotal
  | overflowPayloadBits
  | illegalOpcode
  | reservedBits
  | sequence
  | excessBits
  | shortBits
deriving DecidableEq, Repr

/-- The kind code (60_exceptions.md R201). -/
def errorKind : ErrorCause → Byte
  | .writeHeader | .writePayload | .writeDecoded => 2#8
  | .readCountPass | .readEmitPass => 3#8
  | .headerTruncated | .headerReadFault | .countRange | .payloadTruncated | .payloadReadFault
  | .deadEnd | .notAtRoot => 4#8
  | .noCodeword => 5#8
  | .overflowTotal | .overflowPayloadBits => 6#8
  | .illegalOpcode | .reservedBits | .sequence => 7#8
  | .excessBits | .shortBits => 8#8

/-- The detail code (60_exceptions.md R202). -/
def errorDetail : ErrorCause → Byte
  | .writeHeader | .readCountPass | .headerTruncated | .noCodeword | .overflowTotal | .illegalOpcode
  | .excessBits => 1#8
  | .writePayload | .readEmitPass | .headerReadFault | .overflowPayloadBits | .reservedBits | .shortBits => 2#8
  | .writeDecoded | .countRange | .sequence => 3#8
  | .payloadTruncated => 4#8
  | .payloadReadFault => 5#8
  | .deadEnd => 6#8
  | .notAtRoot => 7#8

/-- Record(kind, detail, info) (60_exceptions.md R205): the error record and PHASE, nothing else. -/
def record (c : ErrorCause) (info : Word) (s : State) : State :=
  { s with errKind := errorKind c, errDetail := errorDetail c, errInfo := info, phase := .error }

/-- raise Error(kind, detail, info) (60_exceptions.md R206): Record, then completion of the running command. This is
the whole of taking an exception on this core (R212): no saved position, no vector, no mode. -/
def raise (c : ErrorCause) (info : Word) (s : State) : State := complete (record c info s)

/-- ImplicitClear (40_control.md R106): every register of 10_state.md R39 but BUSY and LAST_OP takes its reset value.
Run by CLEAR it is the one way out of PHASE ERROR besides reset (60_exceptions.md R210). -/
def implicitClear (s : State) : State :=
  { s with
    phase := .idle, empty := false, ovr := false
    errKind := 0#8, errDetail := 0#8, errInfo := 0#64
    total := 0#64, freq := Bank.fill 256 0#64
    seqN := 0#9, seqSym := Bank.fill 256 0#8, seqCnt := Bank.fill 256 0#64
    node := Bank.fill 511 unusedNode, root := Config.none, nodeCount := 0#10
    codeLen := Bank.fill 256 0#8, codeBits := Bank.fill 256 0#256
    payloadBits := 0#64, emitBits := 0#64, obuf := 0#8, ocnt := 0#3
    statOrig := 0#64, statPayload := 0#64, statHeader := 0#64
    ibuf := 0#8, ipos := 8#4, cur := Config.none, bitsLeft := 0#64
    xferIn := 0#64, xferOut := 0#64 }

/-- Hardware reset (70_reset_and_hazards.md R225): abandon the running command, every register to its value in R39;
the channels and the host keep what they have. -/
def hardwareReset (s : State) : State :=
  { implicitClear s with busy := false, lastOp := 0x00#8, pos := .idle }

/-! ### Issue -/

/-- Legal(op, PHASE) (40_control.md R101). -/
def legalIn : Instr → Phase → Bool
  | .nop, _ => true
  | .clear, _ => true
  | .encCount, p => p != .error
  | .encBuild, p => p == .counted
  | .encHeader, p => p == .built
  | .encEmit, p => p == .headed
  | .decHeader, p => p != .error
  | .decBuild, p => p == .decHeaded
  | .decPayload, p => p == .decBuilt

/-- The commands that execute while PHASE = ERROR (40_control.md R103). -/
def runsInError : Instr → Bool
  | .nop | .clear => true
  | .encCount | .encBuild | .encHeader | .encEmit | .decHeader | .decBuild | .decPayload => false

/-- A CMD write while BUSY = 1 (40_control.md R97): dropped, OVR <- 1. -/
def dropCommand (s : State) : State := { s with ovr := true }

/-- Accept(op), up to the start of the program (40_control.md R96). -/
def accept (op : Byte) (s : State) : State :=
  { s with busy := true, lastOp := op, xferIn := 0#64, xferOut := 0#64 }

/-- OnCmdWrite for a word that decodes to the command `i` (40_control.md R96), in its order: BUSY, ERROR, SEQUENCE,
then Accept and the command's program. -/
def issue (i : Instr) (program : State → State) (s : State) : State :=
  if s.busy then dropCommand s
  else if s.phase = .error && !runsInError i then s
  else if legalIn i s.phase then program (accept (opcodeOf i) s)
  else raise .sequence (encode i) s

/-- OnCmdWrite for a word that decodes to no command (40_control.md R96): dropped while BUSY, ignored in ERROR, else
the CMD error that names what is wrong with the word. -/
def rejectWord (e : DecodeError) (w : Word) (s : State) : State :=
  if s.busy then dropCommand s
  else if s.phase = .error then s
  else
    match e with
    | .illegalOpcode => raise .illegalOpcode w s
    | .reservedBits => raise .reservedBits w s

end Sys2Proof.Machine
end

