-- ==== Sys2Proof/Machine/Operands.lean ====
section
/-! DEFINITION. The commands' implicit operands (30_encoding.md R73): the channels' InPop and OutPush (20_memory.md R53,
R54), and the little-endian 64-bit fields of the compressed file (R51). -/
namespace Sys2Proof.Machine

/-- LE64(v) (R51): the eight bytes, least significant first. -/
def le64 (v : Word) : List Byte :=
  [v.extractLsb' 0 8, v.extractLsb' 8 8, v.extractLsb' 16 8, v.extractLsb' 24 8,
   v.extractLsb' 32 8, v.extractLsb' 40 8, v.extractLsb' 48 8, v.extractLsb' 56 8]

/-- The sum of `b_k * 2^(8k)` over a list of bytes (R51). -/
def bytesToNat : List Byte → Nat
  | [] => 0
  | b :: bs => b.toNat + 256 * bytesToNat bs

/-- fromLE64 (R51). -/
def fromLE64 (bs : List Byte) : Word := BitVec.ofNat 64 (bytesToNat bs)

/-- InPop, once the head element `e` is there (R53): remove it; a Byte is counted in XFER_IN. -/
def popIn (e : InElem) (rest : List InElem) (s : State) : State :=
  match e with
  | .byte _ =>
    { s with inCh := rest, xferIn := countTransfer s.xferIn s.draws, draws := drawsAfter s.xferIn s.draws }
  | .endOfFile => { s with inCh := rest }
  | .fault => { s with inCh := rest }

/-- The answer the sink has for the push now offered (R54); `none` while it takes nothing. -/
def sinkAnswer (s : State) : Option SinkAnswer :=
  match s.sinkQuota with
  | some 0 => none
  | _ => some (if s.sinkFaults.contains s.pushes then .fault else .ok)

/-- OutPush(b), once the sink answers `r` (R54): an Ok byte is taken and counted in XFER_OUT, a refused one is not part
of the output. -/
def pushOut (b : Byte) (r : SinkAnswer) (s : State) : State :=
  match r with
  | .ok =>
    { s with
      out := s.out ++ [b], xferOut := countTransfer s.xferOut s.draws, draws := drawsAfter s.xferOut s.draws
      pushes := s.pushes + 1, sinkQuota := s.sinkQuota.map (· - 1) }
  | .fault => { s with pushes := s.pushes + 1, sinkQuota := s.sinkQuota.map (· - 1) }

end Sys2Proof.Machine
end

