-- ==== Sys2Proof/Machine/Bitstream.lean ====
section
/-! DEFINITION. The bitstream packer and unpacker (41_bitstream.md). -/
namespace Sys2Proof.Machine

/-- Open the packer (R112). -/
def openPacker (s : State) : State := { s with obuf := 0#8, ocnt := 0#3, emitBits := 0#64 }

/-- `OBUF[OCNT] <- b` (R114). -/
def withBit (buf : Byte) (pos : BitVec 3) (b : Bool) : Byte :=
  if b then buf ||| (1#8 <<< pos.toNat) else buf &&& ~~~(1#8 <<< pos.toNat)

/-- OBUF <- 0; OCNT <- 0, as after every push of the packer (R114, R116). -/
def emptyPacker (s : State) : State := { s with obuf := 0#8, ocnt := 0#3 }

/-- The rest of a codeword through WriteBit (R114, R115), each bit counted first in EMIT_BITS (44_encoder.md R158). It
stops at the OutPush of the byte a bit fills; when the codeword is done ENC_EMIT pops its next element. -/
def writeBits : List Bool → State → State
  | [], s => waitAt .emitPop s
  | b :: bits, s =>
    let t := { s with emitBits := s.emitBits + 1, obuf := withBit s.obuf s.ocnt b }
    if s.ocnt = 7#3 then waitAt (.emitPush bits) t
    else writeBits bits { t with ocnt := s.ocnt + 1 }

/-- Open the unpacker (R117): the buffer is exhausted. -/
def openUnpacker (s : State) : State := { s with ibuf := 0#8, ipos := 8#4 }

/-- ReadBit's refill (R118): IBUF <- v; IPOS <- 0. -/
def refillUnpacker (v : Byte) (s : State) : State := { s with ibuf := v, ipos := 0#4 }

/-- The bits ReadBit can deliver from IBUF, next first: IBUF[IPOS] to IBUF[7] (R118). None left is the exhausted
buffer, IPOS = 8. -/
def unreadBits (s : State) : List Bool :=
  ((List.range 8).drop s.ipos.toNat).map fun i => s.ibuf.getLsbD i

/-- ReadBit has delivered the next bit of the buffer: IPOS <- IPOS + 1 (R118). -/
def advanceUnpacker (s : State) : State := { s with ipos := s.ipos + 1 }

end Sys2Proof.Machine
end

