-- ==== Sys2Proof/Machine/Flags.lean ====
section
/-! DEFINITION. The flags (10_state.md R36: STATUS's BUSY, EMPTY, OVR and the derived ERR), and the register codes and
views the host reads (R19 to R34). -/
namespace Sys2Proof.Machine

/-- The 4-bit code of PHASE (R19). -/
def phaseCode : Phase → BitVec 4
  | .idle      => 0#4
  | .counted   => 1#4
  | .built     => 2#4
  | .headed    => 3#4
  | .encDone   => 4#4
  | .decHeaded => 5#4
  | .decBuilt  => 6#4
  | .decDone   => 7#4
  | .error     => 15#4

/-- STATUS.ERR: PHASE = ERROR (R17, R20). -/
def errFlag (s : State) : Bool := s.phase == .error

/-- EMPTY <- 1 (R36). -/
def setEmpty (s : State) : State := { s with empty := true }

/-- STATUS (R20). -/
def statusWord (s : State) : Word :=
  0#40 ++ s.lastOp ++ 0#4 ++ phaseCode s.phase ++ 0#4 ++ BitVec.ofBool s.ovr ++ BitVec.ofBool (errFlag s)
    ++ BitVec.ofBool s.empty ++ BitVec.ofBool s.busy

/-- ERR_CODE (R23). -/
def errCodeWord (s : State) : Word := 0#48 ++ s.errDetail ++ s.errKind

/-- The 2-bit code of TYPE (R28). -/
def nodeTypeCode : NodeType → BitVec 2
  | .unused   => 0#2
  | .leaf     => 1#2
  | .internal => 2#2

/-- Word 0 of an arena entry (R28). -/
def nodeWord0 (n : Node) : Word :=
  0#8 ++ n.weight.extractLsb' 64 8 ++ 0#7 ++ n.one ++ 0#7 ++ n.zero ++ n.sym ++ 0#6 ++ nodeTypeCode n.type

/-- Word 1 of an arena entry (R28): the low 64 bits of the weight. -/
def nodeWord1 (n : Node) : Word := n.weight.extractLsb' 0 64

/-- PACK (R32). -/
def packWord (s : State) : Word := 0#53 ++ s.ocnt ++ s.obuf

/-- UNPACK (R34). -/
def unpackWord (s : State) : Word := 0#39 ++ s.cur ++ 0#4 ++ s.ipos ++ s.ibuf

end Sys2Proof.Machine
end

