-- ==== Sys2Proof/Machine/Tree.lean ====
section
/-! DEFINITION. The tree constructor, the traversal step and the code-table generator (43_tree.md). -/
namespace Sys2Proof.Machine

/-- The tree arena (10_state.md R28). -/
abbrev Arena := Bank Node 511

/-- NODE[k] of an arena, by number. -/
def arenaAt (a : Arena) (k : Nat) : Node := bankAt a k unusedNode

/-- The priority order (R131): by weight, then by index. -/
def keyLt (a : Arena) (j k : Nat) : Bool :=
  decide ((arenaAt a j).weight < (arenaAt a k).weight)
    || ((arenaAt a j).weight == (arenaAt a k).weight && decide (j < k))

/-- The candidate with the smallest key (R131); `k` is the smallest so far. -/
def lowestFrom (a : Arena) (k : Nat) : List Nat → Nat
  | [] => k
  | j :: js => lowestFrom a (if keyLt a j k then j else k) js

/-- The terminal node of a sequence entry (R135, step 1). -/
def leafNode (sym : Byte) (count : Word) : Node :=
  { type := .leaf, sym := sym, zero := Config.none, one := Config.none, weight := count.setWidth 72 }

/-- The node that merges candidates `i` and `j` (R135, step 3); the sum of the weights is exact (R133). -/
def mergedNode (a : Arena) (i j : Nat) : Node :=
  { type := .internal, sym := 0#8, zero := BitVec.ofNat 9 i, one := BitVec.ofNat 9 j
    weight := (arenaAt a i).weight + (arenaAt a j).weight }

/-- The root of a single-symbol tree (R137). -/
def singleRoot (a : Arena) : Node :=
  { type := .internal, sym := 0#8, zero := 0#9, one := Config.none, weight := (arenaAt a 0).weight }

/-- Step 1 of BuildTree (R135): the leaves of entries 0..n-1. -/
def writeLeaves (n : Nat) (s : State) : Arena :=
  (List.range n).foldl (fun a i => bankSet a i (leafNode (seqSymAt s i) (seqCntAt s i))) s.node

/-- What the merge loop leaves: the arena, the candidates and the next insertion index. -/
structure MergeResult where
  arena : Arena
  queue : List Nat
  next  : Nat

/-- Step 3 of BuildTree (R135): merge the two lowest candidates while there is more than one. With n candidates it
makes n - 1 turns (R136), so n turns are enough. -/
def mergeLoop : Nat → List Nat → Nat → Arena → MergeResult
  | 0, q, next, a => { arena := a, queue := q, next := next }
  | turns + 1, q, next, a =>
    match q with
    | k :: k' :: ks =>
      let i := lowestFrom a k (k' :: ks)
      match (k :: k' :: ks).erase i with
      | j₀ :: js =>
        let j := lowestFrom a j₀ js
        mergeLoop turns ((j₀ :: js).erase j ++ [next]) (next + 1) (bankSet a next (mergedNode a i j))
      | [] => { arena := a, queue := q, next := next }
    | _ => { arena := a, queue := q, next := next }

/-- BuildTree(n) (R135, R137). -/
def buildTree (n : Nat) (s : State) : State :=
  let leaves := writeLeaves n s
  if n = 1 then
    { s with node := bankSet leaves 1 (singleRoot leaves), root := 1#9, nodeCount := 2#10 }
  else
    let m := mergeLoop n (List.range n) n leaves
    { s with
      node := m.arena
      root := BitVec.ofNat 9 (m.queue.headD 511)
      nodeCount := BitVec.ofNat 10 m.next }

/-- Go(k, bit) (R140); `none` is Fail. -/
def go (s : State) (k : NodeId) (bit : Bool) : Option NodeId :=
  let n := nodeAt s k
  if n.type ≠ .internal then none
  else
    let c := if bit then n.one else n.zero
    if c = Config.none then none else some c

/-- A path as a codeword: bit `i` is `p_i` (R143). -/
def pathBits : List Bool → Nat
  | [] => 0
  | b :: p => b.toNat + 2 * pathBits p

/-- The code table under construction. -/
structure CodeTable where
  len  : Bank Byte 256
  bits : Bank Codeword 256

/-- The empty table: every value absent (R143). -/
def emptyTable : CodeTable := { len := Bank.fill 256 0#8, bits := Bank.fill 256 0#256 }

/-- Record the codeword of a byte value (R143). -/
def setCode (v : Byte) (p : List Bool) (t : CodeTable) : CodeTable :=
  { len := bankSet t.len v.toNat (BitVec.ofNat 8 p.length)
    bits := bankSet t.bits v.toNat (BitVec.ofNat 256 (pathBits p)) }

/-- Walk(k, p) (R143), to a depth of `depth` edges. A child's id is below its parent's (R139), so a depth of 511 is
never used up. -/
def walk (a : Arena) : Nat → NodeId → List Bool → CodeTable → CodeTable
  | 0, k, p, t => if (arenaAt a k.toNat).type = .leaf then setCode (arenaAt a k.toNat).sym p t else t
  | depth + 1, k, p, t =>
    let n := arenaAt a k.toNat
    if n.type = .leaf then setCode n.sym p t
    else
      let t₀ := walk a depth n.zero (p ++ [false]) t
      if n.one = Config.none then t₀ else walk a depth n.one (p ++ [true]) t₀

/-- BuildTable() (R143). -/
def buildTable (s : State) : State :=
  let t := walk s.node 511 s.root [] emptyTable
  { s with codeLen := t.len, codeBits := t.bits }

/-- The code table's lookup of a byte value (R148): its codeword's bits in stream order, or `none` when it has none. -/
def lookupCode (s : State) (v : Byte) : Option (List Bool) :=
  if codeLenAt s v = 0#8 then none
  else some ((List.range (codeLenAt s v).toNat).map fun i => (codeBitsAt s v).getLsbD i)

end Sys2Proof.Machine
end

