-- ==== Sys2Proof/Machine/Decoder.lean ====
section
/-! DEFINITION. The programs of the decoder commands between their interaction points (45_decoder.md). -/
namespace Sys2Proof.Machine

/-- Program(DEC_HEADER) up to its first InPop (R176). -/
def startDecHeader (s : State) : State := waitAt (.decLen []) (implicitClear s)

/-- DEC_HEADER on the first element End: the empty compressed file (R171, R176). -/
def emptyFile (s : State) : State := completeIn .decHeaded { setEmpty s with statHeader := 0#64 }

/-- The end of Program(DEC_HEADER) (R176). -/
def decHeaderFinish (s : State) : State := completeIn .decHeaded { s with statHeader := s.xferIn }

/-- DEC_HEADER with the eight bytes of frequency_count (R168, R174). -/
def decCountDone (n : Nat) (s : State) : State :=
  if n = 0 ∨ n > Config.maxLeaves then raise .countRange (BitVec.ofNat 64 n) s
  else waitAt (.decSym 0) { s with seqN := BitVec.ofNat 9 n }

/-- DEC_HEADER with entry `i` complete (R174, R176). -/
def decEntryDone (i : Nat) (sym : Byte) (count : Word) (s : State) : State :=
  let t := setSeqEntry i sym count s
  if i + 1 < t.seqN.toNat then waitAt (.decSym (i + 1)) t else decHeaderFinish t

/-- DEC_HEADER after InPop has returned a Byte of payload_bit_length (R173, R176). -/
def decLenByte (got : List Byte) (v : Byte) (s : State) : State :=
  if got.length < 7 then waitAt (.decLen (got ++ [v])) s
  else waitAt (.decCount []) { s with payloadBits := fromLE64 (got ++ [v]) }

/-- DEC_HEADER after InPop has returned a Byte of frequency_count (R173, R176). -/
def decCountByte (got : List Byte) (v : Byte) (s : State) : State :=
  if got.length < 7 then waitAt (.decCount (got ++ [v])) s
  else decCountDone (bytesToNat (got ++ [v])) s

/-- DEC_HEADER after InPop has returned a Byte of entry `i`'s count (R173, R176). -/
def decCntByte (i : Nat) (sym : Byte) (got : List Byte) (v : Byte) (s : State) : State :=
  if got.length < 7 then waitAt (.decCnt i sym (got ++ [v])) s
  else decEntryDone i sym (fromLE64 (got ++ [v])) s

/-- HdrByte on End or Fault (R172): ERR_INFO counts the header bytes popped before it. -/
def hdrFailed (e : InElem) (s : State) : State :=
  match e with
  | .fault => raise .headerReadFault s.xferIn s
  | _ => raise .headerTruncated s.xferIn s

/-- DEC_HEADER after its first InPop (R176): End is the empty compressed file, Fault an error with ERR_INFO 0. -/
def decFirstElem (e : InElem) (s : State) : State :=
  match e with
  | .byte v => decLenByte [] v s
  | .endOfFile => emptyFile s
  | .fault => raise .headerReadFault 0#64 s

/-- Program(DEC_BUILD) (R179): one indivisible step. -/
def decBuildProgram (s : State) : State :=
  completeIn .decBuilt (if s.empty then s else buildTree s.seqN.toNat s)

/-- The declared length is consumed (R181, R186): the traversal must stand at ROOT. -/
def payloadEnd (s : State) : State :=
  if s.cur = s.root then completeIn .decDone { s with statPayload := s.xferIn, statOrig := s.xferOut }
  else raise .notAtRoot (s.cur.setWidth 64) s

/-- DEC_PAYLOAD's loop over the bits left in IBUF (R181, R183): the test of BITS_LEFT, ReadBit, TraverseStep. It stops
at the InPop of the next byte and at the OutPush of a decoded one. -/
def payloadLoop : List Bool → State → State
  | [], s => if s.bitsLeft = 0#64 then payloadEnd s else waitAt .payloadPop s
  | b :: bits, s =>
    if s.bitsLeft = 0#64 then payloadEnd s
    else
      let t := advanceUnpacker s
      match go t t.cur b with
      | none => raise .deadEnd (t.payloadBits - t.bitsLeft) t
      | some c =>
        let u := { t with bitsLeft := t.bitsLeft - 1 }
        if (nodeAt u c).type = .leaf then waitAt (.payloadPush (nodeAt u c).sym) u
        else payloadLoop bits { u with cur := c }

/-- The loop from wherever the unpacker stands (R181). -/
def payloadResume (s : State) : State := payloadLoop (unreadBits s) s

/-- Program(DEC_PAYLOAD) up to its first interaction point, or to its end (R181). -/
def startPayload (s : State) : State :=
  if s.empty then completeIn .decDone { s with statOrig := 0#64, statPayload := 0#64 }
  else payloadResume { openUnpacker s with cur := s.root, bitsLeft := s.payloadBits }

/-- ReadBit after its InPop has returned `e` (41_bitstream.md R118), and the loop from there. -/
def payloadElem (e : InElem) (s : State) : State :=
  match e with
  | .byte v => payloadResume (refillUnpacker v s)
  | .endOfFile => raise .payloadTruncated s.xferIn s
  | .fault => raise .payloadReadFault s.xferIn s

/-- TraverseStep after the sink has answered the decoded byte (R183), and the loop from there. -/
def payloadAnswered (r : SinkAnswer) (s : State) : State :=
  match r with
  | .ok => payloadResume { s with cur := s.root }
  | .fault => raise .writeDecoded s.xferOut s

end Sys2Proof.Machine
end

