-- ==== Sys2Proof/Machine/Frequency.lean ====
section
/-! DEFINITION. The frequency table builder and the frequency sequence (42_frequency.md). -/
namespace Sys2Proof.Machine

/-- Program(ENC_COUNT) up to its first InPop (R125). -/
def startCount (s : State) : State := waitAt .countPop (implicitClear s)

/-- One turn of ENC_COUNT's loop, after InPop has returned `e` (R125). -/
def countElem (e : InElem) (s : State) : State :=
  match e with
  | .byte v =>
    if s.total = BitVec.allOnes 64 then raise .overflowTotal 0#64 s
    else waitAt .countPop { setFreq v (freqAt s v + 1) s with total := s.total + 1 }
  | .endOfFile => completeIn .counted s
  | .fault => raise .readCountPass s.xferIn s

/-- The byte values in ascending order. -/
def byteValues : List Byte := (List.range 256).map (BitVec.ofNat 8)

/-- The entries of FreqSequence (R128): the values that occur, ascending, with their counts. -/
def freqEntries (s : State) : List (Byte × Word) :=
  (byteValues.filter fun v => freqAt s v != 0#64).map fun v => (v, freqAt s v)

/-- Write the entries from position `n` on, and SEQ_N after the last one (R128). -/
def writeSeq : List (Byte × Word) → Nat → State → State
  | [], n, s => { s with seqN := BitVec.ofNat 9 n }
  | e :: es, n, s => writeSeq es (n + 1) (setSeqEntry n e.1 e.2 s)

/-- FreqSequence() (R128). -/
def freqSequence (s : State) : State := writeSeq (freqEntries s) 0 s

end Sys2Proof.Machine
end

