-- ==== Sys2Proof/Machine/Encoder.lean ====
section
/-! DEFINITION. The programs of the encoder commands between their interaction points (44_encoder.md). ENC_COUNT's is
in Frequency.lean. -/
namespace Sys2Proof.Machine

/-- The payload bit length L: the sum of CODE_LEN[v] * FREQ[v], computed exactly (R152). -/
def payloadLength (s : State) : Nat :=
  (byteValues.map fun v => (codeLenAt s v).toNat * (freqAt s v).toNat).sum

/-- `STAT_ORIG <- TOTAL` (R153). -/
def setStatOrig (s : State) : State := { s with statOrig := s.total }

/-- Program(ENC_BUILD) (R151): one indivisible step. -/
def encBuildProgram (s : State) : State :=
  let t := setStatOrig (freqSequence s)
  if t.seqN = 0#9 then completeIn .built { setEmpty t with payloadBits := 0#64 }
  else
    let u := buildTable (buildTree t.seqN.toNat t)
    if payloadLength u > 2 ^ 64 - 1 then raise .overflowPayloadBits 0#64 u
    else completeIn .built { u with payloadBits := BitVec.ofNat 64 (payloadLength u) }

/-- HeaderBytes() (R157). -/
def headerBytes (s : State) : List Byte :=
  le64 s.payloadBits ++ le64 (s.seqN.setWidth 64)
    ++ (List.range s.seqN.toNat).flatMap fun i => seqSymAt s i :: le64 (seqCntAt s i)

/-- The header bytes still to push (R156): offer the next one, or finish. -/
def pushHeader : List Byte → State → State
  | [], s => completeIn .headed { s with statHeader := s.xferOut }
  | b :: rest, s => waitAt (.headerPush b rest) s

/-- Program(ENC_HEADER) up to its first OutPush, or to its end when EMPTY (R156). -/
def startHeader (s : State) : State :=
  if s.empty then completeIn .headed { s with statHeader := 0#64 }
  else pushHeader (headerBytes s) s

/-- ENC_HEADER after the sink has answered a header byte (R156). -/
def headerAnswered (r : SinkAnswer) (rest : List Byte) (s : State) : State :=
  match r with
  | .ok => pushHeader rest s
  | .fault => raise .writeHeader s.xferOut s

/-- Program(ENC_EMIT) up to its first InPop (R158). -/
def startEmit (s : State) : State := waitAt .emitPop (openPacker s)

/-- AbortEmit (R160): Record, one Close whose answer is ignored, completion. An empty packer pushes nothing (R116). -/
def abortEmit (c : ErrorCause) (info : Word) (s : State) : State :=
  let t := record c info s
  if t.ocnt = 0#3 then complete t else waitAt .abortClose t

/-- ENC_EMIT after its final Close was answered Ok or pushed nothing (R158). -/
def emitFinish (s : State) : State :=
  if s.emitBits = s.payloadBits then completeIn .encDone { s with statPayload := s.xferOut }
  else raise .shortBits s.emitBits s

/-- One turn of ENC_EMIT's loop, after InPop has returned `e` (R158). -/
def emitElem (e : InElem) (s : State) : State :=
  match e with
  | .byte v =>
    match lookupCode s v with
    | none => abortEmit .noCodeword (v.setWidth 64) s
    | some p =>
      if s.emitBits.toNat + p.length > s.payloadBits.toNat then abortEmit .excessBits (v.setWidth 64) s
      else writeBits p s
  | .endOfFile => if s.ocnt = 0#3 then emitFinish s else waitAt .emitClose s
  | .fault => abortEmit .readEmitPass s.xferIn s

/-- WriteBit after the sink has answered a full byte (R114): the buffer is empty again, whatever the answer. -/
def emitAnswered (r : SinkAnswer) (bits : List Bool) (s : State) : State :=
  match r with
  | .ok => writeBits bits (emptyPacker s)
  | .fault => raise .writePayload s.xferOut (emptyPacker s)

/-- ENC_EMIT after the sink has answered the final Close (R116, R158). -/
def closeAnswered (r : SinkAnswer) (s : State) : State :=
  match r with
  | .ok => emitFinish (emptyPacker s)
  | .fault => raise .writePayload s.xferOut (emptyPacker s)

/-- AbortEmit after the sink has answered its Close, Ok or Fault (R160). -/
def abortAnswered (s : State) : State := complete (emptyPacker s)

end Sys2Proof.Machine
end

