-- ==== Sys2Proof/Machine/Engine.lean ====
section
/-! DEFINITION. The running command, one interaction at a time (40_control.md R107): which interaction it waits for,
what it does once that happens, and how far it gets without the host. -/
namespace Sys2Proof.Machine

/-- What the core waits for (R107). -/
inductive Awaited where
  | nothing
  | pop
  | push (b : Byte)
deriving DecidableEq, Repr

/-- What the running command waits for; with BUSY = 0 the core does nothing (60_exceptions.md R221). -/
def awaited (s : State) : Awaited :=
  if s.busy then
    match s.pos with
    | .idle => .nothing
    | .countPop | .emitPop | .decLen _ | .decCount _ | .decSym _ | .decCnt _ _ _ | .payloadPop => .pop
    | .headerPush b _ => .push b
    | .emitPush _ | .emitClose | .abortClose => .push s.obuf
    | .payloadPush sym => .push sym
  else .nothing

/-- The running command after its InPop has returned `e`. The positions that wait for no pop are left alone; `coreStep`
never calls it there. -/
def afterPop (e : InElem) (s : State) : State :=
  match s.pos with
  | .countPop => countElem e s
  | .emitPop => emitElem e s
  | .decLen [] => decFirstElem e s
  | .decLen (g :: got) =>
    match e with
    | .byte v => decLenByte (g :: got) v s
    | .endOfFile | .fault => hdrFailed e s
  | .decCount got =>
    match e with
    | .byte v => decCountByte got v s
    | .endOfFile | .fault => hdrFailed e s
  | .decSym i =>
    match e with
    | .byte v => waitAt (.decCnt i v []) s
    | .endOfFile | .fault => hdrFailed e s
  | .decCnt i sym got =>
    match e with
    | .byte v => decCntByte i sym got v s
    | .endOfFile | .fault => hdrFailed e s
  | .payloadPop => payloadElem e s
  | .idle | .headerPush _ _ | .emitPush _ | .emitClose | .abortClose | .payloadPush _ => s

/-- The running command after its OutPush was answered `r`. The positions that wait for no push are left alone;
`coreStep` never calls it there. -/
def afterPush (r : SinkAnswer) (s : State) : State :=
  match s.pos with
  | .headerPush _ rest => headerAnswered r rest s
  | .emitPush bits => emitAnswered r bits s
  | .emitClose => closeAnswered r s
  | .abortClose => abortAnswered s
  | .payloadPush _ => payloadAnswered r s
  | .idle | .countPop | .emitPop | .decLen _ | .decCount _ | .decSym _ | .decCnt _ _ _ | .payloadPop => s

/-- One step of the core (R107): the pop or push it waits for, and all computation up to the next interaction point.
`none` while it waits for the host, or runs nothing. -/
def coreStep (s : State) : Option State :=
  match awaited s with
  | .nothing => none
  | .pop =>
    match s.inCh with
    | [] => none
    | e :: rest => some (afterPop e (popIn e rest s))
  | .push b =>
    match sinkAnswer s with
    | none => none
    | some r => some (afterPush r (pushOut b r s))

/-- At most `n` steps of the core. -/
def run : Nat → State → State
  | 0, s => s
  | n + 1, s =>
    match coreStep s with
    | none => s
    | some t => run n t

/-- How many pushes the running command can still make before its next pop. -/
def pushesAhead (s : State) : Nat :=
  match s.pos with
  | .headerPush _ rest => rest.length + 1
  | .emitPush bits => bits.length + 1
  | .emitClose | .abortClose => 1
  | .payloadPush _ => (unreadBits s).length + 1
  | .idle | .countPop | .emitPop | .decLen _ | .decCount _ | .decSym _ | .decCnt _ _ _ | .payloadPop => 0

/-- A bound on the steps the core can make with what IN holds: a popped byte leads to at most 255 pushes. -/
def interactionBound (s : State) : Nat := 512 * s.inCh.length + pushesAhead s

/-- The core runs until its command completes or it waits for the host (R105). -/
def settle (s : State) : State := run (interactionBound s) s

/-- After acceptance: run on, or stop at the first interaction point, as the schedule says (R107; log 2). -/
def proceed (s : State) : State := if s.eager then settle s else s

end Sys2Proof.Machine
end

