-- ==== Sys2Proof/Machine/Control.lean ====
section
/-! DEFINITION. The meanings of NOP and CLEAR (40_control.md). -/
namespace Sys2Proof.Machine

/-- NOP (R108): accept and complete; executes in PHASE ERROR too and keeps the error. -/
def execNop (s : State) : Host.Outcome State Fault Refusal := .next (issue .nop complete s)

/-- CLEAR (R109): ImplicitClear; executes in PHASE ERROR too. -/
def execClear (s : State) : Host.Outcome State Fault Refusal :=
  .next (issue .clear (fun t => complete (implicitClear t)) s)

end Sys2Proof.Machine
end

