-- ==== Sys2Proof/Machine/DecoderCommands.lean ====
section
/-! DEFINITION. The meanings of the decoder commands (45_decoder.md). -/
namespace Sys2Proof.Machine

/-- DEC_HEADER (R176). -/
def execDecHeader (s : State) : Host.Outcome State Fault Refusal :=
  .next (issue .decHeader (fun t => proceed (startDecHeader t)) s)

/-- DEC_BUILD (R179). -/
def execDecBuild (s : State) : Host.Outcome State Fault Refusal := .next (issue .decBuild decBuildProgram s)

/-- DEC_PAYLOAD (R181). -/
def execDecPayload (s : State) : Host.Outcome State Fault Refusal :=
  .next (issue .decPayload (fun t => proceed (startPayload t)) s)

end Sys2Proof.Machine
end

