-- ==== Sys2Proof/Machine/EncoderCommands.lean ====
section
/-! DEFINITION. The meanings of the encoder commands (42_frequency.md R125, 44_encoder.md). -/
namespace Sys2Proof.Machine

/-- ENC_COUNT (R125). -/
def execEncCount (s : State) : Host.Outcome State Fault Refusal :=
  .next (issue .encCount (fun t => proceed (startCount t)) s)

/-- ENC_BUILD (R151). -/
def execEncBuild (s : State) : Host.Outcome State Fault Refusal := .next (issue .encBuild encBuildProgram s)

/-- ENC_HEADER (R156). -/
def execEncHeader (s : State) : Host.Outcome State Fault Refusal :=
  .next (issue .encHeader (fun t => proceed (startHeader t)) s)

/-- ENC_EMIT (R158). -/
def execEncEmit (s : State) : Host.Outcome State Fault Refusal :=
  .next (issue .encEmit (fun t => proceed (startEmit t)) s)

end Sys2Proof.Machine
end

