-- ==== Sys2Proof/Machine/Dispatch.lean ====
section
/-! DEFINITION. The dispatch of a decoded command word to its meaning, one arm per constructor. -/
namespace Sys2Proof.Machine

def exec (i : Instr) (s : State) : Host.Outcome State Fault Refusal :=
  match i with
  | .nop => Sys2Proof.Machine.execNop s
  | .clear => Sys2Proof.Machine.execClear s
  | .encCount => Sys2Proof.Machine.execEncCount s
  | .encBuild => Sys2Proof.Machine.execEncBuild s
  | .encHeader => Sys2Proof.Machine.execEncHeader s
  | .encEmit => Sys2Proof.Machine.execEncEmit s
  | .decHeader => Sys2Proof.Machine.execDecHeader s
  | .decBuild => Sys2Proof.Machine.execDecBuild s
  | .decPayload => Sys2Proof.Machine.execDecPayload s

end Sys2Proof.Machine
end

