-- ==== Sys2Proof/Machine/Mmio.lean ====
section
/-! DEFINITION. The MMIO window: the view of every register (20_memory.md R60 to R65) and the CMD register
(40_control.md R96). Offsets are from BASE. -/
namespace Sys2Proof.Machine

/-- The bus address of an offset in the window (00_scope.md R11): BASE + offset. -/
def busAddress (offset : Nat) : Nat := Config.base + offset

/-- The one-word registers, offsets 0x000 to 0x090 (R62). -/
def registerWord (offset : Nat) (s : State) : Word :=
  if offset = 0x000 then Config.idValue
  else if offset = 0x008 then 0#64
  else if offset = 0x010 then statusWord s
  else if offset = 0x018 then errCodeWord s
  else if offset = 0x020 then s.errInfo
  else if offset = 0x028 then s.total
  else if offset = 0x030 then s.payloadBits
  else if offset = 0x038 then s.seqN.setWidth 64
  else if offset = 0x040 then s.nodeCount.setWidth 64
  else if offset = 0x048 then s.root.setWidth 64
  else if offset = 0x050 then s.statOrig
  else if offset = 0x058 then s.statPayload
  else if offset = 0x060 then s.statHeader
  else if offset = 0x068 then s.emitBits
  else if offset = 0x070 then s.bitsLeft
  else if offset = 0x078 then packWord s
  else if offset = 0x080 then unpackWord s
  else if offset = 0x088 then s.xferIn
  else if offset = 0x090 then s.xferOut
  else 0#64

/-- One of the two words of an arena entry (R28); `w` counts the words of the arena. -/
def arenaWord (w : Nat) (s : State) : Word :=
  let n := bankAt s.node (w / 2) unusedNode
  if w % 2 = 0 then nodeWord0 n else nodeWord1 n

/-- One of the four words of a CODE_BITS entry (R30); `w` counts the words of the array. -/
def codeBitsWord (w : Nat) (s : State) : Word :=
  (bankAt s.codeBits (w / 4) 0#256).extractLsb' (64 * (w % 4)) 64

/-- The 64-bit view of the window at an aligned offset (R60, R62): reserved offsets read 0. -/
def windowView (offset : Nat) (s : State) : Word :=
  if offset < 0x800 then registerWord offset s
  else if offset < 0x1000 then bankAt s.freq ((offset - 0x800) / 8) 0#64
  else if offset < 0x1800 then seqCntAt s ((offset - 0x1000) / 8)
  else if offset < 0x2000 then (seqSymAt s ((offset - 0x1800) / 8)).setWidth 64
  else if offset < 0x3FF0 then arenaWord ((offset - 0x2000) / 8) s
  else if offset < 0x4000 then 0#64
  else if offset < 0x4800 then (bankAt s.codeLen ((offset - 0x4000) / 8) 0#8).setWidth 64
  else if offset < 0x6000 then 0#64
  else if offset < 0x8000 then codeBitsWord ((offset - 0x6000) / 8) s
  else 0#64

/-- The reserved offsets of the map (R62). They read 0 at all times: R60 makes only the listed registers subject to R63
(92 D27; 93 U15: "read 0, writes ignored; no model freedom"). -/
def reservedOffset (offset : Nat) : Bool :=
  (decide (0x098 ≤ offset) && decide (offset ≤ 0x7F8)) || (decide (0x3FF0 ≤ offset) && decide (offset ≤ 0x3FF8))
    || (decide (0x4800 ≤ offset) && decide (offset ≤ 0x5FF8))

/-- The offsets whose reads are exact while BUSY = 1: ID, STATUS, ERR_CODE, ERR_INFO (R63) and the reserved ones
(R60). -/
def exactWhileBusy (offset : Nat) : Bool :=
  offset == 0x000 || offset == 0x010 || offset == 0x018 || offset == 0x020 || reservedOffset offset

/-- MemRead(offset, 8) (R60, R63): what it hands the host. While BUSY = 1 any other offset hands over a free value
(log 3), a fresh draw each time. -/
def memRead (offset : Nat) (s : State) : State :=
  if s.busy && !exactWhileBusy offset then
    { s with reads := s.reads ++ [{ offset := offset, value := Config.busyRead s.draws }], draws := s.draws + 1 }
  else { s with reads := s.reads ++ [{ offset := offset, value := windowView offset s }] }

/-- OnCmdWrite(w) (40_control.md R96). -/
def onCmdWrite (w : Word) (s : State) : Host.Outcome State Fault Refusal :=
  match decodeCmd w with
  | .ok i => exec i s
  | .error e => .next (rejectWord e w s)

/-- MemWrite(offset, 8, w) (R61): only CMD takes a write. -/
def memWrite (offset : Nat) (w : Word) (s : State) : Host.Outcome State Fault Refusal :=
  if offset = Config.cmdOffset then onCmdWrite w s else .next s

end Sys2Proof.Machine
end

