-- ==== Sys2Proof/Machine/Agents.lean ====
section
/-! DEFINITION. The moves of the two agents: the host (70_reset_and_hazards.md R236, in the program form of
30_encoding.md R83) and the core between them (40_control.md R107). -/
namespace Sys2Proof.Machine

/-- Why the core cannot move (70_reset_and_hazards.md R239). -/
def stuckReason (s : State) : Fault :=
  match awaited s with
  | .nothing => .stuckWait
  | .pop => .stuckInPop
  | .push _ => .stuckOutPush

/-- While BUSY = 1 and the host only waits, the core makes its next step, or the run is stuck (R239). -/
def waitForCore (s : State) : Host.Outcome State Fault Refusal :=
  match coreStep s with
  | some t => .next t
  | none => .fault (stuckReason s)

/-- The host's program moves on to `rest`. -/
def restOfScript (rest : List HostAction) (s : State) : State := { s with script := rest }

/-- IN without its first file: the elements after the first End (70_reset_and_hazards.md R231). With no End in IN the
file has not ended, and nothing is left of it (DESIGN CHOICE, log 9). -/
def afterEnd : List InElem → List InElem
  | [] => []
  | .endOfFile :: rest => rest
  | .byte _ :: rest => afterEnd rest
  | .fault :: rest => afterEnd rest

/-- One action of the host, with `rest` its program after it. When `sinkFaultAt` takes effect is the model's choice
(DESIGN CHOICE, log 5), and so is that `discardOut` is executed in any state (DESIGN CHOICE, log 11). -/
def hostMove (a : HostAction) (rest : List HostAction) (s : State) : Host.Outcome State Fault Refusal :=
  let t := restOfScript rest s
  match a with
  | .write offset size value =>
    if accessWellFormed offset size then memWrite offset value t else .refused (.badAccess offset size)
  | .read offset size =>
    if accessWellFormed offset size then .next (memRead offset t) else .refused (.badAccess offset size)
  | .feed elems => .next { t with inCh := t.inCh ++ elems }
  | .drainIn => if t.busy then .refused .drainWhileBusy else .next { t with inCh := [] }
  | .drainFile => if t.busy then .refused .drainWhileBusy else .next { t with inCh := afterEnd t.inCh }
  | .discardOut keep => .next { t with out := t.out.take keep }
  | .sinkFaultAt k => .next { t with sinkFaults := k :: t.sinkFaults }
  | .sinkQuota q => .next { t with sinkQuota := q }
  | .wait => if t.busy then waitForCore s else .next t
  | .core => .next ((coreStep t).getD t)
  | .setEager b => .next { t with eager := b }
  | .reset => .next (hardwareReset t)

/-- The machine's next move: the host's next action; at the end of its program the running command goes on, and an idle
core does nothing (R239, 60_exceptions.md R221). -/
def nextMove (s : State) : Host.Outcome State Fault Refusal :=
  match s.script with
  | [] => if s.busy then waitForCore s else .next s
  | a :: rest => hostMove a rest s

/-- The 64-bit command word the opcode table's numbering of bits gives (30_encoding.md R72). -/
def tableWord (nbits w : Nat) : Word := BitVec.ofNat 64 (w % 2 ^ nbits)

end Sys2Proof.Machine
end

