-- ==== Sys2Proof/Machine/Step.lean ====
section
/-! DEFINITION. The step of the machine, and how a command word comes to be the next thing it runs. -/
namespace Sys2Proof.Machine

/-- One move of the core or of the host. -/
def step (s : State) : Host.Outcome State Fault Refusal := nextMove s

/-- The core fetches nothing (10_state.md R18): a command runs when the host writes its word to CMD. So the word is made
the host's next action, an 8-byte write at the offset of CMD. -/
def State.withFetchWord (s : State) (nbits w : Nat) : State :=
  { s with script := .write Config.cmdOffset 8 (tableWord nbits w) :: s.script }

end Sys2Proof.Machine
end

