-- ==== Sys2Proof/Safety.lean ====
section
/-! DEFINITION. What counts as a safe run, and the words the claims are stated in: when a command may start, what the
channels hold, the payload as a list of bits, paths in the tree, and the invariants of the core. -/
namespace Sys2Proof.Machine

/-! ### Runs (70_reset_and_hazards.md R239) -/

/-- The run has ended in success: the host program is done, BUSY = 0, ERR = 0. -/
def FinalSuccess (s : State) : Prop := s.script = [] ∧ s.busy = false ∧ s.phase ≠ .error

/-- The run has ended with an error recorded, a defined outcome the host reads. -/
def FinalError (s : State) : Prop := s.script = [] ∧ s.busy = false ∧ s.phase = .error

/-- The last step was no fault and no refusal. -/
def Safe (o : Host.Outcome State Fault Refusal) : Prop := ∃ s, o = .next s

/-! ### When a command may start, and what the host gives it -/

/-- The PHASEs that admit a command, by the second column of 40_control.md R101. -/
def admittedPhases : Instr → List Phase
  | .nop | .clear =>
    [.idle, .counted, .built, .headed, .encDone, .decHeaded, .decBuilt, .decDone, .error]
  | .encCount | .decHeader => [.idle, .counted, .built, .headed, .encDone, .decHeaded, .decBuilt, .decDone]
  | .encBuild => [.counted]
  | .encHeader => [.built]
  | .encEmit => [.headed]
  | .decBuild => [.decHeaded]
  | .decPayload => [.decBuilt]

/-- PHASE after the success of a command started in `p`, by the third column of R101. -/
def phaseAfter (p : Phase) : Instr → Phase
  | .nop => p
  | .clear => .idle
  | .encCount => .counted
  | .encBuild => .built
  | .encHeader => .headed
  | .encEmit => .encDone
  | .decHeader => .decHeaded
  | .decBuild => .decBuilt
  | .decPayload => .decDone

/-- A command that would be accepted: BUSY = 0 and PHASE admits it. -/
def Ready (i : Instr) (s : State) : Prop := s.busy = false ∧ s.phase ∈ admittedPhases i

/-- Every push from now on is answered Ok. -/
def SinkTakesAll (s : State) : Prop := s.sinkQuota = none ∧ ∀ k ∈ s.sinkFaults, k < s.pushes

/-- The Byte elements of a file, without its End (20_memory.md R53). -/
def fileOf (bytes : List Byte) : List InElem := bytes.map InElem.byte

/-! ### The payload as bits, and the header as bytes -/

/-- The value of at most eight bits, first bit least significant (20_memory.md R52). -/
def bitsValue (p : List Bool) : Nat := p.foldr (fun b n => b.toNat + 2 * n) 0

/-- A bit sequence packed into bytes (R52): bit `j` is bit `j mod 8` of byte `j div 8`, and the unused high bits of the
last byte are 0. -/
def packBits (p : List Bool) : List Byte :=
  (List.range ((p.length + 7) / 8)).map fun k => BitVec.ofNat 8 (bitsValue ((p.drop (8 * k)).take 8))

/-- The number of bytes that hold `n` bits. -/
def bytesFor (n : Nat) : Nat := (n + 7) / 8

/-- The frequency sequence held in SEQ_SYM, SEQ_CNT and SEQ_N (10_state.md R27). -/
def entriesOf (s : State) : List (Byte × Word) :=
  (List.range s.seqN.toNat).map fun i => (seqSymAt s i, seqCntAt s i)

/-- The header of a non-empty compressed file, byte for byte (30_encoding.md R77). -/
def headerImage (bitLength : Word) (entries : List (Byte × Word)) : List Byte :=
  le64 bitLength ++ le64 (BitVec.ofNat 64 entries.length) ++ entries.flatMap fun e => e.1 :: le64 e.2

/-- The codewords of a list of byte values, one after the other; a value with no codeword gives no bit. -/
def codewordsOf (s : State) (bytes : List Byte) : List Bool := bytes.flatMap fun b => (lookupCode s b).getD []

/-- The sum of the frequency counters, exactly. -/
def freqSum (s : State) : Nat := (byteValues.map fun v => (freqAt s v).toNat).sum

/-- The sum of CODE_LEN[v] * FREQ[v], exactly (44_encoder.md R152). -/
def codedLength (s : State) : Nat := (byteValues.map fun v => (codeLenAt s v).toNat * (freqAt s v).toNat).sum

/-- How many byte values occur. -/
def distinctValues (s : State) : Nat := (byteValues.filter fun v => freqAt s v != 0#64).length

/-! ### Paths in the tree (00_scope.md R12) -/

/-- The node that a path leads to from a node, if every child on it exists. -/
def descend (s : State) (k : NodeId) : List Bool → Option NodeId
  | [] => some k
  | b :: p => match go s k b with
    | some c => descend s c p
    | none => none

/-- The path leads from ROOT to a LEAF that holds `v`. -/
def LeadsTo (s : State) (p : List Bool) (v : Byte) : Prop :=
  ∃ c, descend s s.root p = some c ∧ (nodeAt s c).type = .leaf ∧ (nodeAt s c).sym = v

/-- Node `k` of the arena is an INTERNAL node with the child `c`. -/
def ParentOf (s : State) (k c : Nat) : Prop :=
  (arenaAt s.node k).type = .internal ∧
    ((arenaAt s.node k).zero.toNat = c ∨ (arenaAt s.node k).one.toNat = c)

/-- Node `c` is a candidate when node `k` of a tree with `n` entries is made: it is there, and no node between them has
taken it as a child (43_tree.md R135, step 3). -/
def CandidateAt (a : Arena) (n k c : Nat) : Prop :=
  c < k ∧ ∀ j, n ≤ j → j < k → (arenaAt a j).zero.toNat ≠ c ∧ (arenaAt a j).one.toNat ≠ c

/-! ### Reset and errors -/

/-- Every register holds its reset value of R39, read one by one. -/
def HoldsResetValues (s : State) : Prop :=
  s.phase = .idle ∧ s.empty = false ∧ s.ovr = false ∧ s.errKind = 0#8 ∧ s.errDetail = 0#8 ∧ s.errInfo = 0#64 ∧
  s.total = 0#64 ∧ (∀ v, freqAt s v = 0#64) ∧
  s.seqN = 0#9 ∧ (∀ i, i < 256 → seqSymAt s i = 0#8 ∧ seqCntAt s i = 0#64) ∧
  (∀ k : NodeId, k.toNat < 511 → nodeAt s k = unusedNode) ∧ s.root = 0x1FF#9 ∧ s.nodeCount = 0#10 ∧
  (∀ v, codeLenAt s v = 0#8 ∧ codeBitsAt s v = 0#256) ∧
  s.payloadBits = 0#64 ∧ s.emitBits = 0#64 ∧ s.obuf = 0#8 ∧ s.ocnt = 0#3 ∧
  s.ibuf = 0#8 ∧ s.ipos = 8#4 ∧ s.cur = 0x1FF#9 ∧ s.bitsLeft = 0#64 ∧
  s.statOrig = 0#64 ∧ s.statPayload = 0#64 ∧ s.statHeader = 0#64 ∧ s.xferIn = 0#64 ∧ s.xferOut = 0#64

/-- R158, R160: what makes ENC_EMIT abort, with the error it records. -/
def AbortCause (s : State) (e : InElem) (kind detail : Byte) (info : Word) : Prop :=
  (∃ v, e = .byte v ∧ lookupCode s v = none ∧ kind = 5#8 ∧ detail = 1#8 ∧ info = v.setWidth 64) ∨
  (∃ v p, e = .byte v ∧ lookupCode s v = some p ∧ s.payloadBits.toNat < s.emitBits.toNat + p.length ∧
    kind = 8#8 ∧ detail = 1#8 ∧ info = v.setWidth 64) ∨
  (e = .fault ∧ kind = 3#8 ∧ detail = 2#8 ∧ info = s.xferIn)

/-! ### Invariants -/

/-- BUSY = 1 exactly while some command's program is at one of its interaction points (40_control.md R98, R99). -/
def BusyInv (s : State) : Prop := s.busy = true ↔ s.pos ≠ .idle

/-- TOTAL is the sum of the counters, bounds each of them, and is XFER_IN while ENC_COUNT runs (42_frequency.md
R123). -/
def CountInv (s : State) : Prop :=
  s.total.toNat = freqSum s ∧ (∀ v, freqAt s v ≤ s.total) ∧ (s.pos = .countPop → s.xferIn = s.total)

/-- An error is recorded exactly in PHASE ERROR, where no command runs but AbortEmit's Close; otherwise the whole record
is 0 (10_state.md R23, R24; 60_exceptions.md R207). -/
def ErrorInv (s : State) : Prop :=
  (s.phase = .error → s.errKind ≠ 0#8 ∧ s.errDetail ≠ 0#8 ∧ (s.busy = false ∨ s.pos = .abortClose)) ∧
  (s.phase ≠ .error → s.errKind = 0#8 ∧ s.errDetail = 0#8 ∧ s.errInfo = 0#64)

/-- No tree is built. -/
def NoTree (s : State) : Prop := s.nodeCount = 0#10 ∧ s.root = 0x1FF#9

/-- ENC_COUNT or DEC_HEADER is running: the two commands that start from cleared registers and work in PHASE IDLE. -/
def startingOver : Position → Bool
  | .countPop | .decLen _ | .decCount _ | .decSym _ | .decCnt _ _ _ => true
  | .idle | .headerPush _ _ | .emitPop | .emitPush _ | .emitClose | .abortClose
  | .payloadPop | .payloadPush _ => false

/-- SEQ_N, NODE_COUNT and ROOT fit one of the three cases of 10_state.md R38, and before a build there is no tree. -/
def TreeInv (s : State) : Prop :=
  s.seqN.toNat ≤ 256 ∧
  (NoTree s ∨ (s.seqN = 1#9 ∧ s.nodeCount = 2#10 ∧ s.root = 1#9) ∨
    (2 ≤ s.seqN.toNat ∧ s.nodeCount.toNat = 2 * s.seqN.toNat - 1 ∧ s.root.toNat = 2 * s.seqN.toNat - 2)) ∧
  (s.phase = .idle ∨ s.phase = .counted ∨ s.phase = .decHeaded → NoTree s) ∧
  (startingOver s.pos = true → s.phase = .idle)

/-- IPOS is at most 8, and the bits of OBUF at OCNT and above are 0 except while a full byte is being pushed
(10_state.md R34, R38; 41_bitstream.md R114). -/
def BufferInv (s : State) : Prop :=
  s.ipos.toNat ≤ 8 ∧
  ((s.busy = true ∧ ∃ bits, s.pos = .emitPush bits) ∨ ∀ j, s.ocnt.toNat ≤ j → s.obuf.getLsbD j = false)

end Sys2Proof.Machine
end

