-- ==== Sys2Proof/Certificates/Slice0/Obligations.lean ====
section
/-! DEFINITION. The statements for the provers, family by family of spec/. A statement about a command that pops or
pushes and says how it ends assumes `eager`, the schedule in which an accepted command runs on by itself (log 2); the
frames and the invariants hold for every schedule. -/
open Sys2Proof Sys2Proof.Machine

/-! ## Encoding (30_encoding.md) -/

/-- The nine command words of R74, written out bit by bit from R72 (RSV = 0 above the opcode). -/
def Obligations.CommandWords : Prop :=
  decodeCmd 0x0000000000000000#64 = .ok .nop ∧ decodeCmd 0x0000000000000001#64 = .ok .clear ∧
  decodeCmd 0x0000000000000010#64 = .ok .encCount ∧ decodeCmd 0x0000000000000011#64 = .ok .encBuild ∧
  decodeCmd 0x0000000000000012#64 = .ok .encHeader ∧ decodeCmd 0x0000000000000013#64 = .ok .encEmit ∧
  decodeCmd 0x0000000000000020#64 = .ok .decHeader ∧ decodeCmd 0x0000000000000021#64 = .ok .decBuild ∧
  decodeCmd 0x0000000000000022#64 = .ok .decPayload

/-- R76: decoding is total, the opcode is tested first, then RSV. -/
def Obligations.DecodeTotal : Prop :=
  ∀ w : Word,
    (w.extractLsb' 0 8 ∉ knownOpcodes → decodeCmd w = .error .illegalOpcode) ∧
    (w.extractLsb' 0 8 ∈ knownOpcodes → w.extractLsb' 8 56 ≠ 0#56 → decodeCmd w = .error .reservedBits) ∧
    (w.extractLsb' 0 8 ∈ knownOpcodes → w.extractLsb' 8 56 = 0#56 →
      ∃ i, decodeCmd w = .ok i ∧ opcodeOf i = w.extractLsb' 0 8)

/-- Decoding and encoding agree: a word decodes to a command exactly when it is that command's word (R72, R74, R76). So
no bit of the word is dropped. -/
def Obligations.DecodeEncodeAgree : Prop :=
  ∀ (w : Word) (i : Instr), decodeCmd w = .ok i ↔ w = encode i

/-! ## Issue and sequencing (40_control.md) -/

/-- A step runs the decoded command: when the host's next action is an 8-byte write to CMD of a word that decodes to
`i`, the step is `exec i` of the state with that action taken from the program. The same for a word placed by
`withFetchWord`: that clause is the model's choice (DESIGN CHOICE, log 1: the host's program is a list in State and
withFetchWord puts a CMD write in front of it; log 15: how `nbits` and the table's numbering of bits are read). -/
def Obligations.StepRunsDecoded : Prop :=
  (∀ (s : State) (rest : List HostAction) (w : Word) (i : Instr),
    s.script = .write Config.cmdOffset 8 w :: rest → decodeCmd w = .ok i →
      step s = exec i (restOfScript rest s)) ∧
  (∀ (s : State) (nbits w : Nat) (i : Instr),
    decodeTableWord nbits w = some i → step (s.withFetchWord nbits w) = exec i s)

/-- R75: a word that is no command's is rejected by name outside ERROR, ignored in ERROR, dropped while BUSY. -/
def Obligations.IllegalWordRejected : Prop :=
  ∀ (w : Word) (s : State), (∀ i, w ≠ encode i) →
    (s.busy = false → s.phase ≠ .error →
      onCmdWrite w s = .next { s with
        errKind := 7#8
        errDetail := if w.extractLsb' 0 8 ∈ knownOpcodes then 2#8 else 1#8
        errInfo := w, phase := .error, busy := false, pos := .idle }) ∧
    (s.busy = false → s.phase = .error → onCmdWrite w s = .next s) ∧
    (s.busy = true → onCmdWrite w s = .next { s with ovr := true })

/-- R97: a CMD write while BUSY = 1 only sets OVR, and OVR stays set until a reset or the ImplicitClear of an accepted
CLEAR, ENC_COUNT or DEC_HEADER. -/
def Obligations.BusyWriteDropped : Prop :=
  (∀ (w : Word) (s : State), s.busy = true → onCmdWrite w s = .next { s with ovr := true }) ∧
  (∀ s t : State, step s = .next t → s.ovr = true → t.ovr = false →
    (∃ rest, s.script = .reset :: rest) ∨
    (s.busy = false ∧ ∃ (i : Instr) (rest : List HostAction),
      (i = .clear ∨ i = .encCount ∨ i = .decHeader) ∧
      s.script = .write Config.cmdOffset 8 (encode i) :: rest))

/-- R103: in ERROR only the words of NOP and CLEAR are executed; any other leaves the whole state as it is. -/
def Obligations.ErrorIgnoresCommands : Prop :=
  ∀ (w : Word) (s : State), s.busy = false → s.phase = .error →
    (w ≠ 0#64 → w ≠ 1#64 → onCmdWrite w s = .next s) ∧
    onCmdWrite 0#64 s = exec .nop s ∧ onCmdWrite 1#64 s = exec .clear s ∧
    (∃ t, exec .nop s = .next t ∧ t.lastOp = 0x00#8 ∧ t.phase = .error ∧ t.busy = false) ∧
    (∃ t, exec .clear s = .next t ∧ t.lastOp = 0x01#8 ∧ t.phase = .idle ∧ t.busy = false)

/-- R104: a command its PHASE does not admit raises Error(CMD, SEQUENCE, w) at issue, with nothing else changed. -/
def Obligations.SequenceError : Prop :=
  ∀ (i : Instr) (s : State), s.busy = false → s.phase ≠ .error → s.phase ∉ admittedPhases i →
    exec i s = .next { s with
      errKind := 7#8, errDetail := 3#8, errInfo := encode i, phase := .error, busy := false, pos := .idle }

/-- R101: Legal is the table's second column, and a command that completes without an error leaves PHASE at the third.
-/
def Obligations.PhaseTable : Prop :=
  (∀ (i : Instr) (p : Phase), legalIn i p = true ↔ p ∈ admittedPhases i) ∧
  (∀ (i : Instr) (s t : State), Ready i s → exec i s = .next t → t.busy = false → t.phase ≠ .error →
    t.phase = phaseAfter s.phase i)

/-- R105, R107: an accepted command runs to its end, or waits for the host, when the schedule lets it run on. What
ties a step of the core to a step of the machine (R107, R239; the actions `core` and `wait` and the end of the script
are the model's schedule, DESIGN CHOICE, log 2, and the faults its report of a stuck run, DEDUCED, log 10): at the end
of the script and at a WAIT, BUSY = 1, the step is the core's step, or the fault that names what it waits for; BUSY =
0 ends the WAIT. The action `core` is the core's step where it has one. -/
def Obligations.RunsUntilHost : Prop :=
  (∀ (i : Instr) (s t : State), Ready i s → s.eager = true → exec i s = .next t →
    t.busy = false ∨ (awaited t = .pop ∧ t.inCh = []) ∨ ∃ b, awaited t = .push b ∧ sinkAnswer t = none) ∧
  (∀ s : State, s.busy = true → (s.script = [] ∨ ∃ rest, s.script = .wait :: rest) →
    (∀ t, coreStep s = some t → step s = .next t) ∧
    (coreStep s = none → awaited s = .pop → step s = .fault .stuckInPop) ∧
    (∀ b, coreStep s = none → awaited s = .push b → step s = .fault .stuckOutPush) ∧
    (coreStep s = none → awaited s = .nothing → step s = .fault .stuckWait)) ∧
  (∀ s : State, s.busy = false →
    (s.script = [] → step s = .next s) ∧
    (∀ rest, s.script = .wait :: rest → step s = .next { s with script := rest })) ∧
  (∀ (s : State) (rest : List HostAction), s.script = .core :: rest →
    (∀ t, coreStep { s with script := rest } = some t → step s = .next t) ∧
    (coreStep { s with script := rest } = none → step s = .next { s with script := rest }))

/-- R108: NOP writes LAST_OP and the transfer counters, in any PHASE, and nothing else. -/
def Obligations.NopCompletes : Prop :=
  ∀ s : State, s.busy = false →
    exec .nop s = .next { s with lastOp := 0x00#8, xferIn := 0#64, xferOut := 0#64, pos := .idle }

/-- R109: CLEAR gives every register its reset value but LAST_OP = 0x01, in any PHASE; the channels and the host keep
what they have. -/
def Obligations.ClearCompletes : Prop :=
  ∀ s : State, s.busy = false →
    exec .clear s = .next { State.reset with
      lastOp := 0x01#8
      inCh := s.inCh, out := s.out, pushes := s.pushes, sinkFaults := s.sinkFaults, sinkQuota := s.sinkQuota
      script := s.script, reads := s.reads, draws := s.draws, eager := s.eager }

/-! ## Reset (70_reset_and_hazards.md, 10_state.md) -/

/-- R225: a hardware reset at any time abandons the running command, gives every register its reset value and leaves
the channels as they are; the core is then idle and accepts a command at once. -/
def Obligations.ResetStep : Prop :=
  ∀ (s : State) (rest : List HostAction), s.script = .reset :: rest →
    ∃ t, step s = .next t ∧
      t = { State.reset with
        inCh := s.inCh, out := s.out, pushes := s.pushes, sinkFaults := s.sinkFaults, sinkQuota := s.sinkQuota
        script := rest, reads := s.reads, draws := s.draws, eager := s.eager } ∧
      t.busy = false ∧ t.phase = .idle ∧ t.errKind = 0#8

/-- R39: the reset values, after hardware reset and after ImplicitClear, which leaves BUSY and LAST_OP alone; ID. -/
def Obligations.ResetValues : Prop :=
  (HoldsResetValues State.reset ∧ State.reset.busy = false ∧ State.reset.lastOp = 0x00#8) ∧
  (∀ s, HoldsResetValues (hardwareReset s) ∧ (hardwareReset s).busy = false ∧ (hardwareReset s).lastOp = 0x00#8) ∧
  (∀ s, HoldsResetValues (implicitClear s) ∧ (implicitClear s).busy = s.busy ∧
    (implicitClear s).lastOp = s.lastOp) ∧
  (∀ s, windowView 0x000 s = 0x0000000146465548#64)

/-! ## Errors (60_exceptions.md) -/

/-- R205, R206: Record writes the three error registers and PHASE and nothing else; raise adds the completion. The codes
are those of R201 and R202. -/
def Obligations.RaiseRecords : Prop :=
  (∀ (c : ErrorCause) (info : Word) (s : State),
    record c info s =
      { s with errKind := errorKind c, errDetail := errorDetail c, errInfo := info, phase := .error } ∧
    raise c info s =
      { s with errKind := errorKind c, errDetail := errorDetail c, errInfo := info, phase := .error
               busy := false, pos := .idle }) ∧
  ([ErrorCause.writeHeader, .writePayload, .writeDecoded, .readCountPass, .readEmitPass, .headerTruncated,
    .headerReadFault, .countRange, .payloadTruncated, .payloadReadFault, .deadEnd, .notAtRoot, .noCodeword,
    .overflowTotal, .overflowPayloadBits, .illegalOpcode, .reservedBits, .sequence, .excessBits,
    .shortBits].map fun c => ((errorKind c).toNat, (errorDetail c).toNat)) =
  [(2, 1), (2, 2), (2, 3), (3, 1), (3, 2), (4, 1), (4, 2), (4, 3), (4, 4), (4, 5), (4, 6), (4, 7), (5, 1),
   (6, 1), (6, 2), (7, 1), (7, 2), (7, 3), (8, 1), (8, 2)]

/-- R207, the spec's own inference ("[derived: from rule R206 and 40_control.md rule R103]"): the first error wins. In
PHASE ERROR, with no command running or only AbortEmit's Close, every step but a reset and an accepted CLEAR keeps
PHASE and the record. -/
def Obligations.ErrorSticky : Prop :=
  ∀ s t : State, s.phase = .error → s.busy = false ∨ s.pos = .abortClose → step s = .next t →
    (t.phase = .error ∧ t.errKind = s.errKind ∧ t.errDetail = s.errDetail ∧ t.errInfo = s.errInfo) ∨
    (∃ rest, s.script = .reset :: rest) ∨
    (s.busy = false ∧ ∃ rest, s.script = .write Config.cmdOffset 8 (encode .clear) :: rest)

/-! ## The MMIO window (20_memory.md) -/

/-- R62: the map of the window, with the view of every register and array, and reserved offsets that read 0. -/
def Obligations.WindowMap : Prop :=
  ∀ s : State,
    windowView 0x000 s = Config.idValue ∧ windowView 0x008 s = 0#64 ∧ windowView 0x010 s = statusWord s ∧
    windowView 0x018 s = errCodeWord s ∧ windowView 0x020 s = s.errInfo ∧ windowView 0x028 s = s.total ∧
    windowView 0x030 s = s.payloadBits ∧ windowView 0x038 s = s.seqN.setWidth 64 ∧
    windowView 0x040 s = s.nodeCount.setWidth 64 ∧ windowView 0x048 s = s.root.setWidth 64 ∧
    windowView 0x050 s = s.statOrig ∧ windowView 0x058 s = s.statPayload ∧ windowView 0x060 s = s.statHeader ∧
    windowView 0x068 s = s.emitBits ∧ windowView 0x070 s = s.bitsLeft ∧ windowView 0x078 s = packWord s ∧
    windowView 0x080 s = unpackWord s ∧ windowView 0x088 s = s.xferIn ∧ windowView 0x090 s = s.xferOut ∧
    (∀ v : Byte, windowView (0x800 + 8 * v.toNat) s = freqAt s v) ∧
    (∀ i, i < 256 → windowView (0x1000 + 8 * i) s = seqCntAt s i ∧
      windowView (0x1800 + 8 * i) s = (seqSymAt s i).setWidth 64) ∧
    (∀ k : NodeId, k.toNat ≤ 510 → windowView (0x2000 + 16 * k.toNat) s = nodeWord0 (nodeAt s k) ∧
      windowView (0x2008 + 16 * k.toNat) s = nodeWord1 (nodeAt s k)) ∧
    (∀ v : Byte, windowView (0x4000 + 8 * v.toNat) s = (codeLenAt s v).setWidth 64) ∧
    (∀ (v : Byte) (w : Nat), w < 4 →
      windowView (0x6000 + 32 * v.toNat + 8 * w) s = (codeBitsAt s v).extractLsb' (64 * w) 64) ∧
    (∀ o, 0x098 ≤ o → o ≤ 0x7F8 → o % 8 = 0 → windowView o s = 0#64) ∧
    (∀ o, 0x3FF0 ≤ o → o ≤ 0x3FF8 → o % 8 = 0 → windowView o s = 0#64) ∧
    (∀ o, 0x4800 ≤ o → o ≤ 0x5FF8 → o % 8 = 0 → windowView o s = 0#64)

/-- R20: the fields of STATUS, bit by bit, with the codes of R19; and the fields of ERR_CODE (R23), of the two words of
an arena entry (R28), of PACK (R32) and of UNPACK (R34). -/
def Obligations.StatusFields : Prop :=
  (∀ s : State,
    (statusWord s).getLsbD 0 = s.busy ∧ (statusWord s).getLsbD 1 = s.empty ∧
    ((statusWord s).getLsbD 2 = true ↔ s.phase = .error) ∧ (statusWord s).getLsbD 3 = s.ovr ∧
    (statusWord s).extractLsb' 4 4 = 0#4 ∧ (statusWord s).extractLsb' 8 4 = phaseCode s.phase ∧
    (statusWord s).extractLsb' 12 4 = 0#4 ∧ (statusWord s).extractLsb' 16 8 = s.lastOp ∧
    (statusWord s).extractLsb' 24 40 = 0#40) ∧
  ([Phase.idle, .counted, .built, .headed, .encDone, .decHeaded, .decBuilt, .decDone, .error].map phaseCode =
    [0#4, 1#4, 2#4, 3#4, 4#4, 5#4, 6#4, 7#4, 15#4]) ∧
  (∀ s : State,
    (errCodeWord s).extractLsb' 0 8 = s.errKind ∧ (errCodeWord s).extractLsb' 8 8 = s.errDetail ∧
    (errCodeWord s).extractLsb' 16 48 = 0#48) ∧
  (∀ n : Node,
    ((nodeWord0 n).extractLsb' 0 2 = match n.type with
      | .unused => 0#2
      | .leaf => 1#2
      | .internal => 2#2) ∧
    (nodeWord0 n).extractLsb' 2 6 = 0#6 ∧ (nodeWord0 n).extractLsb' 8 8 = n.sym ∧
    (nodeWord0 n).extractLsb' 16 9 = n.zero ∧ (nodeWord0 n).extractLsb' 25 7 = 0#7 ∧
    (nodeWord0 n).extractLsb' 32 9 = n.one ∧ (nodeWord0 n).extractLsb' 41 7 = 0#7 ∧
    (nodeWord0 n).extractLsb' 48 8 = n.weight.extractLsb' 64 8 ∧ (nodeWord0 n).extractLsb' 56 8 = 0#8 ∧
    nodeWord1 n = n.weight.extractLsb' 0 64) ∧
  (∀ s : State,
    (packWord s).extractLsb' 0 8 = s.obuf ∧ (packWord s).extractLsb' 8 3 = s.ocnt ∧
    (packWord s).extractLsb' 11 53 = 0#53) ∧
  (∀ s : State,
    (unpackWord s).extractLsb' 0 8 = s.ibuf ∧ (unpackWord s).extractLsb' 8 4 = s.ipos ∧
    (unpackWord s).extractLsb' 12 4 = 0#4 ∧ (unpackWord s).extractLsb' 16 9 = s.cur ∧
    (unpackWord s).extractLsb' 25 39 = 0#39)

/-- R60, R63: a well-formed read hands the host the view of the register and changes nothing of the core; while BUSY = 1
it is exact for ID, STATUS, ERR_CODE and ERR_INFO, a reserved offset reads 0 at all times (R60 subjects only the listed
registers to R63), and any other offset gives some value (a free value: nothing is said of it). -/
def Obligations.ReadsExact : Prop :=
  ∀ (s : State) (offset : Nat) (rest : List HostAction),
    s.script = .read offset 8 :: rest → offset % 8 = 0 → offset < 0x8000 →
    ((s.busy = false ∨ offset ∈ [0x000, 0x010, 0x018, 0x020]) →
      step s = .next { s with
        script := rest, reads := s.reads ++ [{ offset := offset, value := windowView offset s }] }) ∧
    ((0x098 ≤ offset ∧ offset ≤ 0x7F8 ∨ 0x3FF0 ≤ offset ∧ offset ≤ 0x3FF8 ∨ 0x4800 ≤ offset ∧ offset ≤ 0x5FF8) →
      step s = .next { s with script := rest, reads := s.reads ++ [{ offset := offset, value := 0#64 }] }) ∧
    (∃ v d, step s = .next { s with
        script := rest, reads := s.reads ++ [{ offset := offset, value := v }], draws := d })

/-- R61, R64: a well-formed write to CMD presents the word to the command decoder; to any other offset it is ignored; an
access, read or write, that is not 8 bytes wide, not aligned or not below 0x8000 is refused. -/
def Obligations.WindowAccesses : Prop :=
  (∀ (s : State) (offset : Nat) (w : Word) (rest : List HostAction),
    s.script = .write offset 8 w :: rest → offset % 8 = 0 → offset < 0x8000 →
    (offset = 0x008 → step s = onCmdWrite w (restOfScript rest s)) ∧
    (offset ≠ 0x008 → step s = .next { s with script := rest })) ∧
  (∀ (s : State) (offset size : Nat) (w : Word) (rest : List HostAction),
    size ≠ 8 ∨ offset % 8 ≠ 0 ∨ 0x8000 ≤ offset →
    (s.script = .read offset size :: rest → step s = .refused (.badAccess offset size)) ∧
    (s.script = .write offset size w :: rest → step s = .refused (.badAccess offset size)))

/-! ## The frequency table (42_frequency.md) -/

/-- R125: ENC_COUNT of a file that is there whole counts every byte, takes its End and completes; every register it does
not write holds its reset value. -/
def Obligations.EncCountCounts : Prop :=
  ∀ (s : State) (bytes : List Byte) (rest : List InElem),
    Ready .encCount s → s.eager = true → s.inCh = fileOf bytes ++ .endOfFile :: rest → bytes.length < 2 ^ 64 →
    ∃ t, exec .encCount s = .next t ∧
      t = { State.reset with
        lastOp := 0x10#8, phase := .counted
        total := BitVec.ofNat 64 bytes.length, xferIn := BitVec.ofNat 64 bytes.length, freq := t.freq
        inCh := rest, out := s.out, pushes := s.pushes, sinkFaults := s.sinkFaults, sinkQuota := s.sinkQuota
        script := s.script, reads := s.reads, draws := s.draws, eager := s.eager } ∧
      ∀ v, freqAt t v = BitVec.ofNat 64 (bytes.count v)

/-- R125, R126, R202: a Fault in the first scan raises Error(READ, COUNT_PASS, bytes counted) and what was counted
stays (R205, R206: raising an error undoes no write); at TOTAL = 2^64 - 1 one more Byte is popped, not counted, and
raises Error(OVERFLOW, TOTAL, 0). -/
def Obligations.EncCountErrors : Prop :=
  (∀ (s : State) (bytes : List Byte) (rest : List InElem),
    Ready .encCount s → s.eager = true → s.inCh = fileOf bytes ++ .fault :: rest → bytes.length < 2 ^ 64 →
    ∃ t, exec .encCount s = .next t ∧ t.phase = .error ∧ t.errKind = 3#8 ∧ t.errDetail = 1#8 ∧
      t.errInfo = BitVec.ofNat 64 bytes.length ∧ t.busy = false ∧ t.inCh = rest ∧
      t.total = BitVec.ofNat 64 bytes.length ∧ ∀ v, freqAt t v = BitVec.ofNat 64 (bytes.count v)) ∧
  (∀ (s : State) (v : Byte) (rest : List InElem),
    s.busy = true → s.pos = .countPop → s.total.toNat = 2 ^ 64 - 1 → s.inCh = .byte v :: rest →
    ∃ t, coreStep s = some t ∧ t.phase = .error ∧ t.errKind = 6#8 ∧ t.errDetail = 1#8 ∧ t.errInfo = 0#64 ∧
      t.busy = false ∧ t.inCh = rest ∧ t.total = s.total ∧ t.freq = s.freq)

/-- R123, the spec's own inference ("[derived: from rule R125]"): TOTAL is the sum of the counters and bounds each, and
equals XFER_IN while ENC_COUNT runs; every step of the machine keeps this. -/
def Obligations.CountInvStep : Prop :=
  ∀ s t : State, CountInv s → step s = .next t → CountInv t

/-- R128: FreqSequence lists the byte values that occur, ascending, each once, with its count; later entries stay as
they were, and so does the frequency table. -/
def Obligations.FreqSequenceLists : Prop :=
  ∀ s : State,
    (freqSequence s).seqN.toNat = distinctValues s ∧
    (∀ i, i < distinctValues s →
      seqCntAt (freqSequence s) i = freqAt s (seqSymAt (freqSequence s) i) ∧ seqCntAt (freqSequence s) i ≠ 0#64) ∧
    (∀ i j, i < j → j < distinctValues s → seqSymAt (freqSequence s) i < seqSymAt (freqSequence s) j) ∧
    (∀ v, freqAt s v ≠ 0#64 → ∃ i, i < distinctValues s ∧ seqSymAt (freqSequence s) i = v) ∧
    (∀ i, distinctValues s ≤ i → seqSymAt (freqSequence s) i = seqSymAt s i ∧
      seqCntAt (freqSequence s) i = seqCntAt s i) ∧
    (freqSequence s).freq = s.freq ∧ (freqSequence s).total = s.total

/-! ## The tree and the code table (43_tree.md) -/

/-- R131: the extracted candidate is one of the candidates and none has a smaller key; keys are never equal, so it is
the only one. R135, step 3: of the nodes that are candidates when internal node `k` is made, its zero-child has the
lowest key and its one-child the next lowest. -/
def Obligations.MergeTakesLowest : Prop :=
  (∀ (a : Arena) (k : Nat) (js : List Nat),
    lowestFrom a k js ∈ k :: js ∧ (∀ j ∈ k :: js, keyLt a j (lowestFrom a k js) = false) ∧
    (∀ i j, i ≠ j → keyLt a i j = true ∨ keyLt a j i = true) ∧
    (∀ i j, keyLt a i j = true ↔ (arenaAt a i).weight < (arenaAt a j).weight ∨
      ((arenaAt a i).weight = (arenaAt a j).weight ∧ i < j))) ∧
  (∀ (s : State) (n k : Nat), 2 ≤ n → n ≤ 256 → n ≤ k → k < 2 * n - 1 →
    CandidateAt (buildTree n s).node n k (arenaAt (buildTree n s).node k).zero.toNat ∧
    CandidateAt (buildTree n s).node n k (arenaAt (buildTree n s).node k).one.toNat ∧
    keyLt (buildTree n s).node (arenaAt (buildTree n s).node k).zero.toNat
      (arenaAt (buildTree n s).node k).one.toNat = true ∧
    ∀ c, CandidateAt (buildTree n s).node n k c → c ≠ (arenaAt (buildTree n s).node k).zero.toNat →
      c ≠ (arenaAt (buildTree n s).node k).one.toNat →
      keyLt (buildTree n s).node (arenaAt (buildTree n s).node k).one.toNat c = true)

/-- R136, the spec's own inference ("[derived: from rule R135]"): with n entries, 2 to 256, the leaves are nodes 0 to
n-1, the internal nodes n to 2n-2, and the last of them is the root. -/
def Obligations.BuildTreeCounts : Prop :=
  ∀ (s : State) (n : Nat), 2 ≤ n → n ≤ 256 →
    (buildTree n s).nodeCount.toNat = 2 * n - 1 ∧ (buildTree n s).root.toNat = 2 * n - 2 ∧
    (∀ k, k < n → arenaAt (buildTree n s).node k =
      { type := .leaf, sym := seqSymAt s k, zero := 0x1FF#9, one := 0x1FF#9
        weight := (seqCntAt s k).setWidth 72 }) ∧
    (∀ k, n ≤ k → k < 2 * n - 1 → (arenaAt (buildTree n s).node k).type = .internal) ∧
    (∀ k, 2 * n - 1 ≤ k → arenaAt (buildTree n s).node k = arenaAt s.node k)

/-- R137: the single-symbol tree, and its one codeword "0". -/
def Obligations.SingleSymbolTree : Prop :=
  ∀ s : State,
    (buildTree 1 s).root = 1#9 ∧ (buildTree 1 s).nodeCount = 2#10 ∧
    nodeAt (buildTree 1 s) 0#9 =
      { type := .leaf, sym := seqSymAt s 0, zero := 0x1FF#9, one := 0x1FF#9
        weight := (seqCntAt s 0).setWidth 72 } ∧
    nodeAt (buildTree 1 s) 1#9 =
      { type := .internal, sym := 0#8, zero := 0#9, one := 0x1FF#9, weight := (seqCntAt s 0).setWidth 72 } ∧
    lookupCode (buildTable (buildTree 1 s)) (seqSymAt s 0) = some [false]

/-- R139, the spec's own inference ("[derived: from rules R135 to R137]"): for n entries, 2 to 256, both children of
every internal node exist and have smaller ids, and every node but the root is the child of exactly one internal node:
a full binary tree with no sharing and no cycle. -/
def Obligations.TreeShape : Prop :=
  ∀ (s : State) (n : Nat), 2 ≤ n → n ≤ 256 →
    (∀ k, n ≤ k → k < 2 * n - 1 →
      (arenaAt (buildTree n s).node k).zero.toNat < k ∧ (arenaAt (buildTree n s).node k).one.toNat < k ∧
      (arenaAt (buildTree n s).node k).zero ≠ (arenaAt (buildTree n s).node k).one) ∧
    (∀ c, c < 2 * n - 2 → ∃ k, n ≤ k ∧ k < 2 * n - 1 ∧ ParentOf (buildTree n s) k c ∧
      ∀ k', k' < 2 * n - 1 → ParentOf (buildTree n s) k' c → k' = k)

/-- R133: weights are exact: an internal node's is the sum of its children's, with nothing lost in 72 bits. -/
def Obligations.WeightsExact : Prop :=
  ∀ (s : State) (n : Nat), 2 ≤ n → n ≤ 256 →
    (∀ k, k < n → (arenaAt (buildTree n s).node k).weight.toNat = (seqCntAt s k).toNat) ∧
    (∀ k, n ≤ k → k < 2 * n - 1 →
      (arenaAt (buildTree n s).node k).weight.toNat =
        (arenaAt (buildTree n s).node (arenaAt (buildTree n s).node k).zero.toNat).weight.toNat +
        (arenaAt (buildTree n s).node (arenaAt (buildTree n s).node k).one.toNat).weight.toNat)

/-- R130: the tree depends on the frequency sequence and on nothing else of the state. -/
def Obligations.TreeAgreement : Prop :=
  ∀ (s s' : State) (n : Nat), 1 ≤ n → n ≤ 256 →
    (∀ i, i < n → seqSymAt s i = seqSymAt s' i ∧ seqCntAt s i = seqCntAt s' i) →
    (buildTree n s).root = (buildTree n s').root ∧ (buildTree n s).nodeCount = (buildTree n s').nodeCount ∧
    ∀ k, k < (buildTree n s).nodeCount.toNat →
      arenaAt (buildTree n s).node k = arenaAt (buildTree n s').node k

/-- R140: one traversal step. -/
def Obligations.GoStep : Prop :=
  ∀ (s : State) (k : NodeId) (bit : Bool),
    ((nodeAt s k).type ≠ .internal → go s k bit = none) ∧
    ((nodeAt s k).type = .internal → (if bit then (nodeAt s k).one else (nodeAt s k).zero) = 0x1FF#9 →
      go s k bit = none) ∧
    ((nodeAt s k).type = .internal → (if bit then (nodeAt s k).one else (nodeAt s k).zero) ≠ 0x1FF#9 →
      go s k bit = some (if bit then (nodeAt s k).one else (nodeAt s k).zero))

/-- R142, R143 and the spec's own inferences R145 and R146 ("[derived: ...]") for the bounds on the length: after the
tree and the table are built, every codeword the table gives is the path from ROOT to a leaf that holds the value, and
every value some leaf holds has one; a value no leaf holds has none. -/
def Obligations.TableIsPaths : Prop :=
  ∀ (s : State) (n : Nat), 1 ≤ n → n ≤ 256 →
    (∀ v p, lookupCode (buildTable (buildTree n s)) v = some p →
      LeadsTo (buildTable (buildTree n s)) p v ∧ 1 ≤ p.length ∧ p.length ≤ 255) ∧
    (∀ v, lookupCode (buildTable (buildTree n s)) v ≠ none ↔ ∃ i, i < n ∧ seqSymAt s i = v)

/-- R144, the spec's own inference ("[derived: from rule R139 and rule R143]"): no codeword of a derived table is a
prefix of another's. -/
def Obligations.PrefixFree : Prop :=
  ∀ (s : State) (n : Nat) (v w : Byte) (p q : List Bool), 1 ≤ n → n ≤ 256 →
    lookupCode (buildTable (buildTree n s)) v = some p → lookupCode (buildTable (buildTree n s)) w = some q →
    v ≠ w → ¬ p <+: q

/-! ## The encoder (44_encoder.md) -/

/-- R154: the encoder's three commands on an empty input file: nothing is built and nothing is pushed. -/
def Obligations.EmptyEncode : Prop :=
  (∀ s : State, Ready .encBuild s → (∀ v, freqAt s v = 0#64) →
    exec .encBuild s = .next { s with
      lastOp := 0x11#8, xferIn := 0#64, xferOut := 0#64, seqN := 0#9, statOrig := s.total, empty := true
      payloadBits := 0#64, phase := .built, pos := .idle }) ∧
  (∀ s : State, Ready .encHeader s → s.empty = true →
    exec .encHeader s = .next { s with
      lastOp := 0x12#8, xferIn := 0#64, xferOut := 0#64, statHeader := 0#64, phase := .headed, pos := .idle }) ∧
  (∀ (s : State) (rest : List InElem), Ready .encEmit s → s.eager = true → s.payloadBits = 0#64 →
    s.inCh = .endOfFile :: rest →
    exec .encEmit s = .next { s with
      lastOp := 0x13#8, xferIn := 0#64, xferOut := 0#64, obuf := 0#8, ocnt := 0#3, emitBits := 0#64
      statPayload := 0#64, phase := .encDone, inCh := rest, pos := .idle })

/-- R151, R152: ENC_BUILD of a table with some count, whose payload bit length fits 64 bits, builds the tree and the
code table, records the exact payload bit length and the original size, and completes in BUILT. -/
def Obligations.EncBuildCompletes : Prop :=
  ∀ s : State, Ready .encBuild s → (∃ v, freqAt s v ≠ 0#64) →
    codedLength (buildTable (buildTree (distinctValues s) (freqSequence s))) < 2 ^ 64 →
    ∃ t, exec .encBuild s = .next t ∧ t.phase = .built ∧ t.busy = false ∧ t.lastOp = 0x11#8 ∧
      t.statOrig = s.total ∧ t.empty = s.empty ∧ t.payloadBits.toNat = codedLength t ∧
      t.seqN.toNat = distinctValues s ∧
      t.seqSym = (freqSequence s).seqSym ∧ t.seqCnt = (freqSequence s).seqCnt ∧
      t.node = (buildTree (distinctValues s) (freqSequence s)).node ∧
      t.root = (buildTree (distinctValues s) (freqSequence s)).root ∧
      t.nodeCount = (buildTree (distinctValues s) (freqSequence s)).nodeCount ∧
      (∀ v, lookupCode t v = lookupCode (buildTable (buildTree (distinctValues s) (freqSequence s))) v)

/-- R147, the spec's own inference ("[derived: from 42_frequency.md rule R128 and rules R135 and R143]"): after
ENC_BUILD with at least one entry, exactly the values that occur have a codeword. -/
def Obligations.TableComplete : Prop :=
  ∀ s t : State, Ready .encBuild s → exec .encBuild s = .next t → 1 ≤ t.seqN.toNat →
    ∀ v, codeLenAt t v ≠ 0#8 ↔ freqAt t v ≠ 0#64

/-- R151, R152: ENC_BUILD's only error is Error(OVERFLOW, PAYLOAD_BITS, 0), raised exactly when the payload bit length
does not fit 64 bits; the sequence, the tree and the table stay as built and PAYLOAD_BITS as it was. -/
def Obligations.EncBuildOverflow : Prop :=
  ∀ (s u : State), Ready .encBuild s → u = buildTable (buildTree (distinctValues s) (freqSequence s)) →
    (2 ^ 64 ≤ codedLength u →
      exec .encBuild s = .next { s with
        lastOp := 0x11#8, xferIn := 0#64, xferOut := 0#64, statOrig := s.total
        seqN := u.seqN, seqSym := u.seqSym, seqCnt := u.seqCnt
        node := u.node, root := u.root, nodeCount := u.nodeCount, codeLen := u.codeLen, codeBits := u.codeBits
        errKind := 6#8, errDetail := 2#8, errInfo := 0#64, phase := .error, pos := .idle }) ∧
    (∀ t, exec .encBuild s = .next t → t.phase = .error → 2 ^ 64 ≤ codedLength u)

/-- R157, R77: the header's bytes, field by field at their file offsets. -/
def Obligations.HeaderLayout : Prop :=
  ∀ s : State,
    (headerBytes s).length = 16 + 9 * s.seqN.toNat ∧
    fromLE64 ((headerBytes s).take 8) = s.payloadBits ∧
    bytesToNat (((headerBytes s).drop 8).take 8) = s.seqN.toNat ∧
    (∀ i, i < s.seqN.toNat →
      (headerBytes s)[16 + 9 * i]? = some (seqSymAt s i) ∧
      fromLE64 (((headerBytes s).drop (17 + 9 * i)).take 8) = seqCntAt s i)

/-- R156: ENC_HEADER of a non-empty file, every push answered Ok, pushes the whole header and completes in HEADED. -/
def Obligations.EncHeaderPushes : Prop :=
  ∀ s : State, Ready .encHeader s → s.empty = false → s.eager = true → SinkTakesAll s →
    exec .encHeader s = .next { s with
      lastOp := 0x12#8, xferIn := 0#64, xferOut := BitVec.ofNat 64 (16 + 9 * s.seqN.toNat)
      out := s.out ++ headerImage s.payloadBits (entriesOf s)
      pushes := s.pushes + (16 + 9 * s.seqN.toNat)
      statHeader := BitVec.ofNat 64 (16 + 9 * s.seqN.toNat), phase := .headed, pos := .idle }

/-- R156, R202: the sink refuses header byte `k`: Error(WRITE, HEADER, k), with the first `k` bytes taken and nothing
after them pushed. -/
def Obligations.EncHeaderSinkFault : Prop :=
  ∀ (s : State) (k : Nat), Ready .encHeader s → s.empty = false → s.eager = true → s.sinkQuota = none →
    k < 16 + 9 * s.seqN.toNat → s.pushes + k ∈ s.sinkFaults → (∀ j, j < k → s.pushes + j ∉ s.sinkFaults) →
    exec .encHeader s = .next { s with
      lastOp := 0x12#8, xferIn := 0#64, xferOut := BitVec.ofNat 64 k
      out := s.out ++ (headerImage s.payloadBits (entriesOf s)).take k, pushes := s.pushes + k + 1
      errKind := 2#8, errDetail := 1#8, errInfo := BitVec.ofNat 64 k, phase := .error, pos := .idle }

/-- R158, R81, R52: ENC_EMIT of a second scan whose bytes all have codewords and whose code length is PAYLOAD_BITS,
every push answered Ok, pushes the codewords packed least significant bit first and completes in ENC_DONE. -/
def Obligations.EncEmitPacks : Prop :=
  ∀ (s : State) (bytes : List Byte) (rest : List InElem),
    Ready .encEmit s → s.eager = true → SinkTakesAll s → s.inCh = fileOf bytes ++ .endOfFile :: rest →
    (∀ b ∈ bytes, lookupCode s b ≠ none) → s.payloadBits.toNat = (codewordsOf s bytes).length →
    exec .encEmit s = .next { s with
      lastOp := 0x13#8, xferIn := BitVec.ofNat 64 bytes.length
      xferOut := BitVec.ofNat 64 (bytesFor s.payloadBits.toNat)
      obuf := 0#8, ocnt := 0#3, emitBits := s.payloadBits
      out := s.out ++ packBits (codewordsOf s bytes), pushes := s.pushes + bytesFor s.payloadBits.toNat
      statPayload := BitVec.ofNat 64 (bytesFor s.payloadBits.toNat), phase := .encDone, inCh := rest, pos := .idle }

/-- R158, R160: an error of the second scan records itself, writes no bit of the byte, flushes the partial byte if there
is one, whatever the sink answers, and completes. -/
def Obligations.EncEmitAborts : Prop :=
  ∀ (s : State) (e : InElem) (rest : List InElem) (kind detail : Byte) (info : Word),
    s.busy = true → s.pos = .emitPop → s.inCh = e :: rest → AbortCause s e kind detail info →
    ∃ t, coreStep s = some t ∧ t.phase = .error ∧ t.errKind = kind ∧ t.errDetail = detail ∧ t.errInfo = info ∧
      t.inCh = rest ∧ t.out = s.out ∧ t.emitBits = s.emitBits ∧
      (s.ocnt = 0#3 → t.busy = false) ∧
      (s.ocnt ≠ 0#3 → t.busy = true ∧ awaited t = .push s.obuf ∧
        ∀ r, sinkAnswer t = some r → ∃ u, coreStep t = some u ∧ u.busy = false ∧ u.obuf = 0#8 ∧ u.ocnt = 0#3 ∧
          u.phase = .error ∧ u.errKind = kind ∧ u.errDetail = detail ∧ u.errInfo = info ∧
          u.out = match r with
            | .ok => s.out ++ [s.obuf]
            | .fault => s.out)

/-- R158, R116: at End a partial byte is offered first; with none left, too few bits are Error(MISMATCH, SHORT_BITS,
EMIT_BITS). The closing byte answered Ok is taken, and then too few bits are that same error and the right number
completes in ENC_DONE with STAT_PAYLOAD. A refused byte, full or closing, is Error(WRITE, PAYLOAD, XFER_OUT) with no
further push. -/
def Obligations.EncEmitEnds : Prop :=
  (∀ (s : State) (rest : List InElem), s.busy = true → s.pos = .emitPop → s.inCh = .endOfFile :: rest →
    s.ocnt ≠ 0#3 → ∃ t, coreStep s = some t ∧ awaited t = .push s.obuf ∧ t.pos = .emitClose ∧ t.phase = s.phase ∧
      t.emitBits = s.emitBits ∧ t.payloadBits = s.payloadBits ∧ t.ocnt = s.ocnt ∧ t.inCh = rest) ∧
  (∀ (s : State) (rest : List InElem), s.busy = true → s.pos = .emitPop → s.inCh = .endOfFile :: rest →
    s.ocnt = 0#3 → s.emitBits ≠ s.payloadBits →
    coreStep s = some { s with
      inCh := rest, errKind := 8#8, errDetail := 2#8, errInfo := s.emitBits, phase := .error
      busy := false, pos := .idle }) ∧
  (∀ s : State, s.busy = true → s.pos = .emitClose → sinkAnswer s = some .ok →
    ∃ t, coreStep s = some t ∧ t.out = s.out ++ [s.obuf] ∧ t.xferOut = countTransfer s.xferOut s.draws ∧
      t.obuf = 0#8 ∧ t.ocnt = 0#3 ∧ t.emitBits = s.emitBits ∧ t.busy = false ∧
      (s.emitBits ≠ s.payloadBits → t.phase = .error ∧ t.errKind = 8#8 ∧ t.errDetail = 2#8 ∧
        t.errInfo = s.emitBits ∧ t.statPayload = s.statPayload) ∧
      (s.emitBits = s.payloadBits → t.phase = .encDone ∧ t.statPayload = t.xferOut)) ∧
  (∀ s : State, s.busy = true → (s.pos = .emitClose ∨ ∃ bits, s.pos = .emitPush bits) →
    sinkAnswer s = some .fault →
    ∃ t, coreStep s = some t ∧ t.phase = .error ∧ t.errKind = 2#8 ∧ t.errDetail = 2#8 ∧ t.errInfo = s.xferOut ∧
      t.busy = false ∧ t.obuf = 0#8 ∧ t.ocnt = 0#3 ∧ t.out = s.out ∧ t.xferOut = s.xferOut)

/-! ## The decoder (45_decoder.md) -/

/-- R171: the decoder's three commands on an empty compressed file. -/
def Obligations.EmptyDecode : Prop :=
  (∀ (s : State) (rest : List InElem), Ready .decHeader s → s.eager = true → s.inCh = .endOfFile :: rest →
    exec .decHeader s = .next { State.reset with
      lastOp := 0x20#8, empty := true, phase := .decHeaded
      inCh := rest, out := s.out, pushes := s.pushes, sinkFaults := s.sinkFaults, sinkQuota := s.sinkQuota
      script := s.script, reads := s.reads, draws := s.draws, eager := s.eager }) ∧
  (∀ s : State, Ready .decBuild s → s.empty = true →
    exec .decBuild s = .next { s with
      lastOp := 0x21#8, xferIn := 0#64, xferOut := 0#64, phase := .decBuilt, pos := .idle }) ∧
  (∀ s : State, Ready .decPayload s → s.empty = true →
    exec .decPayload s = .next { s with
      lastOp := 0x22#8, xferIn := 0#64, xferOut := 0#64, statOrig := 0#64, statPayload := 0#64
      phase := .decDone, pos := .idle })

/-- R177, the spec's own inference ("[derived: from rule R176]"): DEC_HEADER of a header with 1 to 256 entries takes
exactly its bytes, holds its fields as stored and completes in DEC_HEADED; every register it does not write holds its
reset value. -/
def Obligations.DecHeaderParses : Prop :=
  ∀ (s : State) (bitLength : Word) (entries : List (Byte × Word)) (rest : List InElem),
    Ready .decHeader s → s.eager = true → 1 ≤ entries.length → entries.length ≤ 256 →
    s.inCh = fileOf (headerImage bitLength entries) ++ rest →
    ∃ t, exec .decHeader s = .next t ∧
      t = { State.reset with
        lastOp := 0x20#8, phase := .decHeaded, payloadBits := bitLength, seqN := BitVec.ofNat 9 entries.length
        seqSym := t.seqSym, seqCnt := t.seqCnt
        statHeader := BitVec.ofNat 64 (16 + 9 * entries.length)
        xferIn := BitVec.ofNat 64 (16 + 9 * entries.length)
        inCh := rest, out := s.out, pushes := s.pushes, sinkFaults := s.sinkFaults, sinkQuota := s.sinkQuota
        script := s.script, reads := s.reads, draws := s.draws, eager := s.eager } ∧
      (∀ i (e : Byte × Word), entries[i]? = some e → seqSymAt t i = e.1 ∧ seqCntAt t i = e.2) ∧
      (∀ i, entries.length ≤ i → seqSymAt t i = 0#8 ∧ seqCntAt t i = 0#64)

/-- R172, R176: End after 1 header byte or more, but not all of them, is Error(INVALID, HEADER_TRUNCATED, their
number), a Fault before the header is complete is Error(INVALID, HEADER_READ_FAULT, their number). Every field that
was complete is held (R174): PAYLOAD_BITS with its eight bytes; SEQ_N with its own, and each entry with its nine; the
others are 0. -/
def Obligations.DecHeaderCutShort : Prop :=
  (∀ (s : State) (bytes : List Byte) (e : InElem) (rest : List InElem),
    Ready .decHeader s → s.eager = true → bytes.length ≤ 15 → s.inCh = fileOf bytes ++ e :: rest →
    (e = .endOfFile ∧ 1 ≤ bytes.length ∨ e = .fault) →
    ∃ t, exec .decHeader s = .next t ∧ t.phase = .error ∧ t.errKind = 4#8 ∧
      t.errDetail = (if e = .endOfFile then 1#8 else 2#8) ∧ t.errInfo = BitVec.ofNat 64 bytes.length ∧
      t.xferIn = BitVec.ofNat 64 bytes.length ∧ t.busy = false ∧ t.inCh = rest ∧ t.seqN = 0#9 ∧
      t.payloadBits = (if 8 ≤ bytes.length then fromLE64 (bytes.take 8) else 0#64) ∧
      ∀ i, seqSymAt t i = 0#8 ∧ seqCntAt t i = 0#64) ∧
  (∀ (s : State) (bitLength : Word) (entries : List (Byte × Word)) (m : Nat) (e : InElem) (rest : List InElem),
    Ready .decHeader s → s.eager = true → 1 ≤ entries.length → entries.length ≤ 256 →
    16 ≤ m → m < 16 + 9 * entries.length →
    s.inCh = fileOf ((headerImage bitLength entries).take m) ++ e :: rest → (e = .endOfFile ∨ e = .fault) →
    ∃ t, exec .decHeader s = .next t ∧ t.phase = .error ∧ t.errKind = 4#8 ∧
      t.errDetail = (if e = .endOfFile then 1#8 else 2#8) ∧ t.errInfo = BitVec.ofNat 64 m ∧
      t.xferIn = BitVec.ofNat 64 m ∧ t.busy = false ∧ t.inCh = rest ∧ t.payloadBits = bitLength ∧
      t.seqN = BitVec.ofNat 9 entries.length ∧ t.statHeader = 0#64 ∧
      (∀ i (x : Byte × Word), entries[i]? = some x → 16 + 9 * (i + 1) ≤ m →
        seqSymAt t i = x.1 ∧ seqCntAt t i = x.2) ∧
      (∀ i, m < 16 + 9 * (i + 1) → seqSymAt t i = 0#8 ∧ seqCntAt t i = 0#64))

/-- R168: a frequency_count of 0 or above 256 is Error(INVALID, COUNT_RANGE, N), before any entry is read. -/
def Obligations.DecHeaderCountRange : Prop :=
  ∀ (s : State) (bitLength count : Word) (rest : List InElem),
    Ready .decHeader s → s.eager = true → (count.toNat = 0 ∨ 256 < count.toNat) →
    s.inCh = fileOf (le64 bitLength ++ le64 count) ++ rest →
    ∃ t, exec .decHeader s = .next t ∧ t.phase = .error ∧ t.errKind = 4#8 ∧ t.errDetail = 3#8 ∧
      t.errInfo = count ∧ t.busy = false ∧ t.inCh = rest ∧ t.payloadBits = bitLength ∧ t.seqN = 0#9

/-- R179: DEC_BUILD rebuilds the tree of a non-empty file, builds no code table and writes nothing else. -/
def Obligations.DecBuildCompletes : Prop :=
  ∀ s : State, Ready .decBuild s → s.empty = false →
    exec .decBuild s = .next { s with
      lastOp := 0x21#8, xferIn := 0#64, xferOut := 0#64, phase := .decBuilt, pos := .idle
      node := (buildTree s.seqN.toNat s).node, root := (buildTree s.seqN.toNat s).root
      nodeCount := (buildTree s.seqN.toNat s).nodeCount }

/-- R181, R183, R187: DEC_PAYLOAD of a payload whose first PAYLOAD_BITS bits are a sequence of root-to-leaf paths of the
tree, whatever the padding bits of its last byte, every push answered Ok, pushes the leaves' values in order, takes
exactly the payload's bytes and completes in DEC_DONE at ROOT. How many bytes it takes and what the statistics hold are
the spec's own inferences (R120 "[derived: from rule R118]", R185 "[derived: from rule R181]"). -/
def Obligations.DecPayloadDecodes : Prop :=
  ∀ (s : State) (steps : List (List Bool × Byte)) (payload : List Byte) (rest : List InElem),
    Ready .decPayload s → s.empty = false → s.eager = true → SinkTakesAll s →
    (∀ w ∈ steps, w.1 ≠ [] ∧ LeadsTo s w.1 w.2) →
    s.payloadBits.toNat = (steps.flatMap Prod.fst).length →
    payload.length = bytesFor s.payloadBits.toNat →
    (∀ j b, (steps.flatMap Prod.fst)[j]? = some b → payload[j / 8]?.map (fun v => v.getLsbD (j % 8)) = some b) →
    s.inCh = fileOf payload ++ rest →
    ∃ t, exec .decPayload s = .next t ∧
      t = { s with
        lastOp := 0x22#8, xferIn := BitVec.ofNat 64 (bytesFor s.payloadBits.toNat)
        xferOut := BitVec.ofNat 64 steps.length
        ibuf := t.ibuf, ipos := t.ipos, cur := s.root, bitsLeft := 0#64
        out := s.out ++ steps.map Prod.snd, pushes := s.pushes + steps.length
        statOrig := BitVec.ofNat 64 steps.length
        statPayload := BitVec.ofNat 64 (bytesFor s.payloadBits.toNat)
        phase := .decDone, inCh := rest, pos := .idle }

/-- R118, R202: End inside the declared payload is Error(INVALID, PAYLOAD_TRUNCATED, XFER_IN), a Fault is Error(INVALID,
PAYLOAD_READ_FAULT, XFER_IN); a refused decoded byte is Error(WRITE, DECODED, XFER_OUT) with CUR left as it was. -/
def Obligations.DecPayloadChannelErrors : Prop :=
  (∀ (s : State) (e : InElem) (rest : List InElem), s.busy = true → s.pos = .payloadPop → s.inCh = e :: rest →
    e = .endOfFile ∨ e = .fault →
    coreStep s = some { s with
      inCh := rest, errKind := 4#8, errDetail := (if e = .endOfFile then 4#8 else 5#8), errInfo := s.xferIn
      phase := .error, busy := false, pos := .idle }) ∧
  (∀ (s : State) (sym : Byte), s.busy = true → s.pos = .payloadPush sym → sinkAnswer s = some .fault →
    ∃ t, coreStep s = some t ∧ t.phase = .error ∧ t.errKind = 2#8 ∧ t.errDetail = 3#8 ∧ t.errInfo = s.xferOut ∧
      t.busy = false ∧ t.out = s.out ∧ t.cur = s.cur ∧ t.bitsLeft = s.bitsLeft)

/-- R183, R184, R186: the bit that has no child is Error(INVALID, DEAD_END, its index) with BITS_LEFT still counting it,
the first bit of a byte just popped or any later one of IBUF; a bit that leads to an INTERNAL node moves CUR there and
the walk goes on with the next bit; a declared length that ends away from ROOT is Error(INVALID, NOT_AT_ROOT, CUR). The
walk goes on so after a popped byte and, from ROOT, after a decoded byte that the sink took. -/
def Obligations.DecPayloadPathErrors : Prop :=
  (∀ (s : State) (v : Byte) (rest : List InElem), s.busy = true → s.pos = .payloadPop → s.inCh = .byte v :: rest →
    s.bitsLeft ≠ 0#64 → go s s.cur (v.getLsbD 0) = none →
    ∃ t, coreStep s = some t ∧ t.phase = .error ∧ t.errKind = 4#8 ∧ t.errDetail = 6#8 ∧
      t.errInfo = s.payloadBits - s.bitsLeft ∧ t.busy = false ∧ t.bitsLeft = s.bitsLeft ∧ t.cur = s.cur ∧
      t.inCh = rest ∧ t.ibuf = v ∧ t.ipos = 1#4) ∧
  (∀ (s : State) (b : Bool) (bits : List Bool), s.bitsLeft ≠ 0#64 → unreadBits s = b :: bits → go s s.cur b = none →
    payloadResume s = { s with
      ipos := s.ipos + 1, errKind := 4#8, errDetail := 6#8, errInfo := s.payloadBits - s.bitsLeft
      phase := .error, busy := false, pos := .idle }) ∧
  (∀ (s : State) (b : Bool) (bits : List Bool) (c : NodeId), s.bitsLeft ≠ 0#64 → unreadBits s = b :: bits →
    go s s.cur b = some c → (nodeAt s c).type ≠ .leaf →
    payloadResume s = payloadResume { s with ipos := s.ipos + 1, bitsLeft := s.bitsLeft - 1, cur := c }) ∧
  (∀ s : State, s.bitsLeft = 0#64 → s.cur ≠ s.root →
    payloadResume s = { s with
      errKind := 4#8, errDetail := 7#8, errInfo := s.cur.setWidth 64, phase := .error, busy := false, pos := .idle }) ∧
  (∀ (s : State) (v : Byte) (rest : List InElem), s.busy = true → s.pos = .payloadPop → s.inCh = .byte v :: rest →
    coreStep s = some (payloadResume { popIn (.byte v) rest s with ibuf := v, ipos := 0#4 })) ∧
  (∀ (s : State) (sym : Byte), s.busy = true → s.pos = .payloadPush sym → sinkAnswer s = some .ok →
    coreStep s = some (payloadResume { pushOut sym .ok s with cur := s.root }))

/-- R165, the spec's own inference: a file that the four encoder commands compress, every push answered Ok, is what the
three decoder commands push when IN holds the bytes that OUT received. -/
def Obligations.RoundTrip : Prop :=
  ∀ (s a b : State) (bytes : List Byte) (rest : List InElem),
    Ready .encCount s → s.eager = true → SinkTakesAll s → bytes.length < 2 ^ 64 →
    s.inCh = fileOf bytes ++ .endOfFile :: (fileOf bytes ++ .endOfFile :: rest) →
    exec .encCount s = .next a → exec .encBuild a = .next b → b.phase = .built →
    ∃ c d image, exec .encHeader b = .next c ∧ exec .encEmit c = .next d ∧ d.phase = .encDone ∧ d.inCh = rest ∧
      d.out = s.out ++ image ∧
      ∀ (u : State) (rest' : List InElem), Ready .decHeader u → u.eager = true → SinkTakesAll u →
        u.inCh = fileOf image ++ .endOfFile :: rest' →
        ∃ e f g, exec .decHeader u = .next e ∧ exec .decBuild e = .next f ∧ exec .decPayload f = .next g ∧
          g.phase = .decDone ∧ g.out = u.out ++ bytes ∧ g.statOrig = BitVec.ofNat 64 bytes.length

/-! ## What each command leaves alone -/

/-- ENC_COUNT and DEC_HEADER: not accepted, they change at most OVR and the error record; accepted, every register
they do not write is as ImplicitClear leaves it, and OUT and the host are untouched (42_frequency.md R125,
45_decoder.md R176). -/
def Obligations.FrameStarting : Prop :=
  (∀ s t : State, exec .encCount s = .next t →
    t = { s with
      busy := t.busy, ovr := t.ovr, phase := t.phase, errKind := t.errKind, errDetail := t.errDetail
      errInfo := t.errInfo, pos := t.pos } ∨
    t = { implicitClear s with
      busy := t.busy, lastOp := 0x10#8, phase := t.phase, errKind := t.errKind, errDetail := t.errDetail
      errInfo := t.errInfo, pos := t.pos, total := t.total, freq := t.freq, xferIn := t.xferIn, inCh := t.inCh
      draws := t.draws }) ∧
  (∀ s t : State, exec .decHeader s = .next t →
    t = { s with
      busy := t.busy, ovr := t.ovr, phase := t.phase, errKind := t.errKind, errDetail := t.errDetail
      errInfo := t.errInfo, pos := t.pos } ∨
    t = { implicitClear s with
      busy := t.busy, lastOp := 0x20#8, phase := t.phase, errKind := t.errKind, errDetail := t.errDetail
      errInfo := t.errInfo, pos := t.pos, empty := t.empty, payloadBits := t.payloadBits, seqN := t.seqN
      seqSym := t.seqSym, seqCnt := t.seqCnt, statHeader := t.statHeader, xferIn := t.xferIn, inCh := t.inCh
      draws := t.draws })

/-- ENC_BUILD and DEC_BUILD write only the registers their rules name and touch no channel (44_encoder.md R151,
45_decoder.md R179). -/
def Obligations.FrameBuilds : Prop :=
  (∀ s t : State, exec .encBuild s = .next t →
    t = { s with
      busy := t.busy, ovr := t.ovr, lastOp := t.lastOp, xferIn := t.xferIn, xferOut := t.xferOut, phase := t.phase
      errKind := t.errKind, errDetail := t.errDetail, errInfo := t.errInfo, pos := t.pos
      seqN := t.seqN, seqSym := t.seqSym, seqCnt := t.seqCnt, statOrig := t.statOrig, node := t.node
      root := t.root, nodeCount := t.nodeCount, codeLen := t.codeLen, codeBits := t.codeBits
      payloadBits := t.payloadBits, empty := t.empty }) ∧
  (∀ s t : State, exec .decBuild s = .next t →
    t = { s with
      busy := t.busy, ovr := t.ovr, lastOp := t.lastOp, xferIn := t.xferIn, xferOut := t.xferOut, phase := t.phase
      errKind := t.errKind, errDetail := t.errDetail, errInfo := t.errInfo, pos := t.pos
      node := t.node, root := t.root, nodeCount := t.nodeCount })

/-- ENC_HEADER writes the transfer counters, STAT_HEADER, PHASE and the error record, pushes to OUT, and leaves the
tables, the tree, the bitstream registers and IN alone (44_encoder.md R156). -/
def Obligations.FrameEncHeader : Prop :=
  ∀ s t : State, exec .encHeader s = .next t →
    t = { s with
      busy := t.busy, ovr := t.ovr, lastOp := t.lastOp, xferIn := t.xferIn, xferOut := t.xferOut, phase := t.phase
      errKind := t.errKind, errDetail := t.errDetail, errInfo := t.errInfo, pos := t.pos
      statHeader := t.statHeader, out := t.out, pushes := t.pushes, sinkQuota := t.sinkQuota, draws := t.draws }

/-- ENC_EMIT writes the packer, the transfer counters, STAT_PAYLOAD, PHASE and the error record, pops IN and pushes OUT,
and leaves the tables, the tree and the unpacker alone (44_encoder.md R158). -/
def Obligations.FrameEncEmit : Prop :=
  ∀ s t : State, exec .encEmit s = .next t →
    t = { s with
      busy := t.busy, ovr := t.ovr, lastOp := t.lastOp, xferIn := t.xferIn, xferOut := t.xferOut, phase := t.phase
      errKind := t.errKind, errDetail := t.errDetail, errInfo := t.errInfo, pos := t.pos
      obuf := t.obuf, ocnt := t.ocnt, emitBits := t.emitBits, statPayload := t.statPayload
      inCh := t.inCh, out := t.out, pushes := t.pushes, sinkQuota := t.sinkQuota, draws := t.draws }

/-- DEC_PAYLOAD writes the unpacker, CUR, BITS_LEFT, the transfer counters, two statistics, PHASE and the error record,
pops IN and pushes OUT, and leaves the tree, the header's fields and the packer alone (45_decoder.md R181). -/
def Obligations.FrameDecPayload : Prop :=
  ∀ s t : State, exec .decPayload s = .next t →
    t = { s with
      busy := t.busy, ovr := t.ovr, lastOp := t.lastOp, xferIn := t.xferIn, xferOut := t.xferOut, phase := t.phase
      errKind := t.errKind, errDetail := t.errDetail, errInfo := t.errInfo, pos := t.pos
      ibuf := t.ibuf, ipos := t.ipos, cur := t.cur, bitsLeft := t.bitsLeft
      statOrig := t.statOrig, statPayload := t.statPayload
      inCh := t.inCh, out := t.out, pushes := t.pushes, sinkQuota := t.sinkQuota, draws := t.draws }

/-! ## Invariants of every step -/

/-- R38, the spec's own inference, extended to BUSY = 1: SEQ_N, NODE_COUNT and ROOT always fit one of the three cases,
and before a build there is no tree. -/
def Obligations.TreeInvStep : Prop :=
  ∀ s t : State, TreeInv s → step s = .next t → TreeInv t

/-- Every step keeps: BUSY = 1 exactly while a program is at an interaction point (R98, R99); the error record is 0
outside ERROR and never 0 in it, where only AbortEmit's Close still runs (R23, R24; R207, the spec's own inference);
IPOS is at most 8 and the unused bits of OBUF are 0 (R34, R114; R38, the spec's own inference), but for a full byte
whose push waits, which OBUF holds until it is answered. The interaction points, and that exception, are the model's
form of the hidden position of R37 (DEDUCED, log 16). -/
def Obligations.RegisterInvStep : Prop :=
  ∀ s t : State, step s = .next t →
    (BusyInv s → BusyInv t) ∧ (ErrorInv s → ErrorInv t) ∧ (BufferInv s → BufferInv t)

/-- Every invariant holds right after reset (R39). -/
def Obligations.InvariantsAtReset : Prop :=
  BusyInv State.reset ∧ CountInv State.reset ∧ TreeInv State.reset ∧ ErrorInv State.reset ∧ BufferInv State.reset
end

