-- ==== Sys2Proof/Laws/State.lean ====
section
/-! SUPPORT. One lemma per field per update of the state, so that no later proof unfolds a record update. -/
namespace Sys2Proof.Machine

/-! ### Arrays -/

theorem bankAt_bankSet {α : Type} {n : Nat} (b : Bank α n) (i j : Nat) (x d : α) :
    bankAt (bankSet b i x) j d = if i = j ∧ i < n then x else bankAt b j d := by
  have hs := b.size
  simp only [bankAt, bankSet, List.getElem?_set, hs]
  by_cases h : i = j
  · subst h
    by_cases h' : i < n
    · simp [h']
    · simp [h', List.getElem?_eq_none (by omega : b.entries.length ≤ i)]
  · simp [h]

@[simp] theorem bankAt_bankSet_same {α : Type} {n : Nat} (b : Bank α n) (i : Nat) (x d : α) (h : i < n) :
    bankAt (bankSet b i x) i d = x := by simp [bankAt_bankSet, h]

theorem bankAt_bankSet_other {α : Type} {n : Nat} (b : Bank α n) {i j : Nat} (x d : α) (h : i ≠ j) :
    bankAt (bankSet b i x) j d = bankAt b j d := by simp [bankAt_bankSet, h]

theorem bankAt_fill {α : Type} (n i : Nat) (x d : α) : bankAt (Bank.fill n x) i d = if i < n then x else d := by
  simp only [bankAt, Bank.fill, List.getElem?_replicate]
  split <;> simp

@[simp] theorem bankAt_fill_same {α : Type} (n i : Nat) (x : α) : bankAt (Bank.fill n x) i x = x := by
  rw [bankAt_fill]; split <;> rfl

/-- Two arrays that read the same everywhere are the same. -/
theorem bank_ext {α : Type} {n : Nat} {a b : Bank α n} (d : α) (h : ∀ i < n, bankAt a i d = bankAt b i d) :
    a = b := by
  obtain ⟨xs, hx⟩ := a
  obtain ⟨ys, hy⟩ := b
  have : xs = ys := by
    apply List.ext_getElem (by omega)
    intro i hi hj
    have := h i (by omega)
    simpa [bankAt, hi, hj] using this
  subst this; rfl

theorem freqAt_setFreq (s : State) (v w : Byte) (x : Word) :
    freqAt (setFreq v x s) w = if v = w then x else freqAt s w := by
  have hv : v.toNat < 256 := v.isLt
  simp only [freqAt, setFreq, bankAt_bankSet]
  by_cases h : v = w
  · subst h; simp [hv]
  · simp [h, BitVec.toNat_inj.not.mpr h]

variable (s : State)

/-! ### setFreq -/

@[simp] theorem setFreq_phase (v : Byte) (x : Word) : (setFreq v x s).phase = s.phase := rfl
@[simp] theorem setFreq_busy (v : Byte) (x : Word) : (setFreq v x s).busy = s.busy := rfl
@[simp] theorem setFreq_empty (v : Byte) (x : Word) : (setFreq v x s).empty = s.empty := rfl
@[simp] theorem setFreq_ovr (v : Byte) (x : Word) : (setFreq v x s).ovr = s.ovr := rfl
@[simp] theorem setFreq_lastOp (v : Byte) (x : Word) : (setFreq v x s).lastOp = s.lastOp := rfl
@[simp] theorem setFreq_errKind (v : Byte) (x : Word) : (setFreq v x s).errKind = s.errKind := rfl
@[simp] theorem setFreq_errDetail (v : Byte) (x : Word) : (setFreq v x s).errDetail = s.errDetail := rfl
@[simp] theorem setFreq_errInfo (v : Byte) (x : Word) : (setFreq v x s).errInfo = s.errInfo := rfl
@[simp] theorem setFreq_total (v : Byte) (x : Word) : (setFreq v x s).total = s.total := rfl
@[simp] theorem setFreq_freq (v : Byte) (x : Word) : (setFreq v x s).freq = bankSet s.freq v.toNat x := rfl
@[simp] theorem setFreq_seqN (v : Byte) (x : Word) : (setFreq v x s).seqN = s.seqN := rfl
@[simp] theorem setFreq_seqSym (v : Byte) (x : Word) : (setFreq v x s).seqSym = s.seqSym := rfl
@[simp] theorem setFreq_seqCnt (v : Byte) (x : Word) : (setFreq v x s).seqCnt = s.seqCnt := rfl
@[simp] theorem setFreq_node (v : Byte) (x : Word) : (setFreq v x s).node = s.node := rfl
@[simp] theorem setFreq_root (v : Byte) (x : Word) : (setFreq v x s).root = s.root := rfl
@[simp] theorem setFreq_nodeCount (v : Byte) (x : Word) : (setFreq v x s).nodeCount = s.nodeCount := rfl
@[simp] theorem setFreq_codeLen (v : Byte) (x : Word) : (setFreq v x s).codeLen = s.codeLen := rfl
@[simp] theorem setFreq_codeBits (v : Byte) (x : Word) : (setFreq v x s).codeBits = s.codeBits := rfl
@[simp] theorem setFreq_payloadBits (v : Byte) (x : Word) : (setFreq v x s).payloadBits = s.payloadBits := rfl
@[simp] theorem setFreq_emitBits (v : Byte) (x : Word) : (setFreq v x s).emitBits = s.emitBits := rfl
@[simp] theorem setFreq_obuf (v : Byte) (x : Word) : (setFreq v x s).obuf = s.obuf := rfl
@[simp] theorem setFreq_ocnt (v : Byte) (x : Word) : (setFreq v x s).ocnt = s.ocnt := rfl
@[simp] theorem setFreq_statOrig (v : Byte) (x : Word) : (setFreq v x s).statOrig = s.statOrig := rfl
@[simp] theorem setFreq_statPayload (v : Byte) (x : Word) : (setFreq v x s).statPayload = s.statPayload := rfl
@[simp] theorem setFreq_statHeader (v : Byte) (x : Word) : (setFreq v x s).statHeader = s.statHeader := rfl
@[simp] theorem setFreq_ibuf (v : Byte) (x : Word) : (setFreq v x s).ibuf = s.ibuf := rfl
@[simp] theorem setFreq_ipos (v : Byte) (x : Word) : (setFreq v x s).ipos = s.ipos := rfl
@[simp] theorem setFreq_cur (v : Byte) (x : Word) : (setFreq v x s).cur = s.cur := rfl
@[simp] theorem setFreq_bitsLeft (v : Byte) (x : Word) : (setFreq v x s).bitsLeft = s.bitsLeft := rfl
@[simp] theorem setFreq_xferIn (v : Byte) (x : Word) : (setFreq v x s).xferIn = s.xferIn := rfl
@[simp] theorem setFreq_xferOut (v : Byte) (x : Word) : (setFreq v x s).xferOut = s.xferOut := rfl
@[simp] theorem setFreq_pos (v : Byte) (x : Word) : (setFreq v x s).pos = s.pos := rfl
@[simp] theorem setFreq_inCh (v : Byte) (x : Word) : (setFreq v x s).inCh = s.inCh := rfl
@[simp] theorem setFreq_out (v : Byte) (x : Word) : (setFreq v x s).out = s.out := rfl
@[simp] theorem setFreq_pushes (v : Byte) (x : Word) : (setFreq v x s).pushes = s.pushes := rfl
@[simp] theorem setFreq_sinkFaults (v : Byte) (x : Word) : (setFreq v x s).sinkFaults = s.sinkFaults := rfl
@[simp] theorem setFreq_sinkQuota (v : Byte) (x : Word) : (setFreq v x s).sinkQuota = s.sinkQuota := rfl
@[simp] theorem setFreq_script (v : Byte) (x : Word) : (setFreq v x s).script = s.script := rfl
@[simp] theorem setFreq_reads (v : Byte) (x : Word) : (setFreq v x s).reads = s.reads := rfl
@[simp] theorem setFreq_draws (v : Byte) (x : Word) : (setFreq v x s).draws = s.draws := rfl
@[simp] theorem setFreq_eager (v : Byte) (x : Word) : (setFreq v x s).eager = s.eager := rfl

/-! ### setSeqEntry -/

@[simp] theorem setSeqEntry_phase (i : Nat) (v : Byte) (c : Word) : (setSeqEntry i v c s).phase = s.phase := rfl
@[simp] theorem setSeqEntry_busy (i : Nat) (v : Byte) (c : Word) : (setSeqEntry i v c s).busy = s.busy := rfl
@[simp] theorem setSeqEntry_empty (i : Nat) (v : Byte) (c : Word) : (setSeqEntry i v c s).empty = s.empty := rfl
@[simp] theorem setSeqEntry_ovr (i : Nat) (v : Byte) (c : Word) : (setSeqEntry i v c s).ovr = s.ovr := rfl
@[simp] theorem setSeqEntry_lastOp (i : Nat) (v : Byte) (c : Word) : (setSeqEntry i v c s).lastOp = s.lastOp := rfl
@[simp] theorem setSeqEntry_errKind (i : Nat) (v : Byte) (c : Word) : (setSeqEntry i v c s).errKind = s.errKind := rfl
@[simp] theorem setSeqEntry_errDetail (i : Nat) (v : Byte) (c : Word) :
    (setSeqEntry i v c s).errDetail = s.errDetail := rfl
@[simp] theorem setSeqEntry_errInfo (i : Nat) (v : Byte) (c : Word) : (setSeqEntry i v c s).errInfo = s.errInfo := rfl
@[simp] theorem setSeqEntry_total (i : Nat) (v : Byte) (c : Word) : (setSeqEntry i v c s).total = s.total := rfl
@[simp] theorem setSeqEntry_freq (i : Nat) (v : Byte) (c : Word) : (setSeqEntry i v c s).freq = s.freq := rfl
@[simp] theorem setSeqEntry_seqN (i : Nat) (v : Byte) (c : Word) : (setSeqEntry i v c s).seqN = s.seqN := rfl
@[simp] theorem setSeqEntry_seqSym (i : Nat) (v : Byte) (c : Word) :
    (setSeqEntry i v c s).seqSym = bankSet s.seqSym i v := rfl
@[simp] theorem setSeqEntry_seqCnt (i : Nat) (v : Byte) (c : Word) :
    (setSeqEntry i v c s).seqCnt = bankSet s.seqCnt i c := rfl
@[simp] theorem setSeqEntry_node (i : Nat) (v : Byte) (c : Word) : (setSeqEntry i v c s).node = s.node := rfl
@[simp] theorem setSeqEntry_root (i : Nat) (v : Byte) (c : Word) : (setSeqEntry i v c s).root = s.root := rfl
@[simp] theorem setSeqEntry_nodeCount (i : Nat) (v : Byte) (c : Word) :
    (setSeqEntry i v c s).nodeCount = s.nodeCount := rfl
@[simp] theorem setSeqEntry_codeLen (i : Nat) (v : Byte) (c : Word) : (setSeqEntry i v c s).codeLen = s.codeLen := rfl
@[simp] theorem setSeqEntry_codeBits (i : Nat) (v : Byte) (c : Word) :
    (setSeqEntry i v c s).codeBits = s.codeBits := rfl
@[simp] theorem setSeqEntry_payloadBits (i : Nat) (v : Byte) (c : Word) :
    (setSeqEntry i v c s).payloadBits = s.payloadBits := rfl
@[simp] theorem setSeqEntry_emitBits (i : Nat) (v : Byte) (c : Word) :
    (setSeqEntry i v c s).emitBits = s.emitBits := rfl
@[simp] theorem setSeqEntry_obuf (i : Nat) (v : Byte) (c : Word) : (setSeqEntry i v c s).obuf = s.obuf := rfl
@[simp] theorem setSeqEntry_ocnt (i : Nat) (v : Byte) (c : Word) : (setSeqEntry i v c s).ocnt = s.ocnt := rfl
@[simp] theorem setSeqEntry_statOrig (i : Nat) (v : Byte) (c : Word) :
    (setSeqEntry i v c s).statOrig = s.statOrig := rfl
@[simp] theorem setSeqEntry_statPayload (i : Nat) (v : Byte) (c : Word) :
    (setSeqEntry i v c s).statPayload = s.statPayload := rfl
@[simp] theorem setSeqEntry_statHeader (i : Nat) (v : Byte) (c : Word) :
    (setSeqEntry i v c s).statHeader = s.statHeader := rfl
@[simp] theorem setSeqEntry_ibuf (i : Nat) (v : Byte) (c : Word) : (setSeqEntry i v c s).ibuf = s.ibuf := rfl
@[simp] theorem setSeqEntry_ipos (i : Nat) (v : Byte) (c : Word) : (setSeqEntry i v c s).ipos = s.ipos := rfl
@[simp] theorem setSeqEntry_cur (i : Nat) (v : Byte) (c : Word) : (setSeqEntry i v c s).cur = s.cur := rfl
@[simp] theorem setSeqEntry_bitsLeft (i : Nat) (v : Byte) (c : Word) :
    (setSeqEntry i v c s).bitsLeft = s.bitsLeft := rfl
@[simp] theorem setSeqEntry_xferIn (i : Nat) (v : Byte) (c : Word) : (setSeqEntry i v c s).xferIn = s.xferIn := rfl
@[simp] theorem setSeqEntry_xferOut (i : Nat) (v : Byte) (c : Word) : (setSeqEntry i v c s).xferOut = s.xferOut := rfl
@[simp] theorem setSeqEntry_pos (i : Nat) (v : Byte) (c : Word) : (setSeqEntry i v c s).pos = s.pos := rfl
@[simp] theorem setSeqEntry_inCh (i : Nat) (v : Byte) (c : Word) : (setSeqEntry i v c s).inCh = s.inCh := rfl
@[simp] theorem setSeqEntry_out (i : Nat) (v : Byte) (c : Word) : (setSeqEntry i v c s).out = s.out := rfl
@[simp] theorem setSeqEntry_pushes (i : Nat) (v : Byte) (c : Word) : (setSeqEntry i v c s).pushes = s.pushes := rfl
@[simp] theorem setSeqEntry_sinkFaults (i : Nat) (v : Byte) (c : Word) :
    (setSeqEntry i v c s).sinkFaults = s.sinkFaults := rfl
@[simp] theorem setSeqEntry_sinkQuota (i : Nat) (v : Byte) (c : Word) :
    (setSeqEntry i v c s).sinkQuota = s.sinkQuota := rfl
@[simp] theorem setSeqEntry_script (i : Nat) (v : Byte) (c : Word) : (setSeqEntry i v c s).script = s.script := rfl
@[simp] theorem setSeqEntry_reads (i : Nat) (v : Byte) (c : Word) : (setSeqEntry i v c s).reads = s.reads := rfl
@[simp] theorem setSeqEntry_draws (i : Nat) (v : Byte) (c : Word) : (setSeqEntry i v c s).draws = s.draws := rfl
@[simp] theorem setSeqEntry_eager (i : Nat) (v : Byte) (c : Word) : (setSeqEntry i v c s).eager = s.eager := rfl

/-! ### complete -/

@[simp] theorem complete_phase : (complete s).phase = s.phase := rfl
@[simp] theorem complete_busy : (complete s).busy = false := rfl
@[simp] theorem complete_empty : (complete s).empty = s.empty := rfl
@[simp] theorem complete_ovr : (complete s).ovr = s.ovr := rfl
@[simp] theorem complete_lastOp : (complete s).lastOp = s.lastOp := rfl
@[simp] theorem complete_errKind : (complete s).errKind = s.errKind := rfl
@[simp] theorem complete_errDetail : (complete s).errDetail = s.errDetail := rfl
@[simp] theorem complete_errInfo : (complete s).errInfo = s.errInfo := rfl
@[simp] theorem complete_total : (complete s).total = s.total := rfl
@[simp] theorem complete_freq : (complete s).freq = s.freq := rfl
@[simp] theorem complete_seqN : (complete s).seqN = s.seqN := rfl
@[simp] theorem complete_seqSym : (complete s).seqSym = s.seqSym := rfl
@[simp] theorem complete_seqCnt : (complete s).seqCnt = s.seqCnt := rfl
@[simp] theorem complete_node : (complete s).node = s.node := rfl
@[simp] theorem complete_root : (complete s).root = s.root := rfl
@[simp] theorem complete_nodeCount : (complete s).nodeCount = s.nodeCount := rfl
@[simp] theorem complete_codeLen : (complete s).codeLen = s.codeLen := rfl
@[simp] theorem complete_codeBits : (complete s).codeBits = s.codeBits := rfl
@[simp] theorem complete_payloadBits : (complete s).payloadBits = s.payloadBits := rfl
@[simp] theorem complete_emitBits : (complete s).emitBits = s.emitBits := rfl
@[simp] theorem complete_obuf : (complete s).obuf = s.obuf := rfl
@[simp] theorem complete_ocnt : (complete s).ocnt = s.ocnt := rfl
@[simp] theorem complete_statOrig : (complete s).statOrig = s.statOrig := rfl
@[simp] theorem complete_statPayload : (complete s).statPayload = s.statPayload := rfl
@[simp] theorem complete_statHeader : (complete s).statHeader = s.statHeader := rfl
@[simp] theorem complete_ibuf : (complete s).ibuf = s.ibuf := rfl
@[simp] theorem complete_ipos : (complete s).ipos = s.ipos := rfl
@[simp] theorem complete_cur : (complete s).cur = s.cur := rfl
@[simp] theorem complete_bitsLeft : (complete s).bitsLeft = s.bitsLeft := rfl
@[simp] theorem complete_xferIn : (complete s).xferIn = s.xferIn := rfl
@[simp] theorem complete_xferOut : (complete s).xferOut = s.xferOut := rfl
@[simp] theorem complete_pos : (complete s).pos = .idle := rfl
@[simp] theorem complete_inCh : (complete s).inCh = s.inCh := rfl
@[simp] theorem complete_out : (complete s).out = s.out := rfl
@[simp] theorem complete_pushes : (complete s).pushes = s.pushes := rfl
@[simp] theorem complete_sinkFaults : (complete s).sinkFaults = s.sinkFaults := rfl
@[simp] theorem complete_sinkQuota : (complete s).sinkQuota = s.sinkQuota := rfl
@[simp] theorem complete_script : (complete s).script = s.script := rfl
@[simp] theorem complete_reads : (complete s).reads = s.reads := rfl
@[simp] theorem complete_draws : (complete s).draws = s.draws := rfl
@[simp] theorem complete_eager : (complete s).eager = s.eager := rfl

/-! ### completeIn -/

@[simp] theorem completeIn_phase (p : Phase) : (completeIn p s).phase = p := rfl
@[simp] theorem completeIn_busy (p : Phase) : (completeIn p s).busy = false := rfl
@[simp] theorem completeIn_empty (p : Phase) : (completeIn p s).empty = s.empty := rfl
@[simp] theorem completeIn_ovr (p : Phase) : (completeIn p s).ovr = s.ovr := rfl
@[simp] theorem completeIn_lastOp (p : Phase) : (completeIn p s).lastOp = s.lastOp := rfl
@[simp] theorem completeIn_errKind (p : Phase) : (completeIn p s).errKind = s.errKind := rfl
@[simp] theorem completeIn_errDetail (p : Phase) : (completeIn p s).errDetail = s.errDetail := rfl
@[simp] theorem completeIn_errInfo (p : Phase) : (completeIn p s).errInfo = s.errInfo := rfl
@[simp] theorem completeIn_total (p : Phase) : (completeIn p s).total = s.total := rfl
@[simp] theorem completeIn_freq (p : Phase) : (completeIn p s).freq = s.freq := rfl
@[simp] theorem completeIn_seqN (p : Phase) : (completeIn p s).seqN = s.seqN := rfl
@[simp] theorem completeIn_seqSym (p : Phase) : (completeIn p s).seqSym = s.seqSym := rfl
@[simp] theorem completeIn_seqCnt (p : Phase) : (completeIn p s).seqCnt = s.seqCnt := rfl
@[simp] theorem completeIn_node (p : Phase) : (completeIn p s).node = s.node := rfl
@[simp] theorem completeIn_root (p : Phase) : (completeIn p s).root = s.root := rfl
@[simp] theorem completeIn_nodeCount (p : Phase) : (completeIn p s).nodeCount = s.nodeCount := rfl
@[simp] theorem completeIn_codeLen (p : Phase) : (completeIn p s).codeLen = s.codeLen := rfl
@[simp] theorem completeIn_codeBits (p : Phase) : (completeIn p s).codeBits = s.codeBits := rfl
@[simp] theorem completeIn_payloadBits (p : Phase) : (completeIn p s).payloadBits = s.payloadBits := rfl
@[simp] theorem completeIn_emitBits (p : Phase) : (completeIn p s).emitBits = s.emitBits := rfl
@[simp] theorem completeIn_obuf (p : Phase) : (completeIn p s).obuf = s.obuf := rfl
@[simp] theorem completeIn_ocnt (p : Phase) : (completeIn p s).ocnt = s.ocnt := rfl
@[simp] theorem completeIn_statOrig (p : Phase) : (completeIn p s).statOrig = s.statOrig := rfl
@[simp] theorem completeIn_statPayload (p : Phase) : (completeIn p s).statPayload = s.statPayload := rfl
@[simp] theorem completeIn_statHeader (p : Phase) : (completeIn p s).statHeader = s.statHeader := rfl
@[simp] theorem completeIn_ibuf (p : Phase) : (completeIn p s).ibuf = s.ibuf := rfl
@[simp] theorem completeIn_ipos (p : Phase) : (completeIn p s).ipos = s.ipos := rfl
@[simp] theorem completeIn_cur (p : Phase) : (completeIn p s).cur = s.cur := rfl
@[simp] theorem completeIn_bitsLeft (p : Phase) : (completeIn p s).bitsLeft = s.bitsLeft := rfl
@[simp] theorem completeIn_xferIn (p : Phase) : (completeIn p s).xferIn = s.xferIn := rfl
@[simp] theorem completeIn_xferOut (p : Phase) : (completeIn p s).xferOut = s.xferOut := rfl
@[simp] theorem completeIn_pos (p : Phase) : (completeIn p s).pos = .idle := rfl
@[simp] theorem completeIn_inCh (p : Phase) : (completeIn p s).inCh = s.inCh := rfl
@[simp] theorem completeIn_out (p : Phase) : (completeIn p s).out = s.out := rfl
@[simp] theorem completeIn_pushes (p : Phase) : (completeIn p s).pushes = s.pushes := rfl
@[simp] theorem completeIn_sinkFaults (p : Phase) : (completeIn p s).sinkFaults = s.sinkFaults := rfl
@[simp] theorem completeIn_sinkQuota (p : Phase) : (completeIn p s).sinkQuota = s.sinkQuota := rfl
@[simp] theorem completeIn_script (p : Phase) : (completeIn p s).script = s.script := rfl
@[simp] theorem completeIn_reads (p : Phase) : (completeIn p s).reads = s.reads := rfl
@[simp] theorem completeIn_draws (p : Phase) : (completeIn p s).draws = s.draws := rfl
@[simp] theorem completeIn_eager (p : Phase) : (completeIn p s).eager = s.eager := rfl

/-! ### waitAt -/

@[simp] theorem waitAt_phase (p : Position) : (waitAt p s).phase = s.phase := rfl
@[simp] theorem waitAt_busy (p : Position) : (waitAt p s).busy = s.busy := rfl
@[simp] theorem waitAt_empty (p : Position) : (waitAt p s).empty = s.empty := rfl
@[simp] theorem waitAt_ovr (p : Position) : (waitAt p s).ovr = s.ovr := rfl
@[simp] theorem waitAt_lastOp (p : Position) : (waitAt p s).lastOp = s.lastOp := rfl
@[simp] theorem waitAt_errKind (p : Position) : (waitAt p s).errKind = s.errKind := rfl
@[simp] theorem waitAt_errDetail (p : Position) : (waitAt p s).errDetail = s.errDetail := rfl
@[simp] theorem waitAt_errInfo (p : Position) : (waitAt p s).errInfo = s.errInfo := rfl
@[simp] theorem waitAt_total (p : Position) : (waitAt p s).total = s.total := rfl
@[simp] theorem waitAt_freq (p : Position) : (waitAt p s).freq = s.freq := rfl
@[simp] theorem waitAt_seqN (p : Position) : (waitAt p s).seqN = s.seqN := rfl
@[simp] theorem waitAt_seqSym (p : Position) : (waitAt p s).seqSym = s.seqSym := rfl
@[simp] theorem waitAt_seqCnt (p : Position) : (waitAt p s).seqCnt = s.seqCnt := rfl
@[simp] theorem waitAt_node (p : Position) : (waitAt p s).node = s.node := rfl
@[simp] theorem waitAt_root (p : Position) : (waitAt p s).root = s.root := rfl
@[simp] theorem waitAt_nodeCount (p : Position) : (waitAt p s).nodeCount = s.nodeCount := rfl
@[simp] theorem waitAt_codeLen (p : Position) : (waitAt p s).codeLen = s.codeLen := rfl
@[simp] theorem waitAt_codeBits (p : Position) : (waitAt p s).codeBits = s.codeBits := rfl
@[simp] theorem waitAt_payloadBits (p : Position) : (waitAt p s).payloadBits = s.payloadBits := rfl
@[simp] theorem waitAt_emitBits (p : Position) : (waitAt p s).emitBits = s.emitBits := rfl
@[simp] theorem waitAt_obuf (p : Position) : (waitAt p s).obuf = s.obuf := rfl
@[simp] theorem waitAt_ocnt (p : Position) : (waitAt p s).ocnt = s.ocnt := rfl
@[simp] theorem waitAt_statOrig (p : Position) : (waitAt p s).statOrig = s.statOrig := rfl
@[simp] theorem waitAt_statPayload (p : Position) : (waitAt p s).statPayload = s.statPayload := rfl
@[simp] theorem waitAt_statHeader (p : Position) : (waitAt p s).statHeader = s.statHeader := rfl
@[simp] theorem waitAt_ibuf (p : Position) : (waitAt p s).ibuf = s.ibuf := rfl
@[simp] theorem waitAt_ipos (p : Position) : (waitAt p s).ipos = s.ipos := rfl
@[simp] theorem waitAt_cur (p : Position) : (waitAt p s).cur = s.cur := rfl
@[simp] theorem waitAt_bitsLeft (p : Position) : (waitAt p s).bitsLeft = s.bitsLeft := rfl
@[simp] theorem waitAt_xferIn (p : Position) : (waitAt p s).xferIn = s.xferIn := rfl
@[simp] theorem waitAt_xferOut (p : Position) : (waitAt p s).xferOut = s.xferOut := rfl
@[simp] theorem waitAt_pos (p : Position) : (waitAt p s).pos = p := rfl
@[simp] theorem waitAt_inCh (p : Position) : (waitAt p s).inCh = s.inCh := rfl
@[simp] theorem waitAt_out (p : Position) : (waitAt p s).out = s.out := rfl
@[simp] theorem waitAt_pushes (p : Position) : (waitAt p s).pushes = s.pushes := rfl
@[simp] theorem waitAt_sinkFaults (p : Position) : (waitAt p s).sinkFaults = s.sinkFaults := rfl
@[simp] theorem waitAt_sinkQuota (p : Position) : (waitAt p s).sinkQuota = s.sinkQuota := rfl
@[simp] theorem waitAt_script (p : Position) : (waitAt p s).script = s.script := rfl
@[simp] theorem waitAt_reads (p : Position) : (waitAt p s).reads = s.reads := rfl
@[simp] theorem waitAt_draws (p : Position) : (waitAt p s).draws = s.draws := rfl
@[simp] theorem waitAt_eager (p : Position) : (waitAt p s).eager = s.eager := rfl

/-! ### record -/

@[simp] theorem record_phase (c : ErrorCause) (info : Word) : (record c info s).phase = .error := rfl
@[simp] theorem record_busy (c : ErrorCause) (info : Word) : (record c info s).busy = s.busy := rfl
@[simp] theorem record_empty (c : ErrorCause) (info : Word) : (record c info s).empty = s.empty := rfl
@[simp] theorem record_ovr (c : ErrorCause) (info : Word) : (record c info s).ovr = s.ovr := rfl
@[simp] theorem record_lastOp (c : ErrorCause) (info : Word) : (record c info s).lastOp = s.lastOp := rfl
@[simp] theorem record_errKind (c : ErrorCause) (info : Word) : (record c info s).errKind = errorKind c := rfl
@[simp] theorem record_errDetail (c : ErrorCause) (info : Word) : (record c info s).errDetail = errorDetail c := rfl
@[simp] theorem record_errInfo (c : ErrorCause) (info : Word) : (record c info s).errInfo = info := rfl
@[simp] theorem record_total (c : ErrorCause) (info : Word) : (record c info s).total = s.total := rfl
@[simp] theorem record_freq (c : ErrorCause) (info : Word) : (record c info s).freq = s.freq := rfl
@[simp] theorem record_seqN (c : ErrorCause) (info : Word) : (record c info s).seqN = s.seqN := rfl
@[simp] theorem record_seqSym (c : ErrorCause) (info : Word) : (record c info s).seqSym = s.seqSym := rfl
@[simp] theorem record_seqCnt (c : ErrorCause) (info : Word) : (record c info s).seqCnt = s.seqCnt := rfl
@[simp] theorem record_node (c : ErrorCause) (info : Word) : (record c info s).node = s.node := rfl
@[simp] theorem record_root (c : ErrorCause) (info : Word) : (record c info s).root = s.root := rfl
@[simp] theorem record_nodeCount (c : ErrorCause) (info : Word) : (record c info s).nodeCount = s.nodeCount := rfl
@[simp] theorem record_codeLen (c : ErrorCause) (info : Word) : (record c info s).codeLen = s.codeLen := rfl
@[simp] theorem record_codeBits (c : ErrorCause) (info : Word) : (record c info s).codeBits = s.codeBits := rfl
@[simp] theorem record_payloadBits (c : ErrorCause) (info : Word) :
    (record c info s).payloadBits = s.payloadBits := rfl
@[simp] theorem record_emitBits (c : ErrorCause) (info : Word) : (record c info s).emitBits = s.emitBits := rfl
@[simp] theorem record_obuf (c : ErrorCause) (info : Word) : (record c info s).obuf = s.obuf := rfl
@[simp] theorem record_ocnt (c : ErrorCause) (info : Word) : (record c info s).ocnt = s.ocnt := rfl
@[simp] theorem record_statOrig (c : ErrorCause) (info : Word) : (record c info s).statOrig = s.statOrig := rfl
@[simp] theorem record_statPayload (c : ErrorCause) (info : Word) :
    (record c info s).statPayload = s.statPayload := rfl
@[simp] theorem record_statHeader (c : ErrorCause) (info : Word) : (record c info s).statHeader = s.statHeader := rfl
@[simp] theorem record_ibuf (c : ErrorCause) (info : Word) : (record c info s).ibuf = s.ibuf := rfl
@[simp] theorem record_ipos (c : ErrorCause) (info : Word) : (record c info s).ipos = s.ipos := rfl
@[simp] theorem record_cur (c : ErrorCause) (info : Word) : (record c info s).cur = s.cur := rfl
@[simp] theorem record_bitsLeft (c : ErrorCause) (info : Word) : (record c info s).bitsLeft = s.bitsLeft := rfl
@[simp] theorem record_xferIn (c : ErrorCause) (info : Word) : (record c info s).xferIn = s.xferIn := rfl
@[simp] theorem record_xferOut (c : ErrorCause) (info : Word) : (record c info s).xferOut = s.xferOut := rfl
@[simp] theorem record_pos (c : ErrorCause) (info : Word) : (record c info s).pos = s.pos := rfl
@[simp] theorem record_inCh (c : ErrorCause) (info : Word) : (record c info s).inCh = s.inCh := rfl
@[simp] theorem record_out (c : ErrorCause) (info : Word) : (record c info s).out = s.out := rfl
@[simp] theorem record_pushes (c : ErrorCause) (info : Word) : (record c info s).pushes = s.pushes := rfl
@[simp] theorem record_sinkFaults (c : ErrorCause) (info : Word) : (record c info s).sinkFaults = s.sinkFaults := rfl
@[simp] theorem record_sinkQuota (c : ErrorCause) (info : Word) : (record c info s).sinkQuota = s.sinkQuota := rfl
@[simp] theorem record_script (c : ErrorCause) (info : Word) : (record c info s).script = s.script := rfl
@[simp] theorem record_reads (c : ErrorCause) (info : Word) : (record c info s).reads = s.reads := rfl
@[simp] theorem record_draws (c : ErrorCause) (info : Word) : (record c info s).draws = s.draws := rfl
@[simp] theorem record_eager (c : ErrorCause) (info : Word) : (record c info s).eager = s.eager := rfl

/-! ### raise -/

@[simp] theorem raise_phase (c : ErrorCause) (info : Word) : (raise c info s).phase = .error := rfl
@[simp] theorem raise_busy (c : ErrorCause) (info : Word) : (raise c info s).busy = false := rfl
@[simp] theorem raise_empty (c : ErrorCause) (info : Word) : (raise c info s).empty = s.empty := rfl
@[simp] theorem raise_ovr (c : ErrorCause) (info : Word) : (raise c info s).ovr = s.ovr := rfl
@[simp] theorem raise_lastOp (c : ErrorCause) (info : Word) : (raise c info s).lastOp = s.lastOp := rfl
@[simp] theorem raise_errKind (c : ErrorCause) (info : Word) : (raise c info s).errKind = errorKind c := rfl
@[simp] theorem raise_errDetail (c : ErrorCause) (info : Word) : (raise c info s).errDetail = errorDetail c := rfl
@[simp] theorem raise_errInfo (c : ErrorCause) (info : Word) : (raise c info s).errInfo = info := rfl
@[simp] theorem raise_total (c : ErrorCause) (info : Word) : (raise c info s).total = s.total := rfl
@[simp] theorem raise_freq (c : ErrorCause) (info : Word) : (raise c info s).freq = s.freq := rfl
@[simp] theorem raise_seqN (c : ErrorCause) (info : Word) : (raise c info s).seqN = s.seqN := rfl
@[simp] theorem raise_seqSym (c : ErrorCause) (info : Word) : (raise c info s).seqSym = s.seqSym := rfl
@[simp] theorem raise_seqCnt (c : ErrorCause) (info : Word) : (raise c info s).seqCnt = s.seqCnt := rfl
@[simp] theorem raise_node (c : ErrorCause) (info : Word) : (raise c info s).node = s.node := rfl
@[simp] theorem raise_root (c : ErrorCause) (info : Word) : (raise c info s).root = s.root := rfl
@[simp] theorem raise_nodeCount (c : ErrorCause) (info : Word) : (raise c info s).nodeCount = s.nodeCount := rfl
@[simp] theorem raise_codeLen (c : ErrorCause) (info : Word) : (raise c info s).codeLen = s.codeLen := rfl
@[simp] theorem raise_codeBits (c : ErrorCause) (info : Word) : (raise c info s).codeBits = s.codeBits := rfl
@[simp] theorem raise_payloadBits (c : ErrorCause) (info : Word) : (raise c info s).payloadBits = s.payloadBits := rfl
@[simp] theorem raise_emitBits (c : ErrorCause) (info : Word) : (raise c info s).emitBits = s.emitBits := rfl
@[simp] theorem raise_obuf (c : ErrorCause) (info : Word) : (raise c info s).obuf = s.obuf := rfl
@[simp] theorem raise_ocnt (c : ErrorCause) (info : Word) : (raise c info s).ocnt = s.ocnt := rfl
@[simp] theorem raise_statOrig (c : ErrorCause) (info : Word) : (raise c info s).statOrig = s.statOrig := rfl
@[simp] theorem raise_statPayload (c : ErrorCause) (info : Word) : (raise c info s).statPayload = s.statPayload := rfl
@[simp] theorem raise_statHeader (c : ErrorCause) (info : Word) : (raise c info s).statHeader = s.statHeader := rfl
@[simp] theorem raise_ibuf (c : ErrorCause) (info : Word) : (raise c info s).ibuf = s.ibuf := rfl
@[simp] theorem raise_ipos (c : ErrorCause) (info : Word) : (raise c info s).ipos = s.ipos := rfl
@[simp] theorem raise_cur (c : ErrorCause) (info : Word) : (raise c info s).cur = s.cur := rfl
@[simp] theorem raise_bitsLeft (c : ErrorCause) (info : Word) : (raise c info s).bitsLeft = s.bitsLeft := rfl
@[simp] theorem raise_xferIn (c : ErrorCause) (info : Word) : (raise c info s).xferIn = s.xferIn := rfl
@[simp] theorem raise_xferOut (c : ErrorCause) (info : Word) : (raise c info s).xferOut = s.xferOut := rfl
@[simp] theorem raise_pos (c : ErrorCause) (info : Word) : (raise c info s).pos = .idle := rfl
@[simp] theorem raise_inCh (c : ErrorCause) (info : Word) : (raise c info s).inCh = s.inCh := rfl
@[simp] theorem raise_out (c : ErrorCause) (info : Word) : (raise c info s).out = s.out := rfl
@[simp] theorem raise_pushes (c : ErrorCause) (info : Word) : (raise c info s).pushes = s.pushes := rfl
@[simp] theorem raise_sinkFaults (c : ErrorCause) (info : Word) : (raise c info s).sinkFaults = s.sinkFaults := rfl
@[simp] theorem raise_sinkQuota (c : ErrorCause) (info : Word) : (raise c info s).sinkQuota = s.sinkQuota := rfl
@[simp] theorem raise_script (c : ErrorCause) (info : Word) : (raise c info s).script = s.script := rfl
@[simp] theorem raise_reads (c : ErrorCause) (info : Word) : (raise c info s).reads = s.reads := rfl
@[simp] theorem raise_draws (c : ErrorCause) (info : Word) : (raise c info s).draws = s.draws := rfl
@[simp] theorem raise_eager (c : ErrorCause) (info : Word) : (raise c info s).eager = s.eager := rfl

/-! ### implicitClear -/

@[simp] theorem implicitClear_phase : (implicitClear s).phase = .idle := rfl
@[simp] theorem implicitClear_busy : (implicitClear s).busy = s.busy := rfl
@[simp] theorem implicitClear_empty : (implicitClear s).empty = false := rfl
@[simp] theorem implicitClear_ovr : (implicitClear s).ovr = false := rfl
@[simp] theorem implicitClear_lastOp : (implicitClear s).lastOp = s.lastOp := rfl
@[simp] theorem implicitClear_errKind : (implicitClear s).errKind = 0#8 := rfl
@[simp] theorem implicitClear_errDetail : (implicitClear s).errDetail = 0#8 := rfl
@[simp] theorem implicitClear_errInfo : (implicitClear s).errInfo = 0#64 := rfl
@[simp] theorem implicitClear_total : (implicitClear s).total = 0#64 := rfl
@[simp] theorem implicitClear_freq : (implicitClear s).freq = Bank.fill 256 0#64 := rfl
@[simp] theorem implicitClear_seqN : (implicitClear s).seqN = 0#9 := rfl
@[simp] theorem implicitClear_seqSym : (implicitClear s).seqSym = Bank.fill 256 0#8 := rfl
@[simp] theorem implicitClear_seqCnt : (implicitClear s).seqCnt = Bank.fill 256 0#64 := rfl
@[simp] theorem implicitClear_node : (implicitClear s).node = Bank.fill 511 unusedNode := rfl
@[simp] theorem implicitClear_root : (implicitClear s).root = Config.none := rfl
@[simp] theorem implicitClear_nodeCount : (implicitClear s).nodeCount = 0#10 := rfl
@[simp] theorem implicitClear_codeLen : (implicitClear s).codeLen = Bank.fill 256 0#8 := rfl
@[simp] theorem implicitClear_codeBits : (implicitClear s).codeBits = Bank.fill 256 0#256 := rfl
@[simp] theorem implicitClear_payloadBits : (implicitClear s).payloadBits = 0#64 := rfl
@[simp] theorem implicitClear_emitBits : (implicitClear s).emitBits = 0#64 := rfl
@[simp] theorem implicitClear_obuf : (implicitClear s).obuf = 0#8 := rfl
@[simp] theorem implicitClear_ocnt : (implicitClear s).ocnt = 0#3 := rfl
@[simp] theorem implicitClear_statOrig : (implicitClear s).statOrig = 0#64 := rfl
@[simp] theorem implicitClear_statPayload : (implicitClear s).statPayload = 0#64 := rfl
@[simp] theorem implicitClear_statHeader : (implicitClear s).statHeader = 0#64 := rfl
@[simp] theorem implicitClear_ibuf : (implicitClear s).ibuf = 0#8 := rfl
@[simp] theorem implicitClear_ipos : (implicitClear s).ipos = 8#4 := rfl
@[simp] theorem implicitClear_cur : (implicitClear s).cur = Config.none := rfl
@[simp] theorem implicitClear_bitsLeft : (implicitClear s).bitsLeft = 0#64 := rfl
@[simp] theorem implicitClear_xferIn : (implicitClear s).xferIn = 0#64 := rfl
@[simp] theorem implicitClear_xferOut : (implicitClear s).xferOut = 0#64 := rfl
@[simp] theorem implicitClear_pos : (implicitClear s).pos = s.pos := rfl
@[simp] theorem implicitClear_inCh : (implicitClear s).inCh = s.inCh := rfl
@[simp] theorem implicitClear_out : (implicitClear s).out = s.out := rfl
@[simp] theorem implicitClear_pushes : (implicitClear s).pushes = s.pushes := rfl
@[simp] theorem implicitClear_sinkFaults : (implicitClear s).sinkFaults = s.sinkFaults := rfl
@[simp] theorem implicitClear_sinkQuota : (implicitClear s).sinkQuota = s.sinkQuota := rfl
@[simp] theorem implicitClear_script : (implicitClear s).script = s.script := rfl
@[simp] theorem implicitClear_reads : (implicitClear s).reads = s.reads := rfl
@[simp] theorem implicitClear_draws : (implicitClear s).draws = s.draws := rfl
@[simp] theorem implicitClear_eager : (implicitClear s).eager = s.eager := rfl

/-! ### hardwareReset -/

@[simp] theorem hardwareReset_phase : (hardwareReset s).phase = .idle := rfl
@[simp] theorem hardwareReset_busy : (hardwareReset s).busy = false := rfl
@[simp] theorem hardwareReset_empty : (hardwareReset s).empty = false := rfl
@[simp] theorem hardwareReset_ovr : (hardwareReset s).ovr = false := rfl
@[simp] theorem hardwareReset_lastOp : (hardwareReset s).lastOp = 0x00#8 := rfl
@[simp] theorem hardwareReset_errKind : (hardwareReset s).errKind = 0#8 := rfl
@[simp] theorem hardwareReset_errDetail : (hardwareReset s).errDetail = 0#8 := rfl
@[simp] theorem hardwareReset_errInfo : (hardwareReset s).errInfo = 0#64 := rfl
@[simp] theorem hardwareReset_total : (hardwareReset s).total = 0#64 := rfl
@[simp] theorem hardwareReset_freq : (hardwareReset s).freq = Bank.fill 256 0#64 := rfl
@[simp] theorem hardwareReset_seqN : (hardwareReset s).seqN = 0#9 := rfl
@[simp] theorem hardwareReset_seqSym : (hardwareReset s).seqSym = Bank.fill 256 0#8 := rfl
@[simp] theorem hardwareReset_seqCnt : (hardwareReset s).seqCnt = Bank.fill 256 0#64 := rfl
@[simp] theorem hardwareReset_node : (hardwareReset s).node = Bank.fill 511 unusedNode := rfl
@[simp] theorem hardwareReset_root : (hardwareReset s).root = Config.none := rfl
@[simp] theorem hardwareReset_nodeCount : (hardwareReset s).nodeCount = 0#10 := rfl
@[simp] theorem hardwareReset_codeLen : (hardwareReset s).codeLen = Bank.fill 256 0#8 := rfl
@[simp] theorem hardwareReset_codeBits : (hardwareReset s).codeBits = Bank.fill 256 0#256 := rfl
@[simp] theorem hardwareReset_payloadBits : (hardwareReset s).payloadBits = 0#64 := rfl
@[simp] theorem hardwareReset_emitBits : (hardwareReset s).emitBits = 0#64 := rfl
@[simp] theorem hardwareReset_obuf : (hardwareReset s).obuf = 0#8 := rfl
@[simp] theorem hardwareReset_ocnt : (hardwareReset s).ocnt = 0#3 := rfl
@[simp] theorem hardwareReset_statOrig : (hardwareReset s).statOrig = 0#64 := rfl
@[simp] theorem hardwareReset_statPayload : (hardwareReset s).statPayload = 0#64 := rfl
@[simp] theorem hardwareReset_statHeader : (hardwareReset s).statHeader = 0#64 := rfl
@[simp] theorem hardwareReset_ibuf : (hardwareReset s).ibuf = 0#8 := rfl
@[simp] theorem hardwareReset_ipos : (hardwareReset s).ipos = 8#4 := rfl
@[simp] theorem hardwareReset_cur : (hardwareReset s).cur = Config.none := rfl
@[simp] theorem hardwareReset_bitsLeft : (hardwareReset s).bitsLeft = 0#64 := rfl
@[simp] theorem hardwareReset_xferIn : (hardwareReset s).xferIn = 0#64 := rfl
@[simp] theorem hardwareReset_xferOut : (hardwareReset s).xferOut = 0#64 := rfl
@[simp] theorem hardwareReset_pos : (hardwareReset s).pos = .idle := rfl
@[simp] theorem hardwareReset_inCh : (hardwareReset s).inCh = s.inCh := rfl
@[simp] theorem hardwareReset_out : (hardwareReset s).out = s.out := rfl
@[simp] theorem hardwareReset_pushes : (hardwareReset s).pushes = s.pushes := rfl
@[simp] theorem hardwareReset_sinkFaults : (hardwareReset s).sinkFaults = s.sinkFaults := rfl
@[simp] theorem hardwareReset_sinkQuota : (hardwareReset s).sinkQuota = s.sinkQuota := rfl
@[simp] theorem hardwareReset_script : (hardwareReset s).script = s.script := rfl
@[simp] theorem hardwareReset_reads : (hardwareReset s).reads = s.reads := rfl
@[simp] theorem hardwareReset_draws : (hardwareReset s).draws = s.draws := rfl
@[simp] theorem hardwareReset_eager : (hardwareReset s).eager = s.eager := rfl

/-! ### dropCommand -/

@[simp] theorem dropCommand_phase : (dropCommand s).phase = s.phase := rfl
@[simp] theorem dropCommand_busy : (dropCommand s).busy = s.busy := rfl
@[simp] theorem dropCommand_empty : (dropCommand s).empty = s.empty := rfl
@[simp] theorem dropCommand_ovr : (dropCommand s).ovr = true := rfl
@[simp] theorem dropCommand_lastOp : (dropCommand s).lastOp = s.lastOp := rfl
@[simp] theorem dropCommand_errKind : (dropCommand s).errKind = s.errKind := rfl
@[simp] theorem dropCommand_errDetail : (dropCommand s).errDetail = s.errDetail := rfl
@[simp] theorem dropCommand_errInfo : (dropCommand s).errInfo = s.errInfo := rfl
@[simp] theorem dropCommand_total : (dropCommand s).total = s.total := rfl
@[simp] theorem dropCommand_freq : (dropCommand s).freq = s.freq := rfl
@[simp] theorem dropCommand_seqN : (dropCommand s).seqN = s.seqN := rfl
@[simp] theorem dropCommand_seqSym : (dropCommand s).seqSym = s.seqSym := rfl
@[simp] theorem dropCommand_seqCnt : (dropCommand s).seqCnt = s.seqCnt := rfl
@[simp] theorem dropCommand_node : (dropCommand s).node = s.node := rfl
@[simp] theorem dropCommand_root : (dropCommand s).root = s.root := rfl
@[simp] theorem dropCommand_nodeCount : (dropCommand s).nodeCount = s.nodeCount := rfl
@[simp] theorem dropCommand_codeLen : (dropCommand s).codeLen = s.codeLen := rfl
@[simp] theorem dropCommand_codeBits : (dropCommand s).codeBits = s.codeBits := rfl
@[simp] theorem dropCommand_payloadBits : (dropCommand s).payloadBits = s.payloadBits := rfl
@[simp] theorem dropCommand_emitBits : (dropCommand s).emitBits = s.emitBits := rfl
@[simp] theorem dropCommand_obuf : (dropCommand s).obuf = s.obuf := rfl
@[simp] theorem dropCommand_ocnt : (dropCommand s).ocnt = s.ocnt := rfl
@[simp] theorem dropCommand_statOrig : (dropCommand s).statOrig = s.statOrig := rfl
@[simp] theorem dropCommand_statPayload : (dropCommand s).statPayload = s.statPayload := rfl
@[simp] theorem dropCommand_statHeader : (dropCommand s).statHeader = s.statHeader := rfl
@[simp] theorem dropCommand_ibuf : (dropCommand s).ibuf = s.ibuf := rfl
@[simp] theorem dropCommand_ipos : (dropCommand s).ipos = s.ipos := rfl
@[simp] theorem dropCommand_cur : (dropCommand s).cur = s.cur := rfl
@[simp] theorem dropCommand_bitsLeft : (dropCommand s).bitsLeft = s.bitsLeft := rfl
@[simp] theorem dropCommand_xferIn : (dropCommand s).xferIn = s.xferIn := rfl
@[simp] theorem dropCommand_xferOut : (dropCommand s).xferOut = s.xferOut := rfl
@[simp] theorem dropCommand_pos : (dropCommand s).pos = s.pos := rfl
@[simp] theorem dropCommand_inCh : (dropCommand s).inCh = s.inCh := rfl
@[simp] theorem dropCommand_out : (dropCommand s).out = s.out := rfl
@[simp] theorem dropCommand_pushes : (dropCommand s).pushes = s.pushes := rfl
@[simp] theorem dropCommand_sinkFaults : (dropCommand s).sinkFaults = s.sinkFaults := rfl
@[simp] theorem dropCommand_sinkQuota : (dropCommand s).sinkQuota = s.sinkQuota := rfl
@[simp] theorem dropCommand_script : (dropCommand s).script = s.script := rfl
@[simp] theorem dropCommand_reads : (dropCommand s).reads = s.reads := rfl
@[simp] theorem dropCommand_draws : (dropCommand s).draws = s.draws := rfl
@[simp] theorem dropCommand_eager : (dropCommand s).eager = s.eager := rfl

/-! ### accept -/

@[simp] theorem accept_phase (op : Byte) : (accept op s).phase = s.phase := rfl
@[simp] theorem accept_busy (op : Byte) : (accept op s).busy = true := rfl
@[simp] theorem accept_empty (op : Byte) : (accept op s).empty = s.empty := rfl
@[simp] theorem accept_ovr (op : Byte) : (accept op s).ovr = s.ovr := rfl
@[simp] theorem accept_lastOp (op : Byte) : (accept op s).lastOp = op := rfl
@[simp] theorem accept_errKind (op : Byte) : (accept op s).errKind = s.errKind := rfl
@[simp] theorem accept_errDetail (op : Byte) : (accept op s).errDetail = s.errDetail := rfl
@[simp] theorem accept_errInfo (op : Byte) : (accept op s).errInfo = s.errInfo := rfl
@[simp] theorem accept_total (op : Byte) : (accept op s).total = s.total := rfl
@[simp] theorem accept_freq (op : Byte) : (accept op s).freq = s.freq := rfl
@[simp] theorem accept_seqN (op : Byte) : (accept op s).seqN = s.seqN := rfl
@[simp] theorem accept_seqSym (op : Byte) : (accept op s).seqSym = s.seqSym := rfl
@[simp] theorem accept_seqCnt (op : Byte) : (accept op s).seqCnt = s.seqCnt := rfl
@[simp] theorem accept_node (op : Byte) : (accept op s).node = s.node := rfl
@[simp] theorem accept_root (op : Byte) : (accept op s).root = s.root := rfl
@[simp] theorem accept_nodeCount (op : Byte) : (accept op s).nodeCount = s.nodeCount := rfl
@[simp] theorem accept_codeLen (op : Byte) : (accept op s).codeLen = s.codeLen := rfl
@[simp] theorem accept_codeBits (op : Byte) : (accept op s).codeBits = s.codeBits := rfl
@[simp] theorem accept_payloadBits (op : Byte) : (accept op s).payloadBits = s.payloadBits := rfl
@[simp] theorem accept_emitBits (op : Byte) : (accept op s).emitBits = s.emitBits := rfl
@[simp] theorem accept_obuf (op : Byte) : (accept op s).obuf = s.obuf := rfl
@[simp] theorem accept_ocnt (op : Byte) : (accept op s).ocnt = s.ocnt := rfl
@[simp] theorem accept_statOrig (op : Byte) : (accept op s).statOrig = s.statOrig := rfl
@[simp] theorem accept_statPayload (op : Byte) : (accept op s).statPayload = s.statPayload := rfl
@[simp] theorem accept_statHeader (op : Byte) : (accept op s).statHeader = s.statHeader := rfl
@[simp] theorem accept_ibuf (op : Byte) : (accept op s).ibuf = s.ibuf := rfl
@[simp] theorem accept_ipos (op : Byte) : (accept op s).ipos = s.ipos := rfl
@[simp] theorem accept_cur (op : Byte) : (accept op s).cur = s.cur := rfl
@[simp] theorem accept_bitsLeft (op : Byte) : (accept op s).bitsLeft = s.bitsLeft := rfl
@[simp] theorem accept_xferIn (op : Byte) : (accept op s).xferIn = 0#64 := rfl
@[simp] theorem accept_xferOut (op : Byte) : (accept op s).xferOut = 0#64 := rfl
@[simp] theorem accept_pos (op : Byte) : (accept op s).pos = s.pos := rfl
@[simp] theorem accept_inCh (op : Byte) : (accept op s).inCh = s.inCh := rfl
@[simp] theorem accept_out (op : Byte) : (accept op s).out = s.out := rfl
@[simp] theorem accept_pushes (op : Byte) : (accept op s).pushes = s.pushes := rfl
@[simp] theorem accept_sinkFaults (op : Byte) : (accept op s).sinkFaults = s.sinkFaults := rfl
@[simp] theorem accept_sinkQuota (op : Byte) : (accept op s).sinkQuota = s.sinkQuota := rfl
@[simp] theorem accept_script (op : Byte) : (accept op s).script = s.script := rfl
@[simp] theorem accept_reads (op : Byte) : (accept op s).reads = s.reads := rfl
@[simp] theorem accept_draws (op : Byte) : (accept op s).draws = s.draws := rfl
@[simp] theorem accept_eager (op : Byte) : (accept op s).eager = s.eager := rfl

/-! ### setEmpty -/

@[simp] theorem setEmpty_phase : (setEmpty s).phase = s.phase := rfl
@[simp] theorem setEmpty_busy : (setEmpty s).busy = s.busy := rfl
@[simp] theorem setEmpty_empty : (setEmpty s).empty = true := rfl
@[simp] theorem setEmpty_ovr : (setEmpty s).ovr = s.ovr := rfl
@[simp] theorem setEmpty_lastOp : (setEmpty s).lastOp = s.lastOp := rfl
@[simp] theorem setEmpty_errKind : (setEmpty s).errKind = s.errKind := rfl
@[simp] theorem setEmpty_errDetail : (setEmpty s).errDetail = s.errDetail := rfl
@[simp] theorem setEmpty_errInfo : (setEmpty s).errInfo = s.errInfo := rfl
@[simp] theorem setEmpty_total : (setEmpty s).total = s.total := rfl
@[simp] theorem setEmpty_freq : (setEmpty s).freq = s.freq := rfl
@[simp] theorem setEmpty_seqN : (setEmpty s).seqN = s.seqN := rfl
@[simp] theorem setEmpty_seqSym : (setEmpty s).seqSym = s.seqSym := rfl
@[simp] theorem setEmpty_seqCnt : (setEmpty s).seqCnt = s.seqCnt := rfl
@[simp] theorem setEmpty_node : (setEmpty s).node = s.node := rfl
@[simp] theorem setEmpty_root : (setEmpty s).root = s.root := rfl
@[simp] theorem setEmpty_nodeCount : (setEmpty s).nodeCount = s.nodeCount := rfl
@[simp] theorem setEmpty_codeLen : (setEmpty s).codeLen = s.codeLen := rfl
@[simp] theorem setEmpty_codeBits : (setEmpty s).codeBits = s.codeBits := rfl
@[simp] theorem setEmpty_payloadBits : (setEmpty s).payloadBits = s.payloadBits := rfl
@[simp] theorem setEmpty_emitBits : (setEmpty s).emitBits = s.emitBits := rfl
@[simp] theorem setEmpty_obuf : (setEmpty s).obuf = s.obuf := rfl
@[simp] theorem setEmpty_ocnt : (setEmpty s).ocnt = s.ocnt := rfl
@[simp] theorem setEmpty_statOrig : (setEmpty s).statOrig = s.statOrig := rfl
@[simp] theorem setEmpty_statPayload : (setEmpty s).statPayload = s.statPayload := rfl
@[simp] theorem setEmpty_statHeader : (setEmpty s).statHeader = s.statHeader := rfl
@[simp] theorem setEmpty_ibuf : (setEmpty s).ibuf = s.ibuf := rfl
@[simp] theorem setEmpty_ipos : (setEmpty s).ipos = s.ipos := rfl
@[simp] theorem setEmpty_cur : (setEmpty s).cur = s.cur := rfl
@[simp] theorem setEmpty_bitsLeft : (setEmpty s).bitsLeft = s.bitsLeft := rfl
@[simp] theorem setEmpty_xferIn : (setEmpty s).xferIn = s.xferIn := rfl
@[simp] theorem setEmpty_xferOut : (setEmpty s).xferOut = s.xferOut := rfl
@[simp] theorem setEmpty_pos : (setEmpty s).pos = s.pos := rfl
@[simp] theorem setEmpty_inCh : (setEmpty s).inCh = s.inCh := rfl
@[simp] theorem setEmpty_out : (setEmpty s).out = s.out := rfl
@[simp] theorem setEmpty_pushes : (setEmpty s).pushes = s.pushes := rfl
@[simp] theorem setEmpty_sinkFaults : (setEmpty s).sinkFaults = s.sinkFaults := rfl
@[simp] theorem setEmpty_sinkQuota : (setEmpty s).sinkQuota = s.sinkQuota := rfl
@[simp] theorem setEmpty_script : (setEmpty s).script = s.script := rfl
@[simp] theorem setEmpty_reads : (setEmpty s).reads = s.reads := rfl
@[simp] theorem setEmpty_draws : (setEmpty s).draws = s.draws := rfl
@[simp] theorem setEmpty_eager : (setEmpty s).eager = s.eager := rfl

/-! ### setStatOrig -/

@[simp] theorem setStatOrig_phase : (setStatOrig s).phase = s.phase := rfl
@[simp] theorem setStatOrig_busy : (setStatOrig s).busy = s.busy := rfl
@[simp] theorem setStatOrig_empty : (setStatOrig s).empty = s.empty := rfl
@[simp] theorem setStatOrig_ovr : (setStatOrig s).ovr = s.ovr := rfl
@[simp] theorem setStatOrig_lastOp : (setStatOrig s).lastOp = s.lastOp := rfl
@[simp] theorem setStatOrig_errKind : (setStatOrig s).errKind = s.errKind := rfl
@[simp] theorem setStatOrig_errDetail : (setStatOrig s).errDetail = s.errDetail := rfl
@[simp] theorem setStatOrig_errInfo : (setStatOrig s).errInfo = s.errInfo := rfl
@[simp] theorem setStatOrig_total : (setStatOrig s).total = s.total := rfl
@[simp] theorem setStatOrig_freq : (setStatOrig s).freq = s.freq := rfl
@[simp] theorem setStatOrig_seqN : (setStatOrig s).seqN = s.seqN := rfl
@[simp] theorem setStatOrig_seqSym : (setStatOrig s).seqSym = s.seqSym := rfl
@[simp] theorem setStatOrig_seqCnt : (setStatOrig s).seqCnt = s.seqCnt := rfl
@[simp] theorem setStatOrig_node : (setStatOrig s).node = s.node := rfl
@[simp] theorem setStatOrig_root : (setStatOrig s).root = s.root := rfl
@[simp] theorem setStatOrig_nodeCount : (setStatOrig s).nodeCount = s.nodeCount := rfl
@[simp] theorem setStatOrig_codeLen : (setStatOrig s).codeLen = s.codeLen := rfl
@[simp] theorem setStatOrig_codeBits : (setStatOrig s).codeBits = s.codeBits := rfl
@[simp] theorem setStatOrig_payloadBits : (setStatOrig s).payloadBits = s.payloadBits := rfl
@[simp] theorem setStatOrig_emitBits : (setStatOrig s).emitBits = s.emitBits := rfl
@[simp] theorem setStatOrig_obuf : (setStatOrig s).obuf = s.obuf := rfl
@[simp] theorem setStatOrig_ocnt : (setStatOrig s).ocnt = s.ocnt := rfl
@[simp] theorem setStatOrig_statOrig : (setStatOrig s).statOrig = s.total := rfl
@[simp] theorem setStatOrig_statPayload : (setStatOrig s).statPayload = s.statPayload := rfl
@[simp] theorem setStatOrig_statHeader : (setStatOrig s).statHeader = s.statHeader := rfl
@[simp] theorem setStatOrig_ibuf : (setStatOrig s).ibuf = s.ibuf := rfl
@[simp] theorem setStatOrig_ipos : (setStatOrig s).ipos = s.ipos := rfl
@[simp] theorem setStatOrig_cur : (setStatOrig s).cur = s.cur := rfl
@[simp] theorem setStatOrig_bitsLeft : (setStatOrig s).bitsLeft = s.bitsLeft := rfl
@[simp] theorem setStatOrig_xferIn : (setStatOrig s).xferIn = s.xferIn := rfl
@[simp] theorem setStatOrig_xferOut : (setStatOrig s).xferOut = s.xferOut := rfl
@[simp] theorem setStatOrig_pos : (setStatOrig s).pos = s.pos := rfl
@[simp] theorem setStatOrig_inCh : (setStatOrig s).inCh = s.inCh := rfl
@[simp] theorem setStatOrig_out : (setStatOrig s).out = s.out := rfl
@[simp] theorem setStatOrig_pushes : (setStatOrig s).pushes = s.pushes := rfl
@[simp] theorem setStatOrig_sinkFaults : (setStatOrig s).sinkFaults = s.sinkFaults := rfl
@[simp] theorem setStatOrig_sinkQuota : (setStatOrig s).sinkQuota = s.sinkQuota := rfl
@[simp] theorem setStatOrig_script : (setStatOrig s).script = s.script := rfl
@[simp] theorem setStatOrig_reads : (setStatOrig s).reads = s.reads := rfl
@[simp] theorem setStatOrig_draws : (setStatOrig s).draws = s.draws := rfl
@[simp] theorem setStatOrig_eager : (setStatOrig s).eager = s.eager := rfl

/-! ### openPacker -/

@[simp] theorem openPacker_phase : (openPacker s).phase = s.phase := rfl
@[simp] theorem openPacker_busy : (openPacker s).busy = s.busy := rfl
@[simp] theorem openPacker_empty : (openPacker s).empty = s.empty := rfl
@[simp] theorem openPacker_ovr : (openPacker s).ovr = s.ovr := rfl
@[simp] theorem openPacker_lastOp : (openPacker s).lastOp = s.lastOp := rfl
@[simp] theorem openPacker_errKind : (openPacker s).errKind = s.errKind := rfl
@[simp] theorem openPacker_errDetail : (openPacker s).errDetail = s.errDetail := rfl
@[simp] theorem openPacker_errInfo : (openPacker s).errInfo = s.errInfo := rfl
@[simp] theorem openPacker_total : (openPacker s).total = s.total := rfl
@[simp] theorem openPacker_freq : (openPacker s).freq = s.freq := rfl
@[simp] theorem openPacker_seqN : (openPacker s).seqN = s.seqN := rfl
@[simp] theorem openPacker_seqSym : (openPacker s).seqSym = s.seqSym := rfl
@[simp] theorem openPacker_seqCnt : (openPacker s).seqCnt = s.seqCnt := rfl
@[simp] theorem openPacker_node : (openPacker s).node = s.node := rfl
@[simp] theorem openPacker_root : (openPacker s).root = s.root := rfl
@[simp] theorem openPacker_nodeCount : (openPacker s).nodeCount = s.nodeCount := rfl
@[simp] theorem openPacker_codeLen : (openPacker s).codeLen = s.codeLen := rfl
@[simp] theorem openPacker_codeBits : (openPacker s).codeBits = s.codeBits := rfl
@[simp] theorem openPacker_payloadBits : (openPacker s).payloadBits = s.payloadBits := rfl
@[simp] theorem openPacker_emitBits : (openPacker s).emitBits = 0#64 := rfl
@[simp] theorem openPacker_obuf : (openPacker s).obuf = 0#8 := rfl
@[simp] theorem openPacker_ocnt : (openPacker s).ocnt = 0#3 := rfl
@[simp] theorem openPacker_statOrig : (openPacker s).statOrig = s.statOrig := rfl
@[simp] theorem openPacker_statPayload : (openPacker s).statPayload = s.statPayload := rfl
@[simp] theorem openPacker_statHeader : (openPacker s).statHeader = s.statHeader := rfl
@[simp] theorem openPacker_ibuf : (openPacker s).ibuf = s.ibuf := rfl
@[simp] theorem openPacker_ipos : (openPacker s).ipos = s.ipos := rfl
@[simp] theorem openPacker_cur : (openPacker s).cur = s.cur := rfl
@[simp] theorem openPacker_bitsLeft : (openPacker s).bitsLeft = s.bitsLeft := rfl
@[simp] theorem openPacker_xferIn : (openPacker s).xferIn = s.xferIn := rfl
@[simp] theorem openPacker_xferOut : (openPacker s).xferOut = s.xferOut := rfl
@[simp] theorem openPacker_pos : (openPacker s).pos = s.pos := rfl
@[simp] theorem openPacker_inCh : (openPacker s).inCh = s.inCh := rfl
@[simp] theorem openPacker_out : (openPacker s).out = s.out := rfl
@[simp] theorem openPacker_pushes : (openPacker s).pushes = s.pushes := rfl
@[simp] theorem openPacker_sinkFaults : (openPacker s).sinkFaults = s.sinkFaults := rfl
@[simp] theorem openPacker_sinkQuota : (openPacker s).sinkQuota = s.sinkQuota := rfl
@[simp] theorem openPacker_script : (openPacker s).script = s.script := rfl
@[simp] theorem openPacker_reads : (openPacker s).reads = s.reads := rfl
@[simp] theorem openPacker_draws : (openPacker s).draws = s.draws := rfl
@[simp] theorem openPacker_eager : (openPacker s).eager = s.eager := rfl

/-! ### emptyPacker -/

@[simp] theorem emptyPacker_phase : (emptyPacker s).phase = s.phase := rfl
@[simp] theorem emptyPacker_busy : (emptyPacker s).busy = s.busy := rfl
@[simp] theorem emptyPacker_empty : (emptyPacker s).empty = s.empty := rfl
@[simp] theorem emptyPacker_ovr : (emptyPacker s).ovr = s.ovr := rfl
@[simp] theorem emptyPacker_lastOp : (emptyPacker s).lastOp = s.lastOp := rfl
@[simp] theorem emptyPacker_errKind : (emptyPacker s).errKind = s.errKind := rfl
@[simp] theorem emptyPacker_errDetail : (emptyPacker s).errDetail = s.errDetail := rfl
@[simp] theorem emptyPacker_errInfo : (emptyPacker s).errInfo = s.errInfo := rfl
@[simp] theorem emptyPacker_total : (emptyPacker s).total = s.total := rfl
@[simp] theorem emptyPacker_freq : (emptyPacker s).freq = s.freq := rfl
@[simp] theorem emptyPacker_seqN : (emptyPacker s).seqN = s.seqN := rfl
@[simp] theorem emptyPacker_seqSym : (emptyPacker s).seqSym = s.seqSym := rfl
@[simp] theorem emptyPacker_seqCnt : (emptyPacker s).seqCnt = s.seqCnt := rfl
@[simp] theorem emptyPacker_node : (emptyPacker s).node = s.node := rfl
@[simp] theorem emptyPacker_root : (emptyPacker s).root = s.root := rfl
@[simp] theorem emptyPacker_nodeCount : (emptyPacker s).nodeCount = s.nodeCount := rfl
@[simp] theorem emptyPacker_codeLen : (emptyPacker s).codeLen = s.codeLen := rfl
@[simp] theorem emptyPacker_codeBits : (emptyPacker s).codeBits = s.codeBits := rfl
@[simp] theorem emptyPacker_payloadBits : (emptyPacker s).payloadBits = s.payloadBits := rfl
@[simp] theorem emptyPacker_emitBits : (emptyPacker s).emitBits = s.emitBits := rfl
@[simp] theorem emptyPacker_obuf : (emptyPacker s).obuf = 0#8 := rfl
@[simp] theorem emptyPacker_ocnt : (emptyPacker s).ocnt = 0#3 := rfl
@[simp] theorem emptyPacker_statOrig : (emptyPacker s).statOrig = s.statOrig := rfl
@[simp] theorem emptyPacker_statPayload : (emptyPacker s).statPayload = s.statPayload := rfl
@[simp] theorem emptyPacker_statHeader : (emptyPacker s).statHeader = s.statHeader := rfl
@[simp] theorem emptyPacker_ibuf : (emptyPacker s).ibuf = s.ibuf := rfl
@[simp] theorem emptyPacker_ipos : (emptyPacker s).ipos = s.ipos := rfl
@[simp] theorem emptyPacker_cur : (emptyPacker s).cur = s.cur := rfl
@[simp] theorem emptyPacker_bitsLeft : (emptyPacker s).bitsLeft = s.bitsLeft := rfl
@[simp] theorem emptyPacker_xferIn : (emptyPacker s).xferIn = s.xferIn := rfl
@[simp] theorem emptyPacker_xferOut : (emptyPacker s).xferOut = s.xferOut := rfl
@[simp] theorem emptyPacker_pos : (emptyPacker s).pos = s.pos := rfl
@[simp] theorem emptyPacker_inCh : (emptyPacker s).inCh = s.inCh := rfl
@[simp] theorem emptyPacker_out : (emptyPacker s).out = s.out := rfl
@[simp] theorem emptyPacker_pushes : (emptyPacker s).pushes = s.pushes := rfl
@[simp] theorem emptyPacker_sinkFaults : (emptyPacker s).sinkFaults = s.sinkFaults := rfl
@[simp] theorem emptyPacker_sinkQuota : (emptyPacker s).sinkQuota = s.sinkQuota := rfl
@[simp] theorem emptyPacker_script : (emptyPacker s).script = s.script := rfl
@[simp] theorem emptyPacker_reads : (emptyPacker s).reads = s.reads := rfl
@[simp] theorem emptyPacker_draws : (emptyPacker s).draws = s.draws := rfl
@[simp] theorem emptyPacker_eager : (emptyPacker s).eager = s.eager := rfl

/-! ### openUnpacker -/

@[simp] theorem openUnpacker_phase : (openUnpacker s).phase = s.phase := rfl
@[simp] theorem openUnpacker_busy : (openUnpacker s).busy = s.busy := rfl
@[simp] theorem openUnpacker_empty : (openUnpacker s).empty = s.empty := rfl
@[simp] theorem openUnpacker_ovr : (openUnpacker s).ovr = s.ovr := rfl
@[simp] theorem openUnpacker_lastOp : (openUnpacker s).lastOp = s.lastOp := rfl
@[simp] theorem openUnpacker_errKind : (openUnpacker s).errKind = s.errKind := rfl
@[simp] theorem openUnpacker_errDetail : (openUnpacker s).errDetail = s.errDetail := rfl
@[simp] theorem openUnpacker_errInfo : (openUnpacker s).errInfo = s.errInfo := rfl
@[simp] theorem openUnpacker_total : (openUnpacker s).total = s.total := rfl
@[simp] theorem openUnpacker_freq : (openUnpacker s).freq = s.freq := rfl
@[simp] theorem openUnpacker_seqN : (openUnpacker s).seqN = s.seqN := rfl
@[simp] theorem openUnpacker_seqSym : (openUnpacker s).seqSym = s.seqSym := rfl
@[simp] theorem openUnpacker_seqCnt : (openUnpacker s).seqCnt = s.seqCnt := rfl
@[simp] theorem openUnpacker_node : (openUnpacker s).node = s.node := rfl
@[simp] theorem openUnpacker_root : (openUnpacker s).root = s.root := rfl
@[simp] theorem openUnpacker_nodeCount : (openUnpacker s).nodeCount = s.nodeCount := rfl
@[simp] theorem openUnpacker_codeLen : (openUnpacker s).codeLen = s.codeLen := rfl
@[simp] theorem openUnpacker_codeBits : (openUnpacker s).codeBits = s.codeBits := rfl
@[simp] theorem openUnpacker_payloadBits : (openUnpacker s).payloadBits = s.payloadBits := rfl
@[simp] theorem openUnpacker_emitBits : (openUnpacker s).emitBits = s.emitBits := rfl
@[simp] theorem openUnpacker_obuf : (openUnpacker s).obuf = s.obuf := rfl
@[simp] theorem openUnpacker_ocnt : (openUnpacker s).ocnt = s.ocnt := rfl
@[simp] theorem openUnpacker_statOrig : (openUnpacker s).statOrig = s.statOrig := rfl
@[simp] theorem openUnpacker_statPayload : (openUnpacker s).statPayload = s.statPayload := rfl
@[simp] theorem openUnpacker_statHeader : (openUnpacker s).statHeader = s.statHeader := rfl
@[simp] theorem openUnpacker_ibuf : (openUnpacker s).ibuf = 0#8 := rfl
@[simp] theorem openUnpacker_ipos : (openUnpacker s).ipos = 8#4 := rfl
@[simp] theorem openUnpacker_cur : (openUnpacker s).cur = s.cur := rfl
@[simp] theorem openUnpacker_bitsLeft : (openUnpacker s).bitsLeft = s.bitsLeft := rfl
@[simp] theorem openUnpacker_xferIn : (openUnpacker s).xferIn = s.xferIn := rfl
@[simp] theorem openUnpacker_xferOut : (openUnpacker s).xferOut = s.xferOut := rfl
@[simp] theorem openUnpacker_pos : (openUnpacker s).pos = s.pos := rfl
@[simp] theorem openUnpacker_inCh : (openUnpacker s).inCh = s.inCh := rfl
@[simp] theorem openUnpacker_out : (openUnpacker s).out = s.out := rfl
@[simp] theorem openUnpacker_pushes : (openUnpacker s).pushes = s.pushes := rfl
@[simp] theorem openUnpacker_sinkFaults : (openUnpacker s).sinkFaults = s.sinkFaults := rfl
@[simp] theorem openUnpacker_sinkQuota : (openUnpacker s).sinkQuota = s.sinkQuota := rfl
@[simp] theorem openUnpacker_script : (openUnpacker s).script = s.script := rfl
@[simp] theorem openUnpacker_reads : (openUnpacker s).reads = s.reads := rfl
@[simp] theorem openUnpacker_draws : (openUnpacker s).draws = s.draws := rfl
@[simp] theorem openUnpacker_eager : (openUnpacker s).eager = s.eager := rfl

/-! ### refillUnpacker -/

@[simp] theorem refillUnpacker_phase (v : Byte) : (refillUnpacker v s).phase = s.phase := rfl
@[simp] theorem refillUnpacker_busy (v : Byte) : (refillUnpacker v s).busy = s.busy := rfl
@[simp] theorem refillUnpacker_empty (v : Byte) : (refillUnpacker v s).empty = s.empty := rfl
@[simp] theorem refillUnpacker_ovr (v : Byte) : (refillUnpacker v s).ovr = s.ovr := rfl
@[simp] theorem refillUnpacker_lastOp (v : Byte) : (refillUnpacker v s).lastOp = s.lastOp := rfl
@[simp] theorem refillUnpacker_errKind (v : Byte) : (refillUnpacker v s).errKind = s.errKind := rfl
@[simp] theorem refillUnpacker_errDetail (v : Byte) : (refillUnpacker v s).errDetail = s.errDetail := rfl
@[simp] theorem refillUnpacker_errInfo (v : Byte) : (refillUnpacker v s).errInfo = s.errInfo := rfl
@[simp] theorem refillUnpacker_total (v : Byte) : (refillUnpacker v s).total = s.total := rfl
@[simp] theorem refillUnpacker_freq (v : Byte) : (refillUnpacker v s).freq = s.freq := rfl
@[simp] theorem refillUnpacker_seqN (v : Byte) : (refillUnpacker v s).seqN = s.seqN := rfl
@[simp] theorem refillUnpacker_seqSym (v : Byte) : (refillUnpacker v s).seqSym = s.seqSym := rfl
@[simp] theorem refillUnpacker_seqCnt (v : Byte) : (refillUnpacker v s).seqCnt = s.seqCnt := rfl
@[simp] theorem refillUnpacker_node (v : Byte) : (refillUnpacker v s).node = s.node := rfl
@[simp] theorem refillUnpacker_root (v : Byte) : (refillUnpacker v s).root = s.root := rfl
@[simp] theorem refillUnpacker_nodeCount (v : Byte) : (refillUnpacker v s).nodeCount = s.nodeCount := rfl
@[simp] theorem refillUnpacker_codeLen (v : Byte) : (refillUnpacker v s).codeLen = s.codeLen := rfl
@[simp] theorem refillUnpacker_codeBits (v : Byte) : (refillUnpacker v s).codeBits = s.codeBits := rfl
@[simp] theorem refillUnpacker_payloadBits (v : Byte) : (refillUnpacker v s).payloadBits = s.payloadBits := rfl
@[simp] theorem refillUnpacker_emitBits (v : Byte) : (refillUnpacker v s).emitBits = s.emitBits := rfl
@[simp] theorem refillUnpacker_obuf (v : Byte) : (refillUnpacker v s).obuf = s.obuf := rfl
@[simp] theorem refillUnpacker_ocnt (v : Byte) : (refillUnpacker v s).ocnt = s.ocnt := rfl
@[simp] theorem refillUnpacker_statOrig (v : Byte) : (refillUnpacker v s).statOrig = s.statOrig := rfl
@[simp] theorem refillUnpacker_statPayload (v : Byte) : (refillUnpacker v s).statPayload = s.statPayload := rfl
@[simp] theorem refillUnpacker_statHeader (v : Byte) : (refillUnpacker v s).statHeader = s.statHeader := rfl
@[simp] theorem refillUnpacker_ibuf (v : Byte) : (refillUnpacker v s).ibuf = v := rfl
@[simp] theorem refillUnpacker_ipos (v : Byte) : (refillUnpacker v s).ipos = 0#4 := rfl
@[simp] theorem refillUnpacker_cur (v : Byte) : (refillUnpacker v s).cur = s.cur := rfl
@[simp] theorem refillUnpacker_bitsLeft (v : Byte) : (refillUnpacker v s).bitsLeft = s.bitsLeft := rfl
@[simp] theorem refillUnpacker_xferIn (v : Byte) : (refillUnpacker v s).xferIn = s.xferIn := rfl
@[simp] theorem refillUnpacker_xferOut (v : Byte) : (refillUnpacker v s).xferOut = s.xferOut := rfl
@[simp] theorem refillUnpacker_pos (v : Byte) : (refillUnpacker v s).pos = s.pos := rfl
@[simp] theorem refillUnpacker_inCh (v : Byte) : (refillUnpacker v s).inCh = s.inCh := rfl
@[simp] theorem refillUnpacker_out (v : Byte) : (refillUnpacker v s).out = s.out := rfl
@[simp] theorem refillUnpacker_pushes (v : Byte) : (refillUnpacker v s).pushes = s.pushes := rfl
@[simp] theorem refillUnpacker_sinkFaults (v : Byte) : (refillUnpacker v s).sinkFaults = s.sinkFaults := rfl
@[simp] theorem refillUnpacker_sinkQuota (v : Byte) : (refillUnpacker v s).sinkQuota = s.sinkQuota := rfl
@[simp] theorem refillUnpacker_script (v : Byte) : (refillUnpacker v s).script = s.script := rfl
@[simp] theorem refillUnpacker_reads (v : Byte) : (refillUnpacker v s).reads = s.reads := rfl
@[simp] theorem refillUnpacker_draws (v : Byte) : (refillUnpacker v s).draws = s.draws := rfl
@[simp] theorem refillUnpacker_eager (v : Byte) : (refillUnpacker v s).eager = s.eager := rfl

/-! ### advanceUnpacker -/

@[simp] theorem advanceUnpacker_phase : (advanceUnpacker s).phase = s.phase := rfl
@[simp] theorem advanceUnpacker_busy : (advanceUnpacker s).busy = s.busy := rfl
@[simp] theorem advanceUnpacker_empty : (advanceUnpacker s).empty = s.empty := rfl
@[simp] theorem advanceUnpacker_ovr : (advanceUnpacker s).ovr = s.ovr := rfl
@[simp] theorem advanceUnpacker_lastOp : (advanceUnpacker s).lastOp = s.lastOp := rfl
@[simp] theorem advanceUnpacker_errKind : (advanceUnpacker s).errKind = s.errKind := rfl
@[simp] theorem advanceUnpacker_errDetail : (advanceUnpacker s).errDetail = s.errDetail := rfl
@[simp] theorem advanceUnpacker_errInfo : (advanceUnpacker s).errInfo = s.errInfo := rfl
@[simp] theorem advanceUnpacker_total : (advanceUnpacker s).total = s.total := rfl
@[simp] theorem advanceUnpacker_freq : (advanceUnpacker s).freq = s.freq := rfl
@[simp] theorem advanceUnpacker_seqN : (advanceUnpacker s).seqN = s.seqN := rfl
@[simp] theorem advanceUnpacker_seqSym : (advanceUnpacker s).seqSym = s.seqSym := rfl
@[simp] theorem advanceUnpacker_seqCnt : (advanceUnpacker s).seqCnt = s.seqCnt := rfl
@[simp] theorem advanceUnpacker_node : (advanceUnpacker s).node = s.node := rfl
@[simp] theorem advanceUnpacker_root : (advanceUnpacker s).root = s.root := rfl
@[simp] theorem advanceUnpacker_nodeCount : (advanceUnpacker s).nodeCount = s.nodeCount := rfl
@[simp] theorem advanceUnpacker_codeLen : (advanceUnpacker s).codeLen = s.codeLen := rfl
@[simp] theorem advanceUnpacker_codeBits : (advanceUnpacker s).codeBits = s.codeBits := rfl
@[simp] theorem advanceUnpacker_payloadBits : (advanceUnpacker s).payloadBits = s.payloadBits := rfl
@[simp] theorem advanceUnpacker_emitBits : (advanceUnpacker s).emitBits = s.emitBits := rfl
@[simp] theorem advanceUnpacker_obuf : (advanceUnpacker s).obuf = s.obuf := rfl
@[simp] theorem advanceUnpacker_ocnt : (advanceUnpacker s).ocnt = s.ocnt := rfl
@[simp] theorem advanceUnpacker_statOrig : (advanceUnpacker s).statOrig = s.statOrig := rfl
@[simp] theorem advanceUnpacker_statPayload : (advanceUnpacker s).statPayload = s.statPayload := rfl
@[simp] theorem advanceUnpacker_statHeader : (advanceUnpacker s).statHeader = s.statHeader := rfl
@[simp] theorem advanceUnpacker_ibuf : (advanceUnpacker s).ibuf = s.ibuf := rfl
@[simp] theorem advanceUnpacker_ipos : (advanceUnpacker s).ipos = s.ipos + 1 := rfl
@[simp] theorem advanceUnpacker_cur : (advanceUnpacker s).cur = s.cur := rfl
@[simp] theorem advanceUnpacker_bitsLeft : (advanceUnpacker s).bitsLeft = s.bitsLeft := rfl
@[simp] theorem advanceUnpacker_xferIn : (advanceUnpacker s).xferIn = s.xferIn := rfl
@[simp] theorem advanceUnpacker_xferOut : (advanceUnpacker s).xferOut = s.xferOut := rfl
@[simp] theorem advanceUnpacker_pos : (advanceUnpacker s).pos = s.pos := rfl
@[simp] theorem advanceUnpacker_inCh : (advanceUnpacker s).inCh = s.inCh := rfl
@[simp] theorem advanceUnpacker_out : (advanceUnpacker s).out = s.out := rfl
@[simp] theorem advanceUnpacker_pushes : (advanceUnpacker s).pushes = s.pushes := rfl
@[simp] theorem advanceUnpacker_sinkFaults : (advanceUnpacker s).sinkFaults = s.sinkFaults := rfl
@[simp] theorem advanceUnpacker_sinkQuota : (advanceUnpacker s).sinkQuota = s.sinkQuota := rfl
@[simp] theorem advanceUnpacker_script : (advanceUnpacker s).script = s.script := rfl
@[simp] theorem advanceUnpacker_reads : (advanceUnpacker s).reads = s.reads := rfl
@[simp] theorem advanceUnpacker_draws : (advanceUnpacker s).draws = s.draws := rfl
@[simp] theorem advanceUnpacker_eager : (advanceUnpacker s).eager = s.eager := rfl

/-! ### restOfScript -/

@[simp] theorem restOfScript_phase (r : List HostAction) : (restOfScript r s).phase = s.phase := rfl
@[simp] theorem restOfScript_busy (r : List HostAction) : (restOfScript r s).busy = s.busy := rfl
@[simp] theorem restOfScript_empty (r : List HostAction) : (restOfScript r s).empty = s.empty := rfl
@[simp] theorem restOfScript_ovr (r : List HostAction) : (restOfScript r s).ovr = s.ovr := rfl
@[simp] theorem restOfScript_lastOp (r : List HostAction) : (restOfScript r s).lastOp = s.lastOp := rfl
@[simp] theorem restOfScript_errKind (r : List HostAction) : (restOfScript r s).errKind = s.errKind := rfl
@[simp] theorem restOfScript_errDetail (r : List HostAction) : (restOfScript r s).errDetail = s.errDetail := rfl
@[simp] theorem restOfScript_errInfo (r : List HostAction) : (restOfScript r s).errInfo = s.errInfo := rfl
@[simp] theorem restOfScript_total (r : List HostAction) : (restOfScript r s).total = s.total := rfl
@[simp] theorem restOfScript_freq (r : List HostAction) : (restOfScript r s).freq = s.freq := rfl
@[simp] theorem restOfScript_seqN (r : List HostAction) : (restOfScript r s).seqN = s.seqN := rfl
@[simp] theorem restOfScript_seqSym (r : List HostAction) : (restOfScript r s).seqSym = s.seqSym := rfl
@[simp] theorem restOfScript_seqCnt (r : List HostAction) : (restOfScript r s).seqCnt = s.seqCnt := rfl
@[simp] theorem restOfScript_node (r : List HostAction) : (restOfScript r s).node = s.node := rfl
@[simp] theorem restOfScript_root (r : List HostAction) : (restOfScript r s).root = s.root := rfl
@[simp] theorem restOfScript_nodeCount (r : List HostAction) : (restOfScript r s).nodeCount = s.nodeCount := rfl
@[simp] theorem restOfScript_codeLen (r : List HostAction) : (restOfScript r s).codeLen = s.codeLen := rfl
@[simp] theorem restOfScript_codeBits (r : List HostAction) : (restOfScript r s).codeBits = s.codeBits := rfl
@[simp] theorem restOfScript_payloadBits (r : List HostAction) : (restOfScript r s).payloadBits = s.payloadBits := rfl
@[simp] theorem restOfScript_emitBits (r : List HostAction) : (restOfScript r s).emitBits = s.emitBits := rfl
@[simp] theorem restOfScript_obuf (r : List HostAction) : (restOfScript r s).obuf = s.obuf := rfl
@[simp] theorem restOfScript_ocnt (r : List HostAction) : (restOfScript r s).ocnt = s.ocnt := rfl
@[simp] theorem restOfScript_statOrig (r : List HostAction) : (restOfScript r s).statOrig = s.statOrig := rfl
@[simp] theorem restOfScript_statPayload (r : List HostAction) : (restOfScript r s).statPayload = s.statPayload := rfl
@[simp] theorem restOfScript_statHeader (r : List HostAction) : (restOfScript r s).statHeader = s.statHeader := rfl
@[simp] theorem restOfScript_ibuf (r : List HostAction) : (restOfScript r s).ibuf = s.ibuf := rfl
@[simp] theorem restOfScript_ipos (r : List HostAction) : (restOfScript r s).ipos = s.ipos := rfl
@[simp] theorem restOfScript_cur (r : List HostAction) : (restOfScript r s).cur = s.cur := rfl
@[simp] theorem restOfScript_bitsLeft (r : List HostAction) : (restOfScript r s).bitsLeft = s.bitsLeft := rfl
@[simp] theorem restOfScript_xferIn (r : List HostAction) : (restOfScript r s).xferIn = s.xferIn := rfl
@[simp] theorem restOfScript_xferOut (r : List HostAction) : (restOfScript r s).xferOut = s.xferOut := rfl
@[simp] theorem restOfScript_pos (r : List HostAction) : (restOfScript r s).pos = s.pos := rfl
@[simp] theorem restOfScript_inCh (r : List HostAction) : (restOfScript r s).inCh = s.inCh := rfl
@[simp] theorem restOfScript_out (r : List HostAction) : (restOfScript r s).out = s.out := rfl
@[simp] theorem restOfScript_pushes (r : List HostAction) : (restOfScript r s).pushes = s.pushes := rfl
@[simp] theorem restOfScript_sinkFaults (r : List HostAction) : (restOfScript r s).sinkFaults = s.sinkFaults := rfl
@[simp] theorem restOfScript_sinkQuota (r : List HostAction) : (restOfScript r s).sinkQuota = s.sinkQuota := rfl
@[simp] theorem restOfScript_script (r : List HostAction) : (restOfScript r s).script = r := rfl
@[simp] theorem restOfScript_reads (r : List HostAction) : (restOfScript r s).reads = s.reads := rfl
@[simp] theorem restOfScript_draws (r : List HostAction) : (restOfScript r s).draws = s.draws := rfl
@[simp] theorem restOfScript_eager (r : List HostAction) : (restOfScript r s).eager = s.eager := rfl

/-! ### The channel operations: what neither of them touches -/

@[simp] theorem popIn_phase (e : InElem) (r : List InElem) : (popIn e r s).phase = s.phase := by cases e <;> rfl
@[simp] theorem popIn_busy (e : InElem) (r : List InElem) : (popIn e r s).busy = s.busy := by cases e <;> rfl
@[simp] theorem popIn_empty (e : InElem) (r : List InElem) : (popIn e r s).empty = s.empty := by cases e <;> rfl
@[simp] theorem popIn_ovr (e : InElem) (r : List InElem) : (popIn e r s).ovr = s.ovr := by cases e <;> rfl
@[simp] theorem popIn_lastOp (e : InElem) (r : List InElem) : (popIn e r s).lastOp = s.lastOp := by cases e <;> rfl
@[simp] theorem popIn_errKind (e : InElem) (r : List InElem) : (popIn e r s).errKind = s.errKind := by cases e <;> rfl
@[simp] theorem popIn_errDetail (e : InElem) (r : List InElem) :
    (popIn e r s).errDetail = s.errDetail := by cases e <;> rfl
@[simp] theorem popIn_errInfo (e : InElem) (r : List InElem) : (popIn e r s).errInfo = s.errInfo := by cases e <;> rfl
@[simp] theorem popIn_total (e : InElem) (r : List InElem) : (popIn e r s).total = s.total := by cases e <;> rfl
@[simp] theorem popIn_freq (e : InElem) (r : List InElem) : (popIn e r s).freq = s.freq := by cases e <;> rfl
@[simp] theorem popIn_seqN (e : InElem) (r : List InElem) : (popIn e r s).seqN = s.seqN := by cases e <;> rfl
@[simp] theorem popIn_seqSym (e : InElem) (r : List InElem) : (popIn e r s).seqSym = s.seqSym := by cases e <;> rfl
@[simp] theorem popIn_seqCnt (e : InElem) (r : List InElem) : (popIn e r s).seqCnt = s.seqCnt := by cases e <;> rfl
@[simp] theorem popIn_node (e : InElem) (r : List InElem) : (popIn e r s).node = s.node := by cases e <;> rfl
@[simp] theorem popIn_root (e : InElem) (r : List InElem) : (popIn e r s).root = s.root := by cases e <;> rfl
@[simp] theorem popIn_nodeCount (e : InElem) (r : List InElem) :
    (popIn e r s).nodeCount = s.nodeCount := by cases e <;> rfl
@[simp] theorem popIn_codeLen (e : InElem) (r : List InElem) : (popIn e r s).codeLen = s.codeLen := by cases e <;> rfl
@[simp] theorem popIn_codeBits (e : InElem) (r : List InElem) :
    (popIn e r s).codeBits = s.codeBits := by cases e <;> rfl
@[simp] theorem popIn_payloadBits (e : InElem) (r : List InElem) :
    (popIn e r s).payloadBits = s.payloadBits := by cases e <;> rfl
@[simp] theorem popIn_emitBits (e : InElem) (r : List InElem) :
    (popIn e r s).emitBits = s.emitBits := by cases e <;> rfl
@[simp] theorem popIn_obuf (e : InElem) (r : List InElem) : (popIn e r s).obuf = s.obuf := by cases e <;> rfl
@[simp] theorem popIn_ocnt (e : InElem) (r : List InElem) : (popIn e r s).ocnt = s.ocnt := by cases e <;> rfl
@[simp] theorem popIn_statOrig (e : InElem) (r : List InElem) :
    (popIn e r s).statOrig = s.statOrig := by cases e <;> rfl
@[simp] theorem popIn_statPayload (e : InElem) (r : List InElem) :
    (popIn e r s).statPayload = s.statPayload := by cases e <;> rfl
@[simp] theorem popIn_statHeader (e : InElem) (r : List InElem) :
    (popIn e r s).statHeader = s.statHeader := by cases e <;> rfl
@[simp] theorem popIn_ibuf (e : InElem) (r : List InElem) : (popIn e r s).ibuf = s.ibuf := by cases e <;> rfl
@[simp] theorem popIn_ipos (e : InElem) (r : List InElem) : (popIn e r s).ipos = s.ipos := by cases e <;> rfl
@[simp] theorem popIn_cur (e : InElem) (r : List InElem) : (popIn e r s).cur = s.cur := by cases e <;> rfl
@[simp] theorem popIn_bitsLeft (e : InElem) (r : List InElem) :
    (popIn e r s).bitsLeft = s.bitsLeft := by cases e <;> rfl
@[simp] theorem popIn_xferOut (e : InElem) (r : List InElem) : (popIn e r s).xferOut = s.xferOut := by cases e <;> rfl
@[simp] theorem popIn_pos (e : InElem) (r : List InElem) : (popIn e r s).pos = s.pos := by cases e <;> rfl
@[simp] theorem popIn_inCh (e : InElem) (r : List InElem) : (popIn e r s).inCh = r := by cases e <;> rfl
@[simp] theorem popIn_out (e : InElem) (r : List InElem) : (popIn e r s).out = s.out := by cases e <;> rfl
@[simp] theorem popIn_pushes (e : InElem) (r : List InElem) : (popIn e r s).pushes = s.pushes := by cases e <;> rfl
@[simp] theorem popIn_sinkFaults (e : InElem) (r : List InElem) :
    (popIn e r s).sinkFaults = s.sinkFaults := by cases e <;> rfl
@[simp] theorem popIn_sinkQuota (e : InElem) (r : List InElem) :
    (popIn e r s).sinkQuota = s.sinkQuota := by cases e <;> rfl
@[simp] theorem popIn_script (e : InElem) (r : List InElem) : (popIn e r s).script = s.script := by cases e <;> rfl
@[simp] theorem popIn_reads (e : InElem) (r : List InElem) : (popIn e r s).reads = s.reads := by cases e <;> rfl
@[simp] theorem popIn_eager (e : InElem) (r : List InElem) : (popIn e r s).eager = s.eager := by cases e <;> rfl

@[simp] theorem pushOut_phase (b : Byte) (r : SinkAnswer) : (pushOut b r s).phase = s.phase := by cases r <;> rfl
@[simp] theorem pushOut_busy (b : Byte) (r : SinkAnswer) : (pushOut b r s).busy = s.busy := by cases r <;> rfl
@[simp] theorem pushOut_empty (b : Byte) (r : SinkAnswer) : (pushOut b r s).empty = s.empty := by cases r <;> rfl
@[simp] theorem pushOut_ovr (b : Byte) (r : SinkAnswer) : (pushOut b r s).ovr = s.ovr := by cases r <;> rfl
@[simp] theorem pushOut_lastOp (b : Byte) (r : SinkAnswer) : (pushOut b r s).lastOp = s.lastOp := by cases r <;> rfl
@[simp] theorem pushOut_errKind (b : Byte) (r : SinkAnswer) :
    (pushOut b r s).errKind = s.errKind := by cases r <;> rfl
@[simp] theorem pushOut_errDetail (b : Byte) (r : SinkAnswer) :
    (pushOut b r s).errDetail = s.errDetail := by cases r <;> rfl
@[simp] theorem pushOut_errInfo (b : Byte) (r : SinkAnswer) :
    (pushOut b r s).errInfo = s.errInfo := by cases r <;> rfl
@[simp] theorem pushOut_total (b : Byte) (r : SinkAnswer) : (pushOut b r s).total = s.total := by cases r <;> rfl
@[simp] theorem pushOut_freq (b : Byte) (r : SinkAnswer) : (pushOut b r s).freq = s.freq := by cases r <;> rfl
@[simp] theorem pushOut_seqN (b : Byte) (r : SinkAnswer) : (pushOut b r s).seqN = s.seqN := by cases r <;> rfl
@[simp] theorem pushOut_seqSym (b : Byte) (r : SinkAnswer) : (pushOut b r s).seqSym = s.seqSym := by cases r <;> rfl
@[simp] theorem pushOut_seqCnt (b : Byte) (r : SinkAnswer) : (pushOut b r s).seqCnt = s.seqCnt := by cases r <;> rfl
@[simp] theorem pushOut_node (b : Byte) (r : SinkAnswer) : (pushOut b r s).node = s.node := by cases r <;> rfl
@[simp] theorem pushOut_root (b : Byte) (r : SinkAnswer) : (pushOut b r s).root = s.root := by cases r <;> rfl
@[simp] theorem pushOut_nodeCount (b : Byte) (r : SinkAnswer) :
    (pushOut b r s).nodeCount = s.nodeCount := by cases r <;> rfl
@[simp] theorem pushOut_codeLen (b : Byte) (r : SinkAnswer) :
    (pushOut b r s).codeLen = s.codeLen := by cases r <;> rfl
@[simp] theorem pushOut_codeBits (b : Byte) (r : SinkAnswer) :
    (pushOut b r s).codeBits = s.codeBits := by cases r <;> rfl
@[simp] theorem pushOut_payloadBits (b : Byte) (r : SinkAnswer) :
    (pushOut b r s).payloadBits = s.payloadBits := by cases r <;> rfl
@[simp] theorem pushOut_emitBits (b : Byte) (r : SinkAnswer) :
    (pushOut b r s).emitBits = s.emitBits := by cases r <;> rfl
@[simp] theorem pushOut_obuf (b : Byte) (r : SinkAnswer) : (pushOut b r s).obuf = s.obuf := by cases r <;> rfl
@[simp] theorem pushOut_ocnt (b : Byte) (r : SinkAnswer) : (pushOut b r s).ocnt = s.ocnt := by cases r <;> rfl
@[simp] theorem pushOut_statOrig (b : Byte) (r : SinkAnswer) :
    (pushOut b r s).statOrig = s.statOrig := by cases r <;> rfl
@[simp] theorem pushOut_statPayload (b : Byte) (r : SinkAnswer) :
    (pushOut b r s).statPayload = s.statPayload := by cases r <;> rfl
@[simp] theorem pushOut_statHeader (b : Byte) (r : SinkAnswer) :
    (pushOut b r s).statHeader = s.statHeader := by cases r <;> rfl
@[simp] theorem pushOut_ibuf (b : Byte) (r : SinkAnswer) : (pushOut b r s).ibuf = s.ibuf := by cases r <;> rfl
@[simp] theorem pushOut_ipos (b : Byte) (r : SinkAnswer) : (pushOut b r s).ipos = s.ipos := by cases r <;> rfl
@[simp] theorem pushOut_cur (b : Byte) (r : SinkAnswer) : (pushOut b r s).cur = s.cur := by cases r <;> rfl
@[simp] theorem pushOut_bitsLeft (b : Byte) (r : SinkAnswer) :
    (pushOut b r s).bitsLeft = s.bitsLeft := by cases r <;> rfl
@[simp] theorem pushOut_xferIn (b : Byte) (r : SinkAnswer) : (pushOut b r s).xferIn = s.xferIn := by cases r <;> rfl
@[simp] theorem pushOut_pos (b : Byte) (r : SinkAnswer) : (pushOut b r s).pos = s.pos := by cases r <;> rfl
@[simp] theorem pushOut_inCh (b : Byte) (r : SinkAnswer) : (pushOut b r s).inCh = s.inCh := by cases r <;> rfl
@[simp] theorem pushOut_pushes (b : Byte) (r : SinkAnswer) :
    (pushOut b r s).pushes = s.pushes + 1 := by cases r <;> rfl
@[simp] theorem pushOut_sinkFaults (b : Byte) (r : SinkAnswer) :
    (pushOut b r s).sinkFaults = s.sinkFaults := by cases r <;> rfl
@[simp] theorem pushOut_sinkQuota (b : Byte) (r : SinkAnswer) :
    (pushOut b r s).sinkQuota = s.sinkQuota.map (· - 1) := by cases r <;> rfl
@[simp] theorem pushOut_script (b : Byte) (r : SinkAnswer) : (pushOut b r s).script = s.script := by cases r <;> rfl
@[simp] theorem pushOut_reads (b : Byte) (r : SinkAnswer) : (pushOut b r s).reads = s.reads := by cases r <;> rfl
@[simp] theorem pushOut_eager (b : Byte) (r : SinkAnswer) : (pushOut b r s).eager = s.eager := by cases r <;> rfl

@[simp] theorem popIn_byte_xferIn (v : Byte) (r : List InElem) :
    (popIn (.byte v) r s).xferIn = countTransfer s.xferIn s.draws := rfl
@[simp] theorem popIn_end_xferIn (r : List InElem) : (popIn .endOfFile r s).xferIn = s.xferIn := rfl
@[simp] theorem popIn_fault_xferIn (r : List InElem) : (popIn .fault r s).xferIn = s.xferIn := rfl
@[simp] theorem pushOut_ok_xferOut (b : Byte) : (pushOut b .ok s).xferOut = countTransfer s.xferOut s.draws := rfl
@[simp] theorem pushOut_fault_xferOut (b : Byte) : (pushOut b .fault s).xferOut = s.xferOut := rfl
@[simp] theorem pushOut_ok_out (b : Byte) : (pushOut b .ok s).out = s.out ++ [b] := rfl
@[simp] theorem pushOut_fault_out (b : Byte) : (pushOut b .fault s).out = s.out := rfl

/-! ### The state after reset -/

@[simp] theorem reset_phase : State.reset.phase = .idle := rfl
@[simp] theorem reset_busy : State.reset.busy = false := rfl
@[simp] theorem reset_empty : State.reset.empty = false := rfl
@[simp] theorem reset_ovr : State.reset.ovr = false := rfl
@[simp] theorem reset_lastOp : State.reset.lastOp = 0x00#8 := rfl
@[simp] theorem reset_errKind : State.reset.errKind = 0#8 := rfl
@[simp] theorem reset_errDetail : State.reset.errDetail = 0#8 := rfl
@[simp] theorem reset_errInfo : State.reset.errInfo = 0#64 := rfl
@[simp] theorem reset_total : State.reset.total = 0#64 := rfl
@[simp] theorem reset_freq : State.reset.freq = Bank.fill 256 0#64 := rfl
@[simp] theorem reset_seqN : State.reset.seqN = 0#9 := rfl
@[simp] theorem reset_seqSym : State.reset.seqSym = Bank.fill 256 0#8 := rfl
@[simp] theorem reset_seqCnt : State.reset.seqCnt = Bank.fill 256 0#64 := rfl
@[simp] theorem reset_node : State.reset.node = Bank.fill 511 unusedNode := rfl
@[simp] theorem reset_root : State.reset.root = Config.none := rfl
@[simp] theorem reset_nodeCount : State.reset.nodeCount = 0#10 := rfl
@[simp] theorem reset_codeLen : State.reset.codeLen = Bank.fill 256 0#8 := rfl
@[simp] theorem reset_codeBits : State.reset.codeBits = Bank.fill 256 0#256 := rfl
@[simp] theorem reset_payloadBits : State.reset.payloadBits = 0#64 := rfl
@[simp] theorem reset_emitBits : State.reset.emitBits = 0#64 := rfl
@[simp] theorem reset_obuf : State.reset.obuf = 0#8 := rfl
@[simp] theorem reset_ocnt : State.reset.ocnt = 0#3 := rfl
@[simp] theorem reset_statOrig : State.reset.statOrig = 0#64 := rfl
@[simp] theorem reset_statPayload : State.reset.statPayload = 0#64 := rfl
@[simp] theorem reset_statHeader : State.reset.statHeader = 0#64 := rfl
@[simp] theorem reset_ibuf : State.reset.ibuf = 0#8 := rfl
@[simp] theorem reset_ipos : State.reset.ipos = 8#4 := rfl
@[simp] theorem reset_cur : State.reset.cur = Config.none := rfl
@[simp] theorem reset_bitsLeft : State.reset.bitsLeft = 0#64 := rfl
@[simp] theorem reset_xferIn : State.reset.xferIn = 0#64 := rfl
@[simp] theorem reset_xferOut : State.reset.xferOut = 0#64 := rfl
@[simp] theorem reset_pos : State.reset.pos = .idle := rfl
@[simp] theorem reset_inCh : State.reset.inCh = [] := rfl
@[simp] theorem reset_out : State.reset.out = [] := rfl
@[simp] theorem reset_pushes : State.reset.pushes = 0 := rfl
@[simp] theorem reset_sinkFaults : State.reset.sinkFaults = [] := rfl
@[simp] theorem reset_sinkQuota : State.reset.sinkQuota = none := rfl
@[simp] theorem reset_script : State.reset.script = [] := rfl
@[simp] theorem reset_reads : State.reset.reads = [] := rfl
@[simp] theorem reset_draws : State.reset.draws = 0 := rfl
@[simp] theorem reset_eager : State.reset.eager = true := rfl

end Sys2Proof.Machine
end

