-- ==== Sys2Proof/Laws/Engine.lean ====
section
/-! SUPPORT. What one step of the core can do, and how a run of core steps ends: every proof about a running command
cites these and unfolds neither `coreStep` nor `run`. -/
namespace Sys2Proof.Machine

/-- Everything a step of the core can be: a pop or a push, and the program after it. -/
theorem coreStep_cases {s t : State} (h : coreStep s = some t) :
    (∃ e rest, awaited s = .pop ∧ s.inCh = e :: rest ∧ t = afterPop e (popIn e rest s)) ∨
    (∃ b r, awaited s = .push b ∧ sinkAnswer s = some r ∧ t = afterPush r (pushOut b r s)) := by
  unfold coreStep at h
  split at h
  · cases h
  · split at h
    · cases h
    · next e rest hin => exact .inl ⟨e, rest, ‹_›, hin, by simpa using h.symm⟩
  · split at h
    · cases h
    · next r hr => exact .inr ⟨_, r, ‹_›, hr, by simpa using h.symm⟩

theorem coreStep_pop {s : State} {e : InElem} {rest : List InElem} (hw : awaited s = .pop)
    (hin : s.inCh = e :: rest) : coreStep s = some (afterPop e (popIn e rest s)) := by
  simp only [coreStep, hw, hin]

theorem coreStep_push {s : State} {b : Byte} {r : SinkAnswer} (hw : awaited s = .push b)
    (hr : sinkAnswer s = some r) : coreStep s = some (afterPush r (pushOut b r s)) := by
  simp only [coreStep, hw, hr]

theorem coreStep_pop_empty {s : State} (hw : awaited s = .pop) (hin : s.inCh = []) : coreStep s = none := by
  simp only [coreStep, hw, hin]

theorem coreStep_idle {s : State} (hb : s.busy = false) : coreStep s = none := by
  simp [coreStep, awaited, hb]

/-- A step of the core is made by a running command. -/
theorem coreStep_busy {s t : State} (h : coreStep s = some t) : s.busy = true := by
  cases hb : s.busy with
  | true => rfl
  | false => rw [coreStep_idle hb] at h; cases h

/-! ### The bound on the core's steps goes down -/

theorem writeBits_inCh (p : List Bool) (s : State) : (writeBits p s).inCh = s.inCh := by
  induction p generalizing s with
  | nil => rfl
  | cons b p ih =>
    simp only [writeBits]
    split
    · rfl
    · rw [ih]

theorem writeBits_ahead (p : List Bool) (s : State) : pushesAhead (writeBits p s) ≤ p.length := by
  induction p generalizing s with
  | nil => simp [writeBits, pushesAhead]
  | cons b p ih =>
    simp only [writeBits]
    split
    · simp [pushesAhead]
    · exact (ih _).trans (by simp)

theorem payloadLoop_inCh (p : List Bool) (s : State) : (payloadLoop p s).inCh = s.inCh := by
  induction p generalizing s with
  | nil => simp only [payloadLoop, payloadEnd]; split <;> [split; skip] <;> simp
  | cons b p ih =>
    simp only [payloadLoop, payloadEnd]
    split
    · split <;> simp
    · split
      · simp
      · split
        · simp
        · rw [ih]; simp

theorem unreadBits_length (s : State) : (unreadBits s).length = 8 - s.ipos.toNat := by
  simp [unreadBits]

theorem pushesAhead_idle {s : State} (h : s.pos = .idle) : pushesAhead s = 0 := by
  simp [pushesAhead, h]

theorem payloadEnd_ahead (s : State) : pushesAhead (payloadEnd s) = 0 := by
  unfold payloadEnd
  split <;> exact pushesAhead_idle (by simp)

theorem advance_unread {s : State} {b : Bool} {bits : List Bool} (h : unreadBits s = b :: bits) (t : State)
    (hi : t.ipos = s.ipos + 1) (hb : t.ibuf = s.ibuf) : unreadBits t = bits := by
  have hlen := congrArg List.length h
  rw [unreadBits_length, List.length_cons] at hlen
  have hpos : (s.ipos + 1).toNat = s.ipos.toNat + 1 := by
    have := s.ipos.isLt
    rw [BitVec.toNat_add]; simp; omega
  unfold unreadBits at h ⊢
  rw [hi, hb, hpos, ← List.drop_drop, List.map_drop, List.map_drop]
  rw [List.map_drop] at h
  rw [h]; rfl

theorem payloadLoop_ahead (p : List Bool) (s : State) (h : unreadBits s = p) :
    pushesAhead (payloadLoop p s) ≤ p.length := by
  induction p generalizing s with
  | nil =>
    simp only [payloadLoop]
    split
    · simp [payloadEnd_ahead]
    · simp [pushesAhead]
  | cons b p ih =>
    simp only [payloadLoop]
    split
    · simp [payloadEnd_ahead]
    · split
      · rw [pushesAhead_idle (by simp)]; simp
      · split
        · simp only [pushesAhead, waitAt_pos, List.length_cons]
          rw [advance_unread h] <;> simp
        · exact (ih _ (advance_unread h _ (by simp) (by simp))).trans (by simp)

theorem codeword_length (s : State) (v : Byte) {p : List Bool} (h : lookupCode s v = some p) : p.length ≤ 255 := by
  unfold lookupCode at h
  split at h
  · cases h
  · have := (codeLenAt s v).isLt
    cases h; simp; omega

theorem emitFinish_ahead (s : State) : pushesAhead (emitFinish s) = 0 := by
  unfold emitFinish
  split <;> exact pushesAhead_idle (by simp)

theorem emitFinish_inCh (s : State) : (emitFinish s).inCh = s.inCh := by
  unfold emitFinish; split <;> simp

theorem abortEmit_bound (c : ErrorCause) (info : Word) (s : State) :
    (abortEmit c info s).inCh = s.inCh ∧ pushesAhead (abortEmit c info s) ≤ 1 := by
  simp only [abortEmit]
  split
  · exact ⟨by simp, by rw [pushesAhead_idle (by simp)]; omega⟩
  · exact ⟨by simp, by simp [pushesAhead]⟩

theorem payloadResume_bound (s : State) :
    (payloadResume s).inCh = s.inCh ∧ pushesAhead (payloadResume s) ≤ (unreadBits s).length :=
  ⟨payloadLoop_inCh _ _, payloadLoop_ahead _ _ rfl⟩

theorem afterPop_bound (e : InElem) (s : State) :
    (afterPop e s).inCh = s.inCh ∧ (awaited s = .pop → pushesAhead (afterPop e s) ≤ 255) := by
  have hidle : ∀ t : State, t.pos = .idle → pushesAhead t ≤ 255 := fun t h => by simp [pushesAhead_idle h]
  have hhdr : (hdrFailed e s).inCh = s.inCh ∧ pushesAhead (hdrFailed e s) ≤ 255 := by
    cases e <;> exact ⟨by simp [hdrFailed], hidle _ (by simp [hdrFailed])⟩
  have hlen : ∀ got v, (decLenByte got v s).inCh = s.inCh ∧ pushesAhead (decLenByte got v s) ≤ 255 := by
    intro got v; unfold decLenByte; split <;> simp [pushesAhead]
  unfold afterPop
  split
  · cases e <;> simp only [countElem]
    · split
      · exact ⟨by simp, fun _ => hidle _ (by simp)⟩
      · simp [pushesAhead]
    · exact ⟨by simp, fun _ => hidle _ (by simp)⟩
    · exact ⟨by simp, fun _ => hidle _ (by simp)⟩
  · cases e <;> simp only [emitElem]
    · split
      · exact ⟨(abortEmit_bound _ _ _).1, fun _ => (abortEmit_bound _ _ _).2.trans (by omega)⟩
      · next p hp =>
        split
        · exact ⟨(abortEmit_bound _ _ _).1, fun _ => (abortEmit_bound _ _ _).2.trans (by omega)⟩
        · exact ⟨writeBits_inCh _ _, fun _ => (writeBits_ahead _ _).trans (codeword_length s _ hp)⟩
    · split
      · exact ⟨emitFinish_inCh _, fun _ => by simp [emitFinish_ahead]⟩
      · simp [pushesAhead]
    · exact ⟨(abortEmit_bound _ _ _).1, fun _ => (abortEmit_bound _ _ _).2.trans (by omega)⟩
  · cases e
    · exact ⟨(hlen _ _).1, fun _ => (hlen _ _).2⟩
    · exact ⟨by simp [decFirstElem, emptyFile], fun _ => hidle _ (by simp [decFirstElem, emptyFile])⟩
    · exact ⟨by simp [decFirstElem], fun _ => hidle _ (by simp [decFirstElem])⟩
  · split
    · exact ⟨(hlen _ _).1, fun _ => (hlen _ _).2⟩
    all_goals exact ⟨hhdr.1, fun _ => hhdr.2⟩
  · split
    · unfold decCountByte decCountDone
      split
      · simp [pushesAhead]
      · split
        · exact ⟨by simp, fun _ => hidle _ (by simp)⟩
        · simp [pushesAhead]
    all_goals exact ⟨hhdr.1, fun _ => hhdr.2⟩
  · split
    · simp [pushesAhead]
    all_goals exact ⟨hhdr.1, fun _ => hhdr.2⟩
  · split
    · simp only [decCntByte, decEntryDone, decHeaderFinish]
      split
      · simp [pushesAhead]
      · split
        · simp [pushesAhead]
        · exact ⟨by simp, fun _ => hidle _ (by simp)⟩
    all_goals exact ⟨hhdr.1, fun _ => hhdr.2⟩
  · cases e <;> simp only [payloadElem]
    · refine ⟨by simp [payloadResume_bound], fun _ => (payloadResume_bound _).2.trans ?_⟩
      rw [unreadBits_length]; omega
    · exact ⟨by simp, fun _ => hidle _ (by simp)⟩
    · exact ⟨by simp, fun _ => hidle _ (by simp)⟩
  all_goals exact ⟨rfl, fun hw => by unfold awaited at hw; split at hw <;> simp_all⟩

theorem pushHeader_bound (bs : List Byte) (s : State) :
    (pushHeader bs s).inCh = s.inCh ∧ pushesAhead (pushHeader bs s) ≤ bs.length := by
  cases bs with
  | nil => exact ⟨by simp [pushHeader], by rw [pushesAhead_idle (by simp [pushHeader])]; omega⟩
  | cons b bs => simp [pushHeader, pushesAhead]

theorem afterPush_bound (r : SinkAnswer) (s : State) (b : Byte) (hw : awaited s = .push b) :
    (afterPush r s).inCh = s.inCh ∧ pushesAhead (afterPush r s) < pushesAhead s := by
  unfold afterPush
  split
  · next h =>
    cases r <;> simp only [headerAnswered]
    · have := pushHeader_bound ‹_› s
      exact ⟨this.1, by simp only [pushesAhead, h]; exact Nat.lt_succ_of_le this.2⟩
    · exact ⟨by simp, by rw [pushesAhead_idle (by simp)]; simp [pushesAhead, h]⟩
  · next h =>
    cases r <;> simp only [emitAnswered]
    · exact ⟨by simp [writeBits_inCh], by
        have := writeBits_ahead ‹_› (emptyPacker s)
        simp only [pushesAhead, h] at this ⊢; exact Nat.lt_succ_of_le this⟩
    · exact ⟨by simp, by rw [pushesAhead_idle (by simp)]; simp [pushesAhead, h]⟩
  · next h =>
    cases r <;> simp only [closeAnswered]
    · exact ⟨by simp [emitFinish_inCh], by rw [emitFinish_ahead]; simp [pushesAhead, h]⟩
    · exact ⟨by simp, by rw [pushesAhead_idle (by simp)]; simp [pushesAhead, h]⟩
  · next h =>
    exact ⟨by simp [abortAnswered], by rw [pushesAhead_idle (by simp [abortAnswered])]; simp [pushesAhead, h]⟩
  · next h =>
    cases r <;> simp only [payloadAnswered]
    · refine ⟨by simp [payloadResume_bound], lt_of_le_of_lt (payloadResume_bound _).2 ?_⟩
      simp [pushesAhead, h, unreadBits_length]
    · exact ⟨by simp, by rw [pushesAhead_idle (by simp)]; simp [pushesAhead, h]⟩
  all_goals (unfold awaited at hw; split at hw <;> simp_all)

theorem popIn_awaited (e : InElem) (rest : List InElem) (s : State) : awaited (popIn e rest s) = awaited s := by
  simp [awaited]

theorem pushOut_awaited (b : Byte) (r : SinkAnswer) (s : State) : awaited (pushOut b r s) = awaited s := by
  simp [awaited]

theorem coreStep_bound {s t : State} (h : coreStep s = some t) : interactionBound t < interactionBound s := by
  rcases coreStep_cases h with ⟨e, rest, hw, hin, rfl⟩ | ⟨b, r, hw, -, rfl⟩
  · obtain ⟨h1, h2⟩ := afterPop_bound e (popIn e rest s)
    have h2 := h2 (by rw [popIn_awaited]; exact hw)
    simp only [interactionBound, h1, hin, popIn_inCh, List.length_cons]; omega
  · obtain ⟨h1, h2⟩ := afterPush_bound r (pushOut b r s) b (by rw [pushOut_awaited]; exact hw)
    have h3 : pushesAhead (pushOut b r s) = pushesAhead s := by simp [pushesAhead, unreadBits]
    simp only [interactionBound, h1, pushOut_inCh]; omega

/-! ### Runs of core steps -/

theorem run_none {s : State} (h : coreStep s = none) (n : Nat) : run n s = s := by
  cases n <;> simp [run, h]

theorem run_some {s t : State} (h : coreStep s = some t) (n : Nat) : run (n + 1) s = run n t := by
  simp [run, h]

/-- What every step of the core keeps, a run keeps. -/
theorem run_induct {P : State → Prop} (hP : ∀ s t, P s → coreStep s = some t → P t) (n : Nat) (s : State)
    (h : P s) : P (run n s) := by
  induction n generalizing s with
  | zero => exact h
  | succ n ih =>
    cases hc : coreStep s with
    | none => rwa [run_none hc]
    | some t => rw [run_some hc]; exact ih t (hP s t h hc)

/-- A bound that is large enough changes nothing. -/
theorem run_enough (m n : Nat) (s : State) (hm : interactionBound s ≤ m) (hn : interactionBound s ≤ n) :
    run m s = run n s := by
  induction m generalizing n s with
  | zero =>
    cases hc : coreStep s with
    | none => rw [run_none hc, run_none hc]
    | some t => have := coreStep_bound hc; omega
  | succ m ih =>
    cases hc : coreStep s with
    | none => rw [run_none hc, run_none hc]
    | some t =>
      have := coreStep_bound hc
      obtain ⟨n, rfl⟩ : ∃ k, n = k + 1 := ⟨n - 1, by omega⟩
      rw [run_some hc, run_some hc]; exact ih n t (by omega) (by omega)

/-- The core runs on: `settle` may be taken one step at a time. -/
theorem settle_some {s t : State} (h : coreStep s = some t) : settle s = settle t := by
  have := coreStep_bound h
  obtain ⟨n, hn⟩ : ∃ k, interactionBound s = k + 1 := ⟨interactionBound s - 1, by omega⟩
  unfold settle
  rw [hn, run_some h]
  exact run_enough _ _ _ (by omega) (le_refl _)

/-- A run with a bound that is large enough ends where the core can make no step. -/
theorem run_stops (n : Nat) (s : State) (h : interactionBound s ≤ n) : coreStep (run n s) = none := by
  induction n generalizing s with
  | zero =>
    cases hc : coreStep s with
    | none => exact hc
    | some t => have := coreStep_bound hc; omega
  | succ n ih =>
    cases hc : coreStep s with
    | none => rw [run_none hc]; exact hc
    | some t =>
      have := coreStep_bound hc
      rw [run_some hc]; exact ih t (by omega)

theorem settle_stops (s : State) : coreStep (settle s) = none := run_stops _ s (le_refl _)

/-- Why the core can make no step. -/
theorem coreStep_none {s : State} (h : coreStep s = none) :
    s.busy = false ∨ s.pos = .idle ∨ (awaited s = .pop ∧ s.inCh = []) ∨
      ∃ b, awaited s = .push b ∧ sinkAnswer s = none := by
  unfold coreStep at h
  split at h
  · next hw =>
    unfold awaited at hw
    split at hw
    · split at hw <;> simp_all
    · exact .inl (by simpa using ‹¬ s.busy = true›)
  · next hw =>
    split at h
    · exact .inr (.inr (.inl ⟨hw, ‹_›⟩))
    · cases h
  · next b hw =>
    split at h
    · exact .inr (.inr (.inr ⟨b, hw, ‹_›⟩))
    · cases h

theorem settle_none {s : State} (h : coreStep s = none) : settle s = s := run_none h _

theorem settle_idle {s : State} (h : s.busy = false) : settle s = s := settle_none (coreStep_idle h)

theorem settle_induct {P : State → Prop} (hP : ∀ s t, P s → coreStep s = some t → P t) (s : State) (h : P s) :
    P (settle s) := run_induct hP _ s h

theorem proceed_induct {P : State → Prop} (hP : ∀ s t, P s → coreStep s = some t → P t) (s : State) (h : P s) :
    P (proceed s) := by
  unfold proceed; split
  · exact settle_induct hP s h
  · exact h

theorem proceed_eager {s : State} (h : s.eager = true) : proceed s = settle s := by simp [proceed, h]

end Sys2Proof.Machine
end

