-- ==== Sys2Proof/Laws/PerInstr.lean ====
section
/-! SUPPORT. What holds of every instruction as syntax, said per constructor: the shape of its word. -/

/-- The instruction is well-formed, and its word has a known opcode below an RSV field of zeros (30_encoding.md R72,
R74). -/
def Sys2Proof.Laws.EncodingShape.Statement (i : Sys2Proof.Instr) : Prop :=
  i.wellFormed = true ∧
  Sys2Proof.CmdFields.ofWord (Sys2Proof.encode i) = { opcode := Sys2Proof.opcodeOf i, rsv := 0#56 } ∧
  (Sys2Proof.CmdFields.ofWord (Sys2Proof.encode i)).wellFormed = true

theorem Sys2Proof.Laws.EncodingShape.nop : Sys2Proof.Laws.EncodingShape.Statement .nop := by
  unfold Sys2Proof.Laws.EncodingShape.Statement; decide
theorem Sys2Proof.Laws.EncodingShape.clear : Sys2Proof.Laws.EncodingShape.Statement .clear := by
  unfold Sys2Proof.Laws.EncodingShape.Statement; decide
theorem Sys2Proof.Laws.EncodingShape.encCount : Sys2Proof.Laws.EncodingShape.Statement .encCount := by
  unfold Sys2Proof.Laws.EncodingShape.Statement; decide
theorem Sys2Proof.Laws.EncodingShape.encBuild : Sys2Proof.Laws.EncodingShape.Statement .encBuild := by
  unfold Sys2Proof.Laws.EncodingShape.Statement; decide
theorem Sys2Proof.Laws.EncodingShape.encHeader : Sys2Proof.Laws.EncodingShape.Statement .encHeader := by
  unfold Sys2Proof.Laws.EncodingShape.Statement; decide
theorem Sys2Proof.Laws.EncodingShape.encEmit : Sys2Proof.Laws.EncodingShape.Statement .encEmit := by
  unfold Sys2Proof.Laws.EncodingShape.Statement; decide
theorem Sys2Proof.Laws.EncodingShape.decHeader : Sys2Proof.Laws.EncodingShape.Statement .decHeader := by
  unfold Sys2Proof.Laws.EncodingShape.Statement; decide
theorem Sys2Proof.Laws.EncodingShape.decBuild : Sys2Proof.Laws.EncodingShape.Statement .decBuild := by
  unfold Sys2Proof.Laws.EncodingShape.Statement; decide
theorem Sys2Proof.Laws.EncodingShape.decPayload : Sys2Proof.Laws.EncodingShape.Statement .decPayload := by
  unfold Sys2Proof.Laws.EncodingShape.Statement; decide
end

