-- ==== Sys2Proof/Laws/Step.lean ====
section
/-! SUPPORT. What issuing a command can do, what a step of the machine can be, and the one induction over steps that
every invariant uses. -/
namespace Sys2Proof.Machine

/-- The program each command runs once it is accepted. -/
def programOf : Instr → State → State
  | .nop => complete
  | .clear => fun t => complete (implicitClear t)
  | .encCount => fun t => proceed (startCount t)
  | .encBuild => encBuildProgram
  | .encHeader => fun t => proceed (startHeader t)
  | .encEmit => fun t => proceed (startEmit t)
  | .decHeader => fun t => proceed (startDecHeader t)
  | .decBuild => decBuildProgram
  | .decPayload => fun t => proceed (startPayload t)

/-- Every meaning is the issue of its command: none faults and none refuses. -/
theorem exec_issue (i : Instr) (s : State) : exec i s = .next (issue i (programOf i) s) := by
  cases i <;> rfl

theorem legal_in_error {i : Instr} (h : legalIn i .error = true) : runsInError i = true := by
  cases i <;> first | rfl | exact absurd h (by decide)

theorem issue_busy {i : Instr} {p : State → State} {s : State} (hb : s.busy = true) :
    issue i p s = dropCommand s := by simp [issue, hb]

theorem issue_ignored {i : Instr} {p : State → State} {s : State} (hb : s.busy = false) (he : s.phase = .error)
    (hi : runsInError i = false) : issue i p s = s := by simp [issue, hb, he, hi]

theorem issue_accepted {i : Instr} {p : State → State} {s : State} (hb : s.busy = false)
    (hl : legalIn i s.phase = true) : issue i p s = p (accept (opcodeOf i) s) := by
  have : ¬ (s.phase = .error ∧ runsInError i = false) := by
    rintro ⟨he, hi⟩
    rw [he] at hl
    rw [legal_in_error hl] at hi; cases hi
  simp [issue, hb, hl, this]

theorem issue_sequence {i : Instr} {p : State → State} {s : State} (hb : s.busy = false) (he : s.phase ≠ .error)
    (hl : legalIn i s.phase = false) : issue i p s = raise .sequence (encode i) s := by simp [issue, hb, hl, he]

/-- Everything the issue of a command can do. -/
theorem issue_cases (i : Instr) (p : State → State) (s : State) :
    (s.busy = true ∧ issue i p s = dropCommand s) ∨
    (s.busy = false ∧ s.phase = .error ∧ runsInError i = false ∧ issue i p s = s) ∨
    (s.busy = false ∧ s.phase ≠ .error ∧ legalIn i s.phase = false ∧
      issue i p s = raise .sequence (encode i) s) ∨
    (s.busy = false ∧ legalIn i s.phase = true ∧ issue i p s = p (accept (opcodeOf i) s)) := by
  cases hb : s.busy with
  | true => exact .inl ⟨rfl, issue_busy hb⟩
  | false =>
    cases hl : legalIn i s.phase with
    | true => exact .inr (.inr (.inr ⟨rfl, rfl, issue_accepted hb hl⟩))
    | false =>
      by_cases he : s.phase = .error
      · refine .inr (.inl ⟨rfl, he, ?_, issue_ignored hb he ?_⟩) <;>
          (rw [he] at hl; revert hl; cases i <;> simp [legalIn, runsInError])
      · exact .inr (.inr (.inl ⟨rfl, he, rfl, issue_sequence hb he hl⟩))

/-- A command that is legal where the core stands starts its program. -/
theorem exec_accepted {i : Instr} {s : State} (hb : s.busy = false) (hl : legalIn i s.phase = true) :
    exec i s = .next (programOf i (accept (opcodeOf i) s)) := by rw [exec_issue, issue_accepted hb hl]

/-- Everything the rejection of a word can do. -/
theorem rejectWord_cases (e : DecodeError) (w : Word) (s : State) :
    (s.busy = true ∧ rejectWord e w s = dropCommand s) ∨
    (s.busy = false ∧ s.phase = .error ∧ rejectWord e w s = s) ∨
    (s.busy = false ∧ s.phase ≠ .error ∧ ∃ c, (c = .illegalOpcode ∨ c = .reservedBits) ∧
      rejectWord e w s = raise c w s) := by
  cases hb : s.busy with
  | true => exact .inl ⟨rfl, by simp [rejectWord, hb]⟩
  | false =>
    by_cases he : s.phase = .error
    · exact .inr (.inl ⟨rfl, he, by simp [rejectWord, hb, he]⟩)
    · refine .inr (.inr ⟨rfl, he, ?_⟩)
      cases e
      · exact ⟨.illegalOpcode, .inl rfl, by simp [rejectWord, hb, he]⟩
      · exact ⟨.reservedBits, .inr rfl, by simp [rejectWord, hb, he]⟩

/-- The state with the host's, the channels' and the model's own fields replaced: what every host action but a CMD
write and a reset does. -/
def withHost (s : State) (inCh : List InElem) (out : List Byte) (sinkFaults : List Nat) (sinkQuota : Option Nat)
    (script : List HostAction) (reads : List ReadResult) (draws : Nat) (eager : Bool) : State :=
  { s with inCh := inCh, out := out, sinkFaults := sinkFaults, sinkQuota := sinkQuota, script := script
           reads := reads, draws := draws, eager := eager }

theorem restOfScript_withHost (rest : List HostAction) (s : State) :
    restOfScript rest s =
      withHost s s.inCh s.out s.sinkFaults s.sinkQuota rest s.reads s.draws s.eager := rfl

/-- Everything a step of the machine can be, when it answers a next state: a step of the core, a command word, a reset,
or a move of the host that leaves the core as it was. -/
theorem step_cases {s t : State} (h : step s = .next t) :
    coreStep s = some t ∨
    (∃ rest, s.script = .core :: rest ∧ coreStep (restOfScript rest s) = some t) ∨
    (∃ w rest i, s.script = .write Config.cmdOffset 8 w :: rest ∧ decodeCmd w = .ok i ∧
      t = issue i (programOf i) (restOfScript rest s)) ∨
    (∃ w rest e, s.script = .write Config.cmdOffset 8 w :: rest ∧ decodeCmd w = .error e ∧
      t = rejectWord e w (restOfScript rest s)) ∨
    (∃ rest, s.script = .reset :: rest ∧ t = hardwareReset (restOfScript rest s)) ∨
    (∃ c o f q sc rd d eg, t = withHost s c o f q sc rd d eg) := by
  have hwait : ∀ u, waitForCore s = .next u → coreStep s = some u := by
    intro u hu
    unfold waitForCore at hu
    split at hu <;> cases hu
    assumption
  have hsame : ∀ rest, ∃ c o f q sc rd d eg, restOfScript rest s = withHost s c o f q sc rd d eg :=
    fun rest => ⟨_, _, _, _, _, _, _, _, restOfScript_withHost rest s⟩
  unfold step nextMove at h
  split at h
  · split at h
    · exact .inl (hwait t h)
    · cases h
      exact .inr (.inr (.inr (.inr (.inr ⟨s.inCh, s.out, s.sinkFaults, s.sinkQuota, s.script, s.reads, s.draws,
        s.eager, rfl⟩))))
  · next a rest hs =>
    cases a <;> simp only [hostMove] at h
    case write offset size value =>
      split at h
      · next hok =>
        unfold memWrite at h
        split at h
        · next hoff =>
          subst hoff
          have hsize : size = 8 := by simp [accessWellFormed] at hok; exact hok.1.1
          subst hsize
          unfold onCmdWrite at h
          split at h
          · next i hi =>
            rw [exec_issue] at h; cases h
            exact .inr (.inr (.inl ⟨value, rest, i, hs, hi, rfl⟩))
          · next e he => cases h; exact .inr (.inr (.inr (.inl ⟨value, rest, e, hs, he, rfl⟩)))
        · cases h; exact .inr (.inr (.inr (.inr (.inr (hsame rest)))))
      · cases h
    case read offset size =>
      split at h
      · cases h
        unfold memRead
        split <;> exact .inr (.inr (.inr (.inr (.inr ⟨_, _, _, _, _, _, _, _, rfl⟩))))
      · cases h
    case drainIn =>
      split at h <;> cases h
      exact .inr (.inr (.inr (.inr (.inr ⟨_, _, _, _, _, _, _, _, rfl⟩))))
    case drainFile =>
      split at h <;> cases h
      exact .inr (.inr (.inr (.inr (.inr ⟨_, _, _, _, _, _, _, _, rfl⟩))))
    case wait =>
      split at h
      · exact .inl (hwait t h)
      · cases h; exact .inr (.inr (.inr (.inr (.inr (hsame rest)))))
    case core =>
      cases hc : coreStep (restOfScript rest s) with
      | none => rw [hc] at h; cases h; exact .inr (.inr (.inr (.inr (.inr (hsame rest)))))
      | some u => rw [hc] at h; cases h; exact .inr (.inl ⟨rest, hs, hc⟩)
    case reset => cases h; exact .inr (.inr (.inr (.inr (.inl ⟨rest, hs, rfl⟩))))
    all_goals (cases h; exact .inr (.inr (.inr (.inr (.inr ⟨_, _, _, _, _, _, _, _, rfl⟩)))))

/-- The induction every invariant uses: what the host cannot disturb, and each step of the core, each issued command,
each rejected word and a reset keep, every step keeps. -/
theorem step_keeps {P : State → Prop}
    (hhost : ∀ s c o f q sc rd d eg, P s → P (withHost s c o f q sc rd d eg))
    (hcore : ∀ s t, P s → coreStep s = some t → P t)
    (hissue : ∀ i s, P s → P (issue i (programOf i) s))
    (hreject : ∀ e w s, P s → P (rejectWord e w s))
    (hreset : ∀ s, P s → P (hardwareReset s))
    {s t : State} (h : P s) (hst : step s = .next t) : P t := by
  have hrest : ∀ rest, P (restOfScript rest s) := fun rest => by
    rw [restOfScript_withHost]; exact hhost _ _ _ _ _ _ _ _ _ h
  rcases step_cases hst with hc | ⟨rest, -, hc⟩ | ⟨_, rest, i, -, -, rfl⟩ | ⟨w, rest, e, -, -, rfl⟩ | ⟨rest, -, rfl⟩ |
    ⟨c, o, f, q, sc, rd, d, eg, rfl⟩
  · exact hcore _ _ h hc
  · exact hcore _ _ (hrest rest) hc
  · exact hissue _ _ (hrest rest)
  · exact hreject _ _ _ (hrest rest)
  · exact hreset _ (hrest rest)
  · exact hhost _ _ _ _ _ _ _ _ _ h

end Sys2Proof.Machine
end

