-- ==== Sys2Proof/Tests/Slice0.lean ====
section
/-! SUPPORT. Small checks of the model against spec/95_test_vectors.md, ill-formed terms that the checks refuse, and for
every statement that has hypotheses a concrete state and operands that meet all of them. -/
namespace Sys2Proof.Tests
open Sys2Proof.Machine

/-! ### Helpers -/

/-- The next state of an outcome; the reset state where there is none. -/
def after (o : Host.Outcome State Fault Refusal) : State :=
  match o with
  | .next t => t
  | .fault _ => State.reset
  | .refused _ => State.reset

theorem exec_after (i : Instr) (s : State) : exec i s = .next (after (exec i s)) := by cases i <;> rfl

/-- The reset state with any IN admits a command of PHASE IDLE. -/
theorem ready_idle {i : Instr} {c : List InElem} (h : Phase.idle ∈ admittedPhases i) :
    Ready i { State.reset with inCh := c } := ⟨rfl, h⟩

/-- The core in a PHASE, all else as after reset. -/
def inPhase (p : Phase) : State := { State.reset with phase := p }

/-- The core with a running command at a position. -/
def running (p : Phase) (at_ : Position) : State := { State.reset with phase := p, busy := true, pos := at_ }

/-- The host is about to do one thing. -/
def hostDoes (a : HostAction) (s : State) : State := { s with script := [a] }

/-- 'a' and 'b' counted once each, in PHASE COUNTED. -/
def abCounted : State :=
  { State.reset with
    phase := .counted, total := 2#64
    freq := bankSet (bankSet (Bank.fill 256 0#64) 0x61 1#64) 0x62 1#64 }

/-- The frequency sequence of T-P4, (61, 1), (62, 1). -/
def abSeq : State :=
  { State.reset with
    seqN := 2#9
    seqSym := bankSet (bankSet (Bank.fill 256 0#8) 0 0x61#8) 1 0x62#8
    seqCnt := bankSet (bankSet (Bank.fill 256 0#64) 0 1#64) 1 1#64 }

/-- The sequence (61, 1), (62, 1), (63, 5). -/
def abcSeq : State := { setSeqEntry 2 0x63#8 5#64 abSeq with seqN := 3#9 }

/-- T-P4 in PHASE BUILT, its code table written out: a "0", b "1". -/
def abBuilt : State :=
  { abSeq with
    phase := .built, payloadBits := 2#64
    codeLen := bankSet (bankSet (Bank.fill 256 0#8) 0x61 1#8) 0x62 1#8
    codeBits := bankSet (Bank.fill 256 0#256) 0x62 1#256 }

/-- T-P4 in PHASE HEADED, with the second scan in IN. -/
def abHeaded : State :=
  { abBuilt with phase := .headed, inCh := fileOf [0x61#8, 0x62#8] ++ [.endOfFile] }

/-- T-P4's tree written out, in PHASE DEC_BUILT. -/
def abTree : State :=
  { abSeq with
    phase := .decBuilt, payloadBits := 2#64, root := 2#9, nodeCount := 3#10
    node := bankSet (bankSet (bankSet (Bank.fill 511 unusedNode)
      0 { type := .leaf, sym := 0x61, zero := 0x1FF, one := 0x1FF, weight := 1 })
      1 { type := .leaf, sym := 0x62, zero := 0x1FF, one := 0x1FF, weight := 1 })
      2 { type := .internal, sym := 0, zero := 0, one := 1, weight := 2 } }

/-- T-P2's single-symbol tree written out, in PHASE DEC_BUILT. -/
def zTree : State :=
  { State.reset with
    phase := .decBuilt, payloadBits := 3#64, root := 1#9, nodeCount := 2#10
    node := bankSet (bankSet (Bank.fill 511 unusedNode)
      0 { type := .leaf, sym := 0x7A, zero := 0x1FF, one := 0x1FF, weight := 3 })
      1 { type := .internal, sym := 0, zero := 0, one := 0x1FF, weight := 3 } }

/-- Three values counted 2^63 times each: their code length does not fit 64 bits. -/
def hugeCounted : State :=
  { State.reset with
    phase := .counted
    freq := bankSet (bankSet (bankSet (Bank.fill 256 0#64) 1 0x8000000000000000#64) 2 0x8000000000000000#64)
      3 0x8000000000000000#64 }

/-! ### Ill-formed terms are refused (R64, R75) -/

theorem test_wf_unknown_opcode : (CmdFields.mk 0x02#8 0#56).wellFormed = false := by decide
theorem test_wf_rsv_set : (CmdFields.mk 0x10#8 1#56).wellFormed = false := by decide
theorem test_wf_good_fields : (CmdFields.mk 0x22#8 0#56).wellFormed = true := by decide
theorem test_wf_access_narrow : accessWellFormed 0x008 4 = false := by decide
theorem test_wf_access_misaligned : accessWellFormed 0x00C 8 = false := by decide
theorem test_wf_access_outside : accessWellFormed 0x8000 8 = false := by decide
theorem test_wf_access_last : accessWellFormed 0x7FF8 8 = true := by decide
theorem test_wf_instr : Instr.encEmit.wellFormed = true := by decide

/-! ### Decoding, each word written out bit by bit from R72 and R74 -/

theorem test_decode_clear : decodeCmd (0#56 ++ 0b00000001#8) = .ok .clear := by decide
theorem test_decode_encEmit : decodeCmd (0#56 ++ 0b00010011#8) = .ok .encEmit := by decide
theorem test_decode_decPayload : decodeCmd (0#56 ++ 0b00100010#8) = .ok .decPayload := by decide
theorem test_decode_both_wrong : decodeCmd 0x102#64 = .error .illegalOpcode := by decide
theorem test_decode_rsv : decodeCmd 0x110#64 = .error .reservedBits := by decide
theorem test_decode_table_word : decodeTableWord 64 0x11 = some .encBuild := by decide
theorem test_decode_table_word_long : decodeTableWord 72 (2 ^ 64 + 0x11) = none := by decide

/-! ### Worked values of the spec -/

/-- R108's example. -/
theorem test_nop_keeps_phase : (after (exec .nop (inPhase .decDone))).phase = .decDone := by decide
/-- R109's example. -/
theorem test_clear_leaves_error : (after (exec .clear (raise .payloadTruncated 1#64 State.reset))).errKind = 0#8 := by
  decide
/-- T-F3. -/
theorem test_encCount_counts :
    let t := after (exec .encCount { State.reset with inCh := fileOf [0x00#8, 0x00#8, 0xFF#8] ++ [.endOfFile] })
    (freqAt t 0x00#8, freqAt t 0xFF#8, t.total, t.phase) = (2#64, 1#64, 3#64, .counted) := by decide +kernel
/-- T-F4. -/
theorem test_encCount_fault :
    let t := after (exec .encCount { State.reset with inCh := fileOf [0x01#8, 0x02#8] ++ [.fault] })
    (errCodeWord t, t.errInfo, t.total) = (0x0103#64, 2#64, 2#64) := by decide +kernel
/-- T-P4's tree. -/
theorem test_encBuild_two :
    1 ≤ (after (exec .encBuild abCounted)).seqN.toNat ∧ (after (exec .encBuild abCounted)).payloadBits = 2#64 ∧
    nodeWord0 (nodeAt (after (exec .encBuild abCounted)) 2#9) = 0x0000000100000002#64 := by
  decide +kernel
/-- T-E15. -/
theorem test_encBuild_overflow :
    (after (exec .encBuild hugeCounted)).phase = .error ∧
    errCodeWord (after (exec .encBuild hugeCounted)) = 0x0206#64 := by decide +kernel
/-- T-P4's header. -/
theorem test_encHeader_two :
    (after (exec .encHeader abBuilt)).out =
      [2, 0, 0, 0, 0, 0, 0, 0, 2, 0, 0, 0, 0, 0, 0, 0, 0x61, 1, 0, 0, 0, 0, 0, 0, 0, 0x62, 1, 0, 0, 0, 0, 0, 0, 0] := by
  decide +kernel
/-- T-E4's fault at push 5. -/
theorem test_encHeader_fault :
    let t := after (exec .encHeader { abBuilt with sinkFaults := [5] })
    (errCodeWord t, t.errInfo, t.statHeader) = (0x0102#64, 5#64, 0#64) := by decide +kernel
/-- T-P4's payload. -/
theorem test_encEmit_two :
    let t := after (exec .encEmit abHeaded)
    (t.out, t.statPayload, t.phase) = ([0x02#8], 1#64, .encDone) := by decide +kernel
/-- T-E6's error, a byte with no codeword. -/
theorem test_encEmit_no_codeword :
    let t := after (exec .encEmit { abHeaded with inCh := fileOf [0x62#8, 0x65#8] })
    (t.out, errCodeWord t, t.errInfo) = ([0x01#8], 0x0105#64, 0x65#64) := by decide +kernel
/-- T-P2's header. -/
theorem test_decHeader_one :
    let t := after (exec .decHeader { State.reset with
      inCh := fileOf [3, 0, 0, 0, 0, 0, 0, 0, 1, 0, 0, 0, 0, 0, 0, 0, 0x7A, 3, 0, 0, 0, 0, 0, 0, 0] })
    (t.payloadBits, t.seqN, seqSymAt t 0, seqCntAt t 0, t.statHeader) = (3#64, 1#9, 0x7A#8, 3#64, 25#64) := by
  decide +kernel
/-- T-S7: the empty compressed file. -/
theorem test_decHeader_empty :
    let t := after (exec .decHeader { State.reset with inCh := [.endOfFile] })
    (t.empty, t.phase, t.statHeader) = (true, .decHeaded, 0#64) := by decide +kernel
/-- T-P4's tree, rebuilt. -/
theorem test_decBuild_two :
    let t := after (exec .decBuild { abSeq with phase := .decHeaded })
    (t.root, nodeWord0 (nodeAt t 0#9), nodeWord1 (nodeAt t 2#9)) = (2#9, 0x000001FF01FF6101#64, 2#64) := by
  decide +kernel
/-- T-T5: ties broken by index, a leaf before an internal node and an older internal node before a newer one. -/
theorem test_decBuild_ties :
    let s := [2#64, 2#64, 1#64, 1#64, 2#64].zipIdx.foldl
      (fun s (c : Word × Nat) => setSeqEntry c.2 (BitVec.ofNat 8 c.2) c.1 s) (inPhase .decHeaded)
    let t := after (exec .decBuild { s with seqN := 5#9 })
    [5#9, 6#9, 7#9, 8#9].map (fun k => ((nodeAt t k).zero, (nodeAt t k).one, (nodeAt t k).weight)) =
      [(2#9, 3#9, 2#72), (0#9, 1#9, 4#72), (4#9, 5#9, 4#72), (6#9, 7#9, 8#72)] := by decide +kernel
/-- T-S1 on T-P4. -/
theorem test_decPayload_two :
    let t := after (exec .decPayload { abTree with inCh := [.byte 0x02, .endOfFile] })
    (t.out, t.statOrig, t.statPayload, t.inCh) = ([0x61#8, 0x62#8], 2#64, 1#64, [.endOfFile]) := by decide +kernel
/-- R140's example: a 1 bit at ROOT of a single-symbol tree. -/
theorem test_decPayload_dead_end :
    let t := after (exec .decPayload { zTree with inCh := [.byte 0x02] })
    (t.out, errCodeWord t, t.errInfo) = ([0x7A#8], 0x0604#64, 1#64) := by decide +kernel

/-- R231: the drain of one file leaves the next one. -/
theorem test_drain_file :
    (match step (hostDoes .drainFile { State.reset with inCh := [.byte 7, .endOfFile, .byte 9, .endOfFile] }) with
      | .next t => t.inCh
      | _ => []) = [.byte 9, .endOfFile] := by decide
/-- R60: a reserved offset reads 0 while a command runs. -/
theorem test_read_reserved_busy :
    (match step (hostDoes (.read 0x7F8 8) (running .idle .countPop)) with
      | .next t => t.reads
      | _ => []) = [{ offset := 0x7F8, value := 0 }] := by decide

/-! ### Witnesses: the hypotheses of each statement can be met -/

theorem witness_DecodeTotal :
    ((0xFF#64).extractLsb' 0 8 ∉ knownOpcodes) ∧
    ((0x110#64).extractLsb' 0 8 ∈ knownOpcodes ∧ (0x110#64).extractLsb' 8 56 ≠ 0#56) ∧
    ((0x22#64).extractLsb' 0 8 ∈ knownOpcodes ∧ (0x22#64).extractLsb' 8 56 = 0#56) := by decide

theorem witness_StepRunsDecoded :
    (hostDoes (.write Config.cmdOffset 8 0x10#64) State.reset).script = [.write Config.cmdOffset 8 0x10#64] ∧
    decodeCmd 0x10#64 = .ok .encCount ∧ decodeTableWord 64 0x10 = some .encCount := by decide

theorem witness_IllegalWordRejected :
    (∀ i, 0x02#64 ≠ encode i) ∧ (∀ i, 0x110#64 ≠ encode i) ∧
    (State.reset.busy = false ∧ State.reset.phase ≠ .error) ∧
    ((inPhase .error).busy = false ∧ (inPhase .error).phase = .error) ∧ (running .idle .countPop).busy = true :=
  ⟨fun i => by cases i <;> decide, fun i => by cases i <;> decide, by decide, by decide, by decide⟩

theorem witness_BusyWriteDropped :
    (running .idle .countPop).busy = true ∧
    ∃ s t : State, step s = .next t ∧ s.ovr = true ∧ t.ovr = false :=
  ⟨rfl, { State.reset with ovr := true, script := [.reset] }, _, rfl, rfl, rfl⟩

theorem witness_BusyWriteDropped_clear :
    ∃ s t : State, step s = .next t ∧ s.ovr = true ∧ t.ovr = false ∧
      s.script = [.write Config.cmdOffset 8 (encode .clear)] :=
  ⟨{ State.reset with ovr := true, script := [.write Config.cmdOffset 8 (encode .clear)] }, _, rfl, rfl, rfl, rfl⟩

theorem witness_ErrorIgnoresCommands :
    (inPhase .error).busy = false ∧ (inPhase .error).phase = .error ∧ 0x10#64 ≠ 0#64 ∧ 0x10#64 ≠ 1#64 := by decide

theorem witness_SequenceError :
    State.reset.busy = false ∧ State.reset.phase ≠ .error ∧ State.reset.phase ∉ admittedPhases .decPayload := by decide

theorem witness_PhaseTable :
    ∃ t, Ready .nop State.reset ∧ exec .nop State.reset = .next t ∧ t.busy = false ∧ t.phase ≠ .error :=
  ⟨_, ⟨rfl, by decide⟩, rfl, rfl, by decide⟩

theorem witness_RunsUntilHost :
    ∃ t, Ready .encCount State.reset ∧ State.reset.eager = true ∧ exec .encCount State.reset = .next t :=
  ⟨_, ⟨rfl, by decide⟩, rfl, rfl⟩

/-- The four ways a step of the core can go at a WAIT, a WAIT that ends, and the action `core` both ways. -/
theorem witness_RunsUntilHost_steps :
    (∃ s t : State, s.busy = true ∧ s.script = [] ∧ coreStep s = some t) ∧
    (∃ s : State, s.busy = true ∧ s.script = .wait :: [] ∧ coreStep s = none ∧ awaited s = .pop) ∧
    (∃ s : State, s.busy = true ∧ s.script = [] ∧ coreStep s = none ∧ awaited s = .push 0x61#8) ∧
    (∃ s : State, s.busy = true ∧ s.script = [] ∧ coreStep s = none ∧ awaited s = .nothing) ∧
    (State.reset.busy = false ∧ State.reset.script = []) ∧
    ((hostDoes .wait State.reset).busy = false ∧ (hostDoes .wait State.reset).script = .wait :: []) ∧
    (∃ s t : State, s.script = .core :: [] ∧ coreStep { s with script := [] } = some t) ∧
    (∃ s : State, s.script = .core :: [] ∧ coreStep { s with script := [] } = none) :=
  ⟨⟨{ running .idle .countPop with inCh := [.byte 1#8] }, _, rfl, rfl, rfl⟩,
   ⟨hostDoes .wait (running .idle .countPop), rfl, rfl, rfl, rfl⟩,
   ⟨{ running .decBuilt (.payloadPush 0x61#8) with sinkQuota := some 0 }, rfl, rfl, rfl, rfl⟩,
   ⟨running .idle .idle, rfl, rfl, rfl, rfl⟩, ⟨rfl, rfl⟩, ⟨rfl, rfl⟩,
   ⟨hostDoes .core { running .idle .countPop with inCh := [.byte 1#8] }, _, rfl, rfl⟩,
   hostDoes .core State.reset, rfl, rfl⟩

theorem witness_NopCompletes : State.reset.busy = false := rfl
theorem witness_ClearCompletes : (inPhase .error).busy = false := rfl

theorem witness_ResetStep : (hostDoes .reset (running .idle .countPop)).script = .reset :: [] := rfl

theorem witness_ErrorSticky :
    (∃ s t : State, s.phase = .error ∧ s.busy = false ∧ step s = .next t) ∧
    (∃ s t : State, s.phase = .error ∧ s.busy = true ∧ s.pos = .abortClose ∧ step s = .next t) :=
  ⟨⟨inPhase .error, _, rfl, rfl, rfl⟩, running .error .abortClose, _, rfl, rfl, rfl, rfl⟩

theorem witness_WindowMap : (510#9).toNat ≤ 510 ∧ (255 : Nat) < 256 ∧ (3 : Nat) < 4 ∧
    0x098 ≤ 0x7F8 ∧ 0x7F8 % 8 = 0 ∧ 0x3FF0 ≤ 0x3FF8 ∧ 0x3FF8 % 8 = 0 ∧ 0x4800 ≤ 0x5FF8 ∧ 0x5FF8 % 8 = 0 := by decide

theorem witness_ReadsExact :
    (hostDoes (.read 0x7FF8 8) State.reset).script = [.read 0x7FF8 8] ∧ 0x7FF8 % 8 = 0 ∧ 0x7FF8 < 0x8000 ∧
    (hostDoes (.read 0x7FF8 8) State.reset).busy = false ∧
    (hostDoes (.read 0x018 8) (running .idle .countPop)).script = [.read 0x018 8] ∧
    0x018 ∈ [0x000, 0x010, 0x018, 0x020] ∧ 0x018 % 8 = 0 ∧ 0x018 < 0x8000 := by decide

/-- The ends of the three reserved ranges, while a command runs. -/
theorem witness_ReadsExact_reserved :
    ∀ o ∈ [0x098, 0x7F8, 0x3FF0, 0x3FF8, 0x4800, 0x5FF8],
      (hostDoes (.read o 8) (running .idle .countPop)).script = .read o 8 :: [] ∧ o % 8 = 0 ∧ o < 0x8000 ∧
      (0x098 ≤ o ∧ o ≤ 0x7F8 ∨ 0x3FF0 ≤ o ∧ o ≤ 0x3FF8 ∨ 0x4800 ≤ o ∧ o ≤ 0x5FF8) := by decide

theorem witness_WindowAccesses :
    (hostDoes (.write 0x008 8 1#64) State.reset).script = [.write 0x008 8 1#64] ∧ 0x008 % 8 = 0 ∧ 0x008 < 0x8000 ∧
    (hostDoes (.write 0x010 8 1#64) State.reset).script = [.write 0x010 8 1#64] ∧ 0x010 ≠ 0x008 ∧
    (hostDoes (.read 0x8000 8) State.reset).script = [.read 0x8000 8] ∧ 0x8000 ≤ 0x8000 ∧
    (hostDoes (.write 0x00C 8 1#64) State.reset).script = [.write 0x00C 8 1#64] ∧ 0x00C % 8 ≠ 0 ∧
    (hostDoes (.write 0x008 4 1#64) State.reset).script = [.write 0x008 4 1#64] ∧ 4 ≠ 8 := by decide

/-- A file of two bytes and one of none. -/
theorem witness_EncCountCounts :
    ∀ bytes ∈ [[], [0x61#8, 0x62#8]], ∃ s : State, Ready .encCount s ∧ s.eager = true ∧
      s.inCh = fileOf bytes ++ .endOfFile :: [] ∧ bytes.length < 2 ^ 64 := by
  intro bytes hb
  refine ⟨{ State.reset with inCh := fileOf bytes ++ .endOfFile :: [] }, ready_idle (by decide), rfl, rfl, ?_⟩
  revert bytes; decide

theorem witness_EncCountErrors :
    (∃ s : State, Ready .encCount s ∧ s.eager = true ∧ s.inCh = fileOf [0x01#8, 0x02#8] ++ .fault :: []) ∧
    (∃ s : State, s.busy = true ∧ s.pos = .countPop ∧ s.total.toNat = 2 ^ 64 - 1 ∧ s.inCh = .byte 0x41#8 :: []) :=
  ⟨⟨{ State.reset with inCh := fileOf [0x01#8, 0x02#8] ++ .fault :: [] }, ⟨rfl, by decide⟩, rfl, rfl⟩,
   { running .idle .countPop with total := BitVec.allOnes 64, inCh := [.byte 0x41#8] }, rfl, rfl, by decide, rfl⟩

theorem witness_FreqSequenceLists :
    distinctValues abCounted = 2 ∧ (0 : Nat) < 1 ∧ 1 < distinctValues abCounted ∧ freqAt abCounted 0x62#8 ≠ 0#64 ∧
    distinctValues abCounted ≤ 2 := by decide +kernel

/-- Two indices, the first and last internal node of the largest tree, and a third candidate beside the two children:
of three entries, the first merge leaves the largest. -/
theorem witness_MergeTakesLowest :
    (0 : Nat) ≠ 510 ∧ (2 ≤ 256 ∧ 256 ≤ 256 ∧ 510 < 2 * 256 - 1) ∧
    ∃ s : State, CandidateAt (buildTree 3 s).node 3 3 2 ∧ 2 ≠ (arenaAt (buildTree 3 s).node 3).zero.toNat ∧
      2 ≠ (arenaAt (buildTree 3 s).node 3).one.toNat :=
  ⟨by decide, by decide, abcSeq, ⟨by decide, fun j h h' => by omega⟩, by decide +kernel, by decide +kernel⟩

/-- The two ends of the range of `n` in the statements about the tree. -/
theorem witness_BuildTreeCounts : 2 ≤ 2 ∧ 2 ≤ 256 ∧ 256 ≤ 256 ∧ 0 < 2 ∧ 255 < 256 ∧ 256 < 2 * 256 - 1 := by decide
theorem witness_TreeShape : 2 ≤ 2 ∧ 256 ≤ 256 ∧ 2 < 2 * 2 - 1 ∧ 0 < 2 * 2 - 2 ∧ 509 < 2 * 256 - 2 := by decide
theorem witness_WeightsExact : 2 ≤ 2 ∧ 256 ≤ 256 ∧ 1 < 2 ∧ 510 < 2 * 256 - 1 := by decide

theorem witness_TreeAgreement :
    ∀ i, i < 2 → seqSymAt abSeq i = seqSymAt { abSeq with total := 9#64 } i ∧
      seqCntAt abSeq i = seqCntAt { abSeq with total := 9#64 } i := fun _ _ => ⟨rfl, rfl⟩

theorem witness_GoStep :
    (nodeAt zTree 0#9).type ≠ .internal ∧
    ((nodeAt zTree 1#9).type = .internal ∧ (nodeAt zTree 1#9).one = 0x1FF#9) ∧
    ((nodeAt zTree 1#9).type = .internal ∧ (nodeAt zTree 1#9).zero ≠ 0x1FF#9) := by decide +kernel

theorem witness_TableIsPaths :
    lookupCode (buildTable (buildTree 2 abSeq)) 0x61#8 = some [false] ∧ 1 ≤ 2 ∧ 2 ≤ 256 := by decide +kernel

theorem witness_PrefixFree :
    lookupCode (buildTable (buildTree 2 abSeq)) 0x61#8 = some [false] ∧
    lookupCode (buildTable (buildTree 2 abSeq)) 0x62#8 = some [true] ∧ 0x61#8 ≠ 0x62#8 := by decide +kernel

theorem witness_EmptyEncode :
    (Ready .encBuild (inPhase .counted) ∧ ∀ v, freqAt (inPhase .counted) v = 0#64) ∧
    (∃ s : State, Ready .encHeader s ∧ s.empty = true) ∧
    (∃ s : State, Ready .encEmit s ∧ s.eager = true ∧ s.payloadBits = 0#64 ∧ s.inCh = .endOfFile :: []) :=
  ⟨⟨⟨rfl, by decide⟩, by decide +kernel⟩, ⟨setEmpty (inPhase .built), ⟨rfl, by decide⟩, rfl⟩,
   { inPhase .headed with inCh := [.endOfFile] }, ⟨rfl, by decide⟩, rfl, rfl, rfl⟩

theorem witness_EncBuildCompletes :
    Ready .encBuild abCounted ∧ (∃ v, freqAt abCounted v ≠ 0#64) ∧
    codedLength (buildTable (buildTree (distinctValues abCounted) (freqSequence abCounted))) < 2 ^ 64 :=
  ⟨⟨rfl, by decide⟩, ⟨0x61#8, by decide +kernel⟩, by decide +kernel⟩

theorem witness_TableComplete :
    ∃ t, Ready .encBuild abCounted ∧ exec .encBuild abCounted = .next t ∧ 1 ≤ t.seqN.toNat :=
  ⟨_, ⟨rfl, by decide⟩, exec_after _ _, test_encBuild_two.1⟩

theorem witness_EncBuildOverflow :
    ∃ t, Ready .encBuild hugeCounted ∧ exec .encBuild hugeCounted = .next t ∧ t.phase = .error :=
  ⟨_, ⟨rfl, by decide⟩, exec_after _ _, test_encBuild_overflow.1⟩

theorem witness_EncBuildOverflow_length :
    2 ^ 64 ≤ codedLength (buildTable (buildTree (distinctValues hugeCounted) (freqSequence hugeCounted))) := by
  decide +kernel

theorem witness_HeaderLayout : 1 < abSeq.seqN.toNat := by decide

theorem witness_EncHeaderPushes :
    Ready .encHeader abBuilt ∧ abBuilt.empty = false ∧ abBuilt.eager = true ∧ SinkTakesAll abBuilt :=
  ⟨⟨rfl, by decide⟩, rfl, rfl, rfl, by decide⟩

/-- The first, a middle and the last byte of a header of 34. -/
theorem witness_EncHeaderSinkFault :
    ∀ k ∈ [0, 5, 33], ∃ s : State, Ready .encHeader s ∧ s.empty = false ∧ s.eager = true ∧ s.sinkQuota = none ∧
      k < 16 + 9 * s.seqN.toNat ∧ s.pushes + k ∈ s.sinkFaults ∧ ∀ j, j < k → s.pushes + j ∉ s.sinkFaults := by
  intro k hk
  refine ⟨{ abBuilt with sinkFaults := [k] }, ⟨rfl, (by decide : Phase.built ∈ admittedPhases .encHeader)⟩, rfl, rfl, rfl, ?_, ?_, ?_⟩ <;> revert k <;> decide

theorem witness_EncEmitPacks :
    Ready .encEmit abHeaded ∧ abHeaded.eager = true ∧ SinkTakesAll abHeaded ∧
    abHeaded.inCh = fileOf [0x61#8, 0x62#8] ++ .endOfFile :: [] ∧
    (∀ b ∈ [0x61#8, 0x62#8], lookupCode abHeaded b ≠ none) ∧
    abHeaded.payloadBits.toNat = (codewordsOf abHeaded [0x61#8, 0x62#8]).length :=
  ⟨⟨rfl, by decide⟩, rfl, ⟨rfl, by decide⟩, rfl, by decide +kernel, by decide +kernel⟩

theorem abBuilt_lookup : lookupCode abBuilt 0x61#8 = some [false] ∧ lookupCode abBuilt 0x65#8 = none := by
  decide +kernel

/-- The three causes of an abort, with an empty packer and with a partial byte in it. -/
theorem witness_EncEmitAborts :
    ∀ n ∈ [0#3, 3#3],
      (∃ s : State, s.busy = true ∧ s.pos = .emitPop ∧ s.inCh = .byte 0x65#8 :: [] ∧ s.ocnt = n ∧
        AbortCause s (.byte 0x65#8) 5#8 1#8 0x65#64) ∧
      (∃ s : State, s.busy = true ∧ s.pos = .emitPop ∧ s.inCh = .byte 0x61#8 :: [] ∧ s.ocnt = n ∧
        AbortCause s (.byte 0x61#8) 8#8 1#8 0x61#64) ∧
      (∃ s : State, s.busy = true ∧ s.pos = .emitPop ∧ s.inCh = .fault :: [] ∧ s.ocnt = n ∧
        AbortCause s .fault 3#8 2#8 0#64) := by
  intro n _
  exact ⟨⟨{ abBuilt with busy := true, pos := .emitPop, inCh := [.byte 0x65#8], ocnt := n }, rfl, rfl, rfl, rfl,
      .inl ⟨0x65#8, rfl, abBuilt_lookup.2, rfl, rfl, rfl⟩⟩,
    ⟨{ abBuilt with busy := true, pos := .emitPop, inCh := [.byte 0x61#8], ocnt := n, emitBits := 2#64 }, rfl, rfl, rfl,
      rfl, .inr (.inl ⟨0x61#8, [false], rfl, abBuilt_lookup.1, (by decide : 2 < 2 + 1), rfl, rfl, rfl⟩)⟩,
    { abBuilt with busy := true, pos := .emitPop, inCh := [.fault], ocnt := n }, rfl, rfl, rfl, rfl,
      .inr (.inr ⟨rfl, rfl, rfl, rfl⟩)⟩

theorem witness_EncEmitEnds :
    (∃ s : State, s.busy = true ∧ s.pos = .emitPop ∧ s.inCh = .endOfFile :: [] ∧ s.ocnt ≠ 0#3) ∧
    (∃ s : State, s.busy = true ∧ s.pos = .emitPop ∧ s.inCh = .endOfFile :: [] ∧ s.ocnt = 0#3 ∧
      s.emitBits ≠ s.payloadBits) ∧
    (∃ s : State, s.busy = true ∧ s.pos = .emitClose ∧ sinkAnswer s = some .ok ∧ s.emitBits ≠ s.payloadBits) ∧
    (∃ s : State, s.busy = true ∧ s.pos = .emitClose ∧ sinkAnswer s = some .ok ∧ s.emitBits = s.payloadBits) ∧
    (∃ s : State, s.busy = true ∧ s.pos = .emitClose ∧ sinkAnswer s = some .fault) ∧
    (∃ s : State, s.busy = true ∧ s.pos = .emitPush [true] ∧ sinkAnswer s = some .fault) :=
  ⟨⟨{ running .headed .emitPop with inCh := [.endOfFile], ocnt := 7#3 }, rfl, rfl, rfl, by decide⟩,
   ⟨{ running .headed .emitPop with inCh := [.endOfFile], payloadBits := 1#64 }, rfl, rfl, rfl, rfl, by decide⟩,
   ⟨{ running .headed .emitClose with payloadBits := 1#64 }, rfl, rfl, rfl, by decide⟩,
   ⟨running .headed .emitClose, rfl, rfl, rfl, rfl⟩,
   ⟨{ running .headed .emitClose with sinkFaults := [0] }, rfl, rfl, rfl⟩,
   { running .headed (.emitPush [true]) with sinkFaults := [0] }, rfl, rfl, rfl⟩

theorem witness_EmptyDecode :
    (∃ s : State, Ready .decHeader s ∧ s.eager = true ∧ s.inCh = .endOfFile :: []) ∧
    (Ready .decBuild (setEmpty (inPhase .decHeaded)) ∧ (setEmpty (inPhase .decHeaded)).empty = true) ∧
    (Ready .decPayload (setEmpty (inPhase .decBuilt)) ∧ (setEmpty (inPhase .decBuilt)).empty = true) :=
  ⟨⟨{ State.reset with inCh := [.endOfFile] }, ⟨rfl, by decide⟩, rfl, rfl⟩, ⟨⟨rfl, by decide⟩, rfl⟩,
   ⟨rfl, by decide⟩, rfl⟩

/-- One entry, and 256 of them. -/
theorem witness_DecHeaderParses :
    ∀ n ∈ [1, 256], ∃ (s : State) (entries : List (Byte × Word)), Ready .decHeader s ∧ s.eager = true ∧
      entries.length = n ∧ 1 ≤ entries.length ∧ entries.length ≤ 256 ∧
      s.inCh = fileOf (headerImage 3#64 entries) ++ [] := by
  intro n hn
  refine ⟨{ State.reset with inCh := fileOf (headerImage 3#64 (List.replicate n (0x7A#8, 3#64))) ++ [] },
    List.replicate n (0x7A#8, 3#64), ready_idle (by decide), rfl, by simp, ?_, ?_, rfl⟩ <;>
    rw [List.length_replicate] <;> revert n <;> decide

/-- A Fault before any byte, an End after one byte and after fifteen. -/
theorem witness_DecHeaderCutShort :
    ∀ c ∈ [([], InElem.fault), ([1#8], .endOfFile), (List.replicate 15 1#8, .endOfFile),
        (List.replicate 15 1#8, .fault)],
      ∃ s : State, Ready .decHeader s ∧ s.eager = true ∧ c.1.length ≤ 15 ∧ s.inCh = fileOf c.1 ++ c.2 :: [] ∧
        (c.2 = .endOfFile ∧ 1 ≤ c.1.length ∨ c.2 = .fault) := by
  intro c hc
  refine ⟨{ State.reset with inCh := fileOf c.1 ++ c.2 :: [] }, ready_idle (by decide), rfl, ?_, rfl, ?_⟩ <;>
    revert c <;> decide

/-- Cut at the first and at the last byte of a header's entries, and between two of them. -/
theorem witness_DecHeaderCutShort_entries :
    ∀ c ∈ [(16, InElem.endOfFile), (33, .fault), (25, .endOfFile)], ∃ (s : State) (entries : List (Byte × Word)),
      Ready .decHeader s ∧ s.eager = true ∧ 1 ≤ entries.length ∧ entries.length ≤ 256 ∧
      16 ≤ c.1 ∧ c.1 < 16 + 9 * entries.length ∧
      s.inCh = fileOf ((headerImage 2#64 entries).take c.1) ++ c.2 :: [] ∧ (c.2 = .endOfFile ∨ c.2 = .fault) := by
  intro c hc
  refine ⟨{ State.reset with
      inCh := fileOf ((headerImage 2#64 [(0x61#8, 1#64), (0x62#8, 1#64)]).take c.1) ++ c.2 :: [] },
    [(0x61#8, 1#64), (0x62#8, 1#64)], ready_idle (by decide), rfl, by decide, by decide, ?_, ?_, rfl, ?_⟩ <;>
    revert c <;> decide

theorem witness_DecHeaderCountRange :
    ∀ n ∈ [0#64, 257#64], ∃ s : State, Ready .decHeader s ∧ s.eager = true ∧ (n.toNat = 0 ∨ 256 < n.toNat) ∧
      s.inCh = fileOf (le64 1#64 ++ le64 n) ++ [] := by
  intro n hn
  refine ⟨{ State.reset with inCh := fileOf (le64 1#64 ++ le64 n) ++ [] }, ready_idle (by decide), rfl, ?_, rfl⟩
  simp only [List.mem_cons, List.not_mem_nil, or_false] at hn
  rcases hn with rfl | rfl <;> decide

theorem witness_DecBuildCompletes :
    Ready .decBuild { abSeq with phase := .decHeaded } ∧ abSeq.empty = false := ⟨⟨rfl, by decide⟩, rfl⟩

/-- T-P4's payload, as written and with padding bits that are not 0. -/
theorem witness_DecPayloadDecodes :
    ∀ v ∈ [0x02#8, 0xFE#8], ∃ s : State,
      Ready .decPayload s ∧ s.empty = false ∧ s.eager = true ∧ SinkTakesAll s ∧
      (∀ w ∈ [([false], 0x61#8), ([true], 0x62#8)], w.1 ≠ [] ∧ LeadsTo s w.1 w.2) ∧
      s.payloadBits.toNat = ([([false], 0x61#8), ([true], 0x62#8)].flatMap Prod.fst).length ∧
      [v].length = bytesFor s.payloadBits.toNat ∧
      (∀ j b, ([([false], 0x61#8), ([true], 0x62#8)].flatMap Prod.fst)[j]? = some b →
        [v][j / 8]?.map (fun v => v.getLsbD (j % 8)) = some b) ∧
      s.inCh = fileOf [v] ++ [.endOfFile] := by
  intro v hv
  refine ⟨{ abTree with inCh := [.byte v, .endOfFile] },
    ⟨rfl, (by decide : Phase.decBuilt ∈ admittedPhases .decPayload)⟩, rfl, rfl,
    ⟨rfl, fun k hk => absurd hk List.not_mem_nil⟩, ?_, rfl, (by decide : 1 = bytesFor 2), ?_, rfl⟩
  · intro w hw
    simp only [List.mem_cons, List.not_mem_nil, or_false] at hw
    rcases hw with rfl | rfl
    · exact ⟨by decide, 0#9, rfl, rfl, rfl⟩
    · exact ⟨by decide, 1#9, rfl, rfl, rfl⟩
  · intro j b hj
    simp only [List.mem_cons, List.not_mem_nil, or_false] at hv
    match j with
    | 0 => revert b; rcases hv with rfl | rfl <;> decide
    | 1 => revert b; rcases hv with rfl | rfl <;> decide
    | _ + 2 => simp at hj

theorem witness_DecPayloadChannelErrors :
    (∀ e ∈ [InElem.endOfFile, .fault], ∃ s : State, s.busy = true ∧ s.pos = .payloadPop ∧ s.inCh = e :: [] ∧
      (e = .endOfFile ∨ e = .fault)) ∧
    (∃ s : State, s.busy = true ∧ s.pos = .payloadPush 0x61#8 ∧ sinkAnswer s = some .fault) := by
  refine ⟨fun e he => ⟨{ running .decBuilt .payloadPop with inCh := [e] }, rfl, rfl, rfl, by revert e; decide⟩,
    { running .decBuilt (.payloadPush 0x61#8) with sinkFaults := [0] }, rfl, rfl, rfl⟩

/-- A dead end at bit 0 of a popped byte and at the last bit of IBUF, a bit that leads to an INTERNAL node, an end away
from ROOT, and the two ways the walk goes on. -/
theorem witness_DecPayloadPathErrors :
    (∃ s : State, s.busy = true ∧ s.pos = .payloadPop ∧ s.inCh = .byte 1#8 :: [] ∧ s.bitsLeft ≠ 0#64 ∧
      go s s.cur ((1#8).getLsbD 0) = none) ∧
    (∃ s : State, s.bitsLeft ≠ 0#64 ∧ unreadBits s = true :: [] ∧ go s s.cur true = none) ∧
    (∃ (s : State) (c : NodeId), s.bitsLeft ≠ 0#64 ∧ unreadBits s = true :: [] ∧ go s s.cur true = some c ∧
      (nodeAt s c).type ≠ .leaf) ∧
    (∃ s : State, s.bitsLeft = 0#64 ∧ s.cur ≠ s.root) ∧
    (∃ s : State, s.busy = true ∧ s.pos = .payloadPush 0x61#8 ∧ sinkAnswer s = some .ok) :=
  ⟨⟨{ zTree with busy := true, pos := .payloadPop, inCh := [.byte 1#8], bitsLeft := 3#64, cur := 1#9 }, rfl, rfl, rfl,
      by decide, by decide +kernel⟩,
   ⟨{ zTree with bitsLeft := 3#64, cur := 1#9, ibuf := 0x80#8, ipos := 7#4 }, by decide, rfl, by decide +kernel⟩,
   ⟨{ abTree with
       bitsLeft := 3#64, cur := 3#9, ibuf := 0x80#8, ipos := 7#4
       node := bankSet abTree.node 3 { type := .internal, sym := 0, zero := 0, one := 2, weight := 3 } }, 2#9,
     by decide, rfl, by decide +kernel, by decide +kernel⟩,
   ⟨{ abTree with cur := 0#9 }, rfl, by decide⟩,
   running .decBuilt (.payloadPush 0x61#8), rfl, rfl, rfl⟩

/-- The seven bytes of a file of one byte, through both commands that the premises run. -/
theorem witness_RoundTrip :
    ∃ s a b : State, Ready .encCount s ∧ s.eager = true ∧ SinkTakesAll s ∧
      s.inCh = fileOf [0x7A#8] ++ .endOfFile :: (fileOf [0x7A#8] ++ .endOfFile :: []) ∧
      exec .encCount s = .next a ∧ exec .encBuild a = .next b ∧ b.phase = .built ∧
      ∀ image, ∃ u : State, Ready .decHeader u ∧ u.eager = true ∧ SinkTakesAll u ∧
        u.inCh = fileOf image ++ .endOfFile :: [] :=
  ⟨{ State.reset with inCh := fileOf [0x7A#8] ++ .endOfFile :: (fileOf [0x7A#8] ++ .endOfFile :: []) }, _, _,
    ⟨rfl, by decide⟩, rfl, ⟨rfl, by decide⟩, rfl, exec_after _ _, exec_after _ _, by decide +kernel,
    fun image => ⟨{ State.reset with inCh := fileOf image ++ .endOfFile :: [] }, ready_idle (by decide), rfl,
      ⟨rfl, fun k hk => absurd hk (List.not_mem_nil)⟩, rfl⟩⟩

theorem witness_FrameStarting :
    (∃ t, exec .encCount State.reset = .next t) ∧ (∃ t, exec .decHeader State.reset = .next t) :=
  ⟨⟨_, exec_after _ _⟩, _, exec_after _ _⟩
theorem witness_FrameBuilds :
    (∃ t, exec .encBuild abCounted = .next t) ∧ (∃ t, exec .decBuild { abSeq with phase := .decHeaded } = .next t) :=
  ⟨⟨_, exec_after _ _⟩, _, exec_after _ _⟩
theorem witness_FrameEncHeader : ∃ t, exec .encHeader abBuilt = .next t := ⟨_, exec_after _ _⟩
theorem witness_FrameEncEmit : ∃ t, exec .encEmit abHeaded = .next t := ⟨_, exec_after _ _⟩
theorem witness_FrameDecPayload : ∃ t, exec .decPayload abTree = .next t := ⟨_, exec_after _ _⟩

/-- A step from reset, where the invariants hold: the host writes ENC_COUNT. -/
theorem witness_step : ∃ t, step (State.reset.withFetchWord 64 0x10) = .next t ∧ t.pos = .countPop := by
  exact ⟨_, rfl, by decide +kernel⟩
theorem witness_CountInvStep : CountInv (State.reset.withFetchWord 64 0x10) :=
  ⟨by decide +kernel, by decide +kernel, by decide⟩
theorem witness_TreeInvStep : TreeInv (State.reset.withFetchWord 64 0x10) :=
  ⟨by decide, .inl ⟨rfl, rfl⟩, fun _ => ⟨rfl, rfl⟩, by decide⟩
theorem witness_RegisterInvStep :
    BusyInv (State.reset.withFetchWord 64 0x10) ∧ ErrorInv (State.reset.withFetchWord 64 0x10) ∧
    BufferInv (State.reset.withFetchWord 64 0x10) := by
  refine ⟨by unfold BusyInv; decide, by unfold ErrorInv; decide, by decide, .inr ?_⟩
  intro j _
  exact BitVec.getLsbD_zero

end Sys2Proof.Tests
end

section
/-! SUPPORT. What BuildTree leaves in ROOT and NODE_COUNT (43_tree.md R135 to R137), and what the frequency sequence
leaves in SEQ_N (42_frequency.md R128). -/
namespace Sys2Proof.Machine

/-! ### The merge loop -/

theorem lowestFrom_mem (a : Arena) (k : Nat) (js : List Nat) : lowestFrom a k js ∈ k :: js := by
  induction js generalizing k with
  | nil => simp [lowestFrom]
  | cons j js ih =>
    rw [lowestFrom]
    split
    · exact .tail _ (ih j)
    · exact List.mem_cons.mpr ((List.mem_cons.mp (ih k)).imp_right (.tail _))

/-- One turn of the merge loop: two candidates `i` and `j` leave the queue and their parent joins it. -/
theorem mergeLoop_turn (turns : Nat) {q : List Nat} (next : Nat) (a : Arena) (hq : 2 ≤ q.length) :
    ∃ i j, i ∈ q ∧ j ∈ q.erase i ∧
      mergeLoop (turns + 1) q next a =
        mergeLoop turns ((q.erase i).erase j ++ [next]) (next + 1) (bankSet a next (mergedNode a i j)) := by
  obtain ⟨k, k', ks, rfl⟩ : ∃ k k' ks, q = k :: k' :: ks := by
    match q, hq with
    | k :: k' :: ks, _ => exact ⟨k, k', ks, rfl⟩
  have hi := lowestFrom_mem a k (k' :: ks)
  have hlen := List.length_erase_of_mem hi
  cases hrest : (k :: k' :: ks).erase (lowestFrom a k (k' :: ks)) with
  | nil => simp [hrest] at hlen
  | cons j js =>
    refine ⟨_, lowestFrom a j js, hi, hrest ▸ lowestFrom_mem a j js, ?_⟩
    simp only [mergeLoop, hrest]

theorem mergeLoop_single (turns k next : Nat) (a : Arena) :
    mergeLoop turns [k] next a = { arena := a, queue := [k], next := next } := by
  cases turns <;> rfl

/-- With enough turns the merge loop leaves one candidate, the node it made last (R136). -/
theorem mergeLoop_ends (turns : Nat) (q : List Nat) (next : Nat) (a : Arena) (hq : 2 ≤ q.length)
    (hturns : q.length ≤ turns + 1) :
    (mergeLoop turns q next a).queue = [next + q.length - 2] ∧
      (mergeLoop turns q next a).next = next + q.length - 1 := by
  induction turns generalizing q next a with
  | zero => omega
  | succ turns ih =>
    obtain ⟨i, j, hi, hj, hturn⟩ := mergeLoop_turn turns next a hq
    have hleft : ((q.erase i).erase j).length = q.length - 2 := by
      rw [List.length_erase_of_mem hj, List.length_erase_of_mem hi]; omega
    rw [hturn]
    by_cases htwo : q.length = 2
    · rw [List.eq_nil_of_length_eq_zero (hleft.trans (by omega)), List.nil_append, mergeLoop_single, htwo]
      exact ⟨rfl, rfl⟩
    · have hlen : ((q.erase i).erase j ++ [next]).length = q.length - 1 := by simp [hleft]; omega
      obtain ⟨hqueue, hnext⟩ := ih ((q.erase i).erase j ++ [next]) (next + 1) (bankSet a next (mergedNode a i j))
        (by omega) (by omega)
      rw [hqueue, hnext, hlen]
      exact ⟨by congr 1; omega, by omega⟩

/-! ### BuildTree -/

@[simp] theorem buildTree_seqN (n : Nat) (s : State) : (buildTree n s).seqN = s.seqN := by
  unfold buildTree; split <;> rfl

/-- With no entry there is nothing to merge, and no tree. -/
theorem buildTree_zero_noTree (s : State) : NoTree (buildTree 0 s) := ⟨rfl, rfl⟩

/-- R137: ROOT and NODE_COUNT of a single-symbol tree. -/
theorem buildTree_one_root (s : State) : (buildTree 1 s).nodeCount = 2#10 ∧ (buildTree 1 s).root = 1#9 := ⟨rfl, rfl⟩

/-- R136: ROOT and NODE_COUNT of a tree with `n` leaves. -/
theorem buildTree_root {n : Nat} (s : State) (h2 : 2 ≤ n) (h256 : n ≤ 256) :
    (buildTree n s).nodeCount.toNat = 2 * n - 1 ∧ (buildTree n s).root.toNat = 2 * n - 2 := by
  obtain ⟨hqueue, hnext⟩ :=
    mergeLoop_ends n (List.range n) n (writeLeaves n s) (by simpa using h2) (by simp)
  rw [List.length_range] at hqueue hnext
  have hn : n ≠ 1 := by omega
  simp only [buildTree, hn, if_false, hqueue, hnext, List.headD_cons, BitVec.toNat_ofNat]
  omega

/-! ### The frequency sequence -/

theorem writeSeq_seqN (es : List (Byte × Word)) (n : Nat) (s : State) :
    (writeSeq es n s).seqN = BitVec.ofNat 9 (n + es.length) := by
  induction es generalizing n s with
  | nil => rfl
  | cons e es ih => rw [writeSeq, ih, List.length_cons]; congr 1; omega

theorem writeSeq_keeps (es : List (Byte × Word)) (n : Nat) (s : State) :
    (writeSeq es n s).nodeCount = s.nodeCount ∧ (writeSeq es n s).root = s.root := by
  induction es generalizing n s with
  | nil => exact ⟨rfl, rfl⟩
  | cons e es ih => rw [writeSeq]; exact ih _ _

theorem freqEntries_length_le (s : State) : (freqEntries s).length ≤ 256 := by
  rw [freqEntries, List.length_map]
  exact (List.length_filter_le _ _).trans (by simp [byteValues])

theorem freqSequence_seqN_le (s : State) : (freqSequence s).seqN.toNat ≤ 256 := by
  have := freqEntries_length_le s
  rw [freqSequence, writeSeq_seqN, BitVec.toNat_ofNat]; omega

theorem freqSequence_noTree {s : State} (h : NoTree s) : NoTree (freqSequence s) := by
  obtain ⟨hcount, hroot⟩ := writeSeq_keeps (freqEntries s) 0 s
  exact ⟨hcount.trans h.1, hroot.trans h.2⟩

end Sys2Proof.Machine
end

section
/-! SUPPORT. How a move of the core treats the tree registers (10_state.md R38). A command that works in PHASE IDLE from
cleared registers keeps `Starting`; every other move but a build is a `KeepsTree`; a build makes a `TreeCase`. -/
namespace Sys2Proof.Machine

/-! ### The parts of the invariant -/

/-- The three cases of R38 for SEQ_N, NODE_COUNT and ROOT. -/
def TreeCase (s : State) : Prop :=
  NoTree s ∨ (s.seqN = 1#9 ∧ s.nodeCount = 2#10 ∧ s.root = 1#9) ∨
    (2 ≤ s.seqN.toNat ∧ s.nodeCount.toNat = 2 * s.seqN.toNat - 1 ∧ s.root.toNat = 2 * s.seqN.toNat - 2)

/-- The PHASEs that come before a build. -/
def beforeBuild : Phase → Bool
  | .idle | .counted | .decHeaded => true
  | .built | .headed | .encDone | .decBuilt | .decDone | .error => false

theorem beforeBuild_iff (p : Phase) : beforeBuild p = true ↔ p = .idle ∨ p = .counted ∨ p = .decHeaded := by
  cases p <;> simp [beforeBuild]

theorem treeInv_iff (s : State) :
    TreeInv s ↔ s.seqN.toNat ≤ 256 ∧ TreeCase s ∧ (beforeBuild s.phase = true → NoTree s) ∧
      (startingOver s.pos = true → s.phase = .idle) := by
  rw [beforeBuild_iff]; rfl

theorem treeInv_of_noTree {s : State} (hn : s.seqN.toNat ≤ 256) (h : NoTree s)
    (hpos : startingOver s.pos = true → s.phase = .idle) : TreeInv s :=
  (treeInv_iff s).mpr ⟨hn, .inl h, fun _ => h, hpos⟩

theorem treeInv_of_treeCase {s : State} (hn : s.seqN.toNat ≤ 256) (h : TreeCase s)
    (hphase : beforeBuild s.phase = false) (hpos : startingOver s.pos = false) : TreeInv s :=
  (treeInv_iff s).mpr ⟨hn, h, by simp [hphase], by simp [hpos]⟩

theorem TreeInv.noTree {s : State} (h : TreeInv s) (hp : beforeBuild s.phase = true) : NoTree s :=
  ((treeInv_iff s).mp h).2.2.1 hp

theorem TreeInv.seqN_le {s : State} (h : TreeInv s) : s.seqN.toNat ≤ 256 := h.1

/-! ### Moves that leave the tree as it is -/

/-- The fields the invariant speaks of. -/
def treeFields (s : State) : BitVec 9 × BitVec 10 × NodeId × Phase × Position :=
  (s.seqN, s.nodeCount, s.root, s.phase, s.pos)

/-- From `s` to `t` the tree registers stay, PHASE does not go back before a build, and ENC_COUNT or DEC_HEADER runs in
`t` only where it did in `s`. -/
structure KeepsTree (s t : State) : Prop where
  seqN : t.seqN = s.seqN
  nodeCount : t.nodeCount = s.nodeCount
  root : t.root = s.root
  phase : t.phase = s.phase ∨ beforeBuild t.phase = false
  pos : startingOver t.pos = true → t.pos = s.pos ∧ t.phase = s.phase

namespace KeepsTree
variable {s t u : State}

theorem of_fields (h : treeFields t = treeFields s) : KeepsTree s t := by
  simp only [treeFields, Prod.mk.injEq] at h
  obtain ⟨hseqN, hcount, hroot, hphase, hpos⟩ := h
  exact ⟨hseqN, hcount, hroot, .inl hphase, fun _ => ⟨hpos, hphase⟩⟩

theorem refl (s : State) : KeepsTree s s := of_fields rfl

theorem trans (h₁ : KeepsTree s t) (h₂ : KeepsTree t u) : KeepsTree s u where
  seqN := h₂.seqN.trans h₁.seqN
  nodeCount := h₂.nodeCount.trans h₁.nodeCount
  root := h₂.root.trans h₁.root
  phase := by
    rcases h₂.phase with hp | hp
    · exact hp ▸ h₁.phase
    · exact .inr hp
  pos hu := by
    obtain ⟨hpos, hphase⟩ := h₂.pos hu
    obtain ⟨hpos', hphase'⟩ := h₁.pos (hpos ▸ hu)
    exact ⟨hpos.trans hpos', hphase.trans hphase'⟩

/-- The move goes on with a change of other fields. -/
theorem fields (h : KeepsTree s t) (hu : treeFields u = treeFields t) : KeepsTree s u := h.trans (of_fields hu)

theorem complete (h : KeepsTree s t) : KeepsTree s (complete t) :=
  h.trans ⟨rfl, rfl, rfl, .inl rfl, nofun⟩

theorem completeIn {p : Phase} (h : KeepsTree s t) (hp : beforeBuild p = false) : KeepsTree s (completeIn p t) :=
  h.trans ⟨rfl, rfl, rfl, .inr hp, nofun⟩

theorem raise {c : ErrorCause} {info : Word} (h : KeepsTree s t) : KeepsTree s (raise c info t) :=
  h.trans ⟨rfl, rfl, rfl, .inr rfl, nofun⟩

theorem waitAt {p : Position} (h : KeepsTree s t) (hp : startingOver p = false) : KeepsTree s (waitAt p t) :=
  h.trans ⟨rfl, rfl, rfl, .inl rfl, by simp [hp]⟩

theorem treeInv (h : KeepsTree s t) (hs : TreeInv s) : TreeInv t := by
  obtain ⟨hn, hcase, hbefore, hidle⟩ := (treeInv_iff s).mp hs
  refine (treeInv_iff t).mpr ⟨h.seqN ▸ hn, ?_, fun hp => ?_, fun hpos => ?_⟩
  · simpa only [TreeCase, NoTree, h.seqN, h.nodeCount, h.root] using hcase
  · have hphase : t.phase = s.phase := h.phase.resolve_right (by simp [hp])
    simpa only [NoTree, h.nodeCount, h.root] using hbefore (hphase ▸ hp)
  · obtain ⟨hsame, hphase⟩ := h.pos hpos
    exact hphase.trans (hidle (hsame ▸ hpos))

end KeepsTree

variable {s t : State}

theorem popIn_keepsTree (e : InElem) (rest : List InElem) (s : State) : KeepsTree s (popIn e rest s) :=
  .of_fields (by simp [treeFields])

theorem pushOut_keepsTree (b : Byte) (r : SinkAnswer) (s : State) : KeepsTree s (pushOut b r s) :=
  .of_fields (by simp [treeFields])

/-! ### ENC_HEADER and ENC_EMIT -/

theorem pushHeader_keepsTree (bs : List Byte) (h : KeepsTree s t) : KeepsTree s (pushHeader bs t) := by
  cases bs with
  | nil => exact .completeIn (h.fields rfl) rfl
  | cons b rest => exact h.waitAt rfl

theorem startHeader_keepsTree (s : State) : KeepsTree s (startHeader s) := by
  unfold startHeader
  split
  · exact .completeIn (.of_fields rfl) rfl
  · exact pushHeader_keepsTree _ (.refl s)

theorem writeBits_keepsTree (bits : List Bool) (h : KeepsTree s t) : KeepsTree s (writeBits bits t) := by
  induction bits generalizing t with
  | nil => exact h.waitAt rfl
  | cons b bits ih =>
    simp only [writeBits]
    split
    · exact .waitAt (h.fields rfl) rfl
    · exact ih (h.fields rfl)

theorem abortEmit_keepsTree (c : ErrorCause) (info : Word) (s : State) : KeepsTree s (abortEmit c info s) := by
  simp only [abortEmit]
  split <;> exact ⟨rfl, rfl, rfl, .inr rfl, nofun⟩

theorem emitFinish_keepsTree (h : KeepsTree s t) : KeepsTree s (emitFinish t) := by
  unfold emitFinish
  split
  · exact .completeIn (h.fields rfl) rfl
  · exact h.raise

theorem emitElem_keepsTree (e : InElem) (s : State) : KeepsTree s (emitElem e s) := by
  cases e with
  | byte v =>
    simp only [emitElem]
    split
    · exact abortEmit_keepsTree _ _ s
    · split
      · exact abortEmit_keepsTree _ _ s
      · exact writeBits_keepsTree _ (.refl s)
  | endOfFile =>
    simp only [emitElem]
    split
    · exact emitFinish_keepsTree (.refl s)
    · exact (KeepsTree.refl s).waitAt rfl
  | fault => exact abortEmit_keepsTree _ _ s

/-! ### DEC_PAYLOAD -/

theorem payloadEnd_keepsTree (h : KeepsTree s t) : KeepsTree s (payloadEnd t) := by
  unfold payloadEnd
  split
  · exact .completeIn (h.fields rfl) rfl
  · exact h.raise

theorem payloadLoop_keepsTree (bits : List Bool) (h : KeepsTree s t) : KeepsTree s (payloadLoop bits t) := by
  induction bits generalizing t with
  | nil =>
    simp only [payloadLoop]
    split
    · exact payloadEnd_keepsTree h
    · exact h.waitAt rfl
  | cons b bits ih =>
    simp only [payloadLoop]
    split
    · exact payloadEnd_keepsTree h
    · split
      · exact .raise (h.fields rfl)
      · split
        · exact .waitAt (h.fields rfl) rfl
        · exact ih (h.fields rfl)

theorem payloadResume_keepsTree (h : KeepsTree s t) : KeepsTree s (payloadResume t) := payloadLoop_keepsTree _ h

theorem startPayload_keepsTree (s : State) : KeepsTree s (startPayload s) := by
  unfold startPayload
  split
  · exact .completeIn (.of_fields rfl) rfl
  · exact payloadResume_keepsTree (.of_fields rfl)

theorem payloadElem_keepsTree (e : InElem) (s : State) : KeepsTree s (payloadElem e s) := by
  cases e with
  | byte v => exact payloadResume_keepsTree (.of_fields rfl)
  | endOfFile => exact (KeepsTree.refl s).raise
  | fault => exact (KeepsTree.refl s).raise

/-! ### The answer to a push -/

theorem afterPush_keepsTree (r : SinkAnswer) (s : State) : KeepsTree s (afterPush r s) := by
  cases hpos : s.pos with simp only [afterPush, hpos]
  | headerPush b rest =>
    cases r with
    | ok => exact pushHeader_keepsTree rest (.refl s)
    | fault => exact (KeepsTree.refl s).raise
  | emitPush bits =>
    cases r with
    | ok => exact writeBits_keepsTree bits (.of_fields rfl)
    | fault => exact .raise (.of_fields rfl)
  | emitClose =>
    cases r with
    | ok => exact emitFinish_keepsTree (.of_fields rfl)
    | fault => exact .raise (.of_fields rfl)
  | abortClose => exact .complete (.of_fields rfl)
  | payloadPush sym =>
    cases r with
    | ok => exact payloadResume_keepsTree (.of_fields rfl)
    | fault => exact (KeepsTree.refl s).raise
  | idle | countPop | emitPop | decLen | decCount | decSym | decCnt | payloadPop => exact .refl s

/-! ### ENC_COUNT and DEC_HEADER -/

/-- The core works in PHASE IDLE and holds no tree, as ENC_COUNT and DEC_HEADER do. -/
structure Starting (s : State) : Prop where
  seqN_le : s.seqN.toNat ≤ 256
  noTree : NoTree s
  idle : s.phase = .idle

theorem TreeInv.starting (h : TreeInv s) (hpos : startingOver s.pos = true) : Starting s := by
  have hidle : s.phase = .idle := ((treeInv_iff s).mp h).2.2.2 hpos
  exact ⟨h.seqN_le, h.noTree (by rw [hidle]; rfl), hidle⟩

theorem implicitClear_starting (s : State) : Starting (implicitClear s) := ⟨Nat.zero_le _, ⟨rfl, rfl⟩, rfl⟩

namespace Starting

theorem treeInv (h : Starting s) : TreeInv s := treeInv_of_noTree h.seqN_le h.noTree fun _ => h.idle

theorem waitAt {p : Position} (h : Starting s) : TreeInv (waitAt p s) :=
  treeInv_of_noTree h.seqN_le h.noTree fun _ => h.idle

theorem completeIn {p : Phase} (h : Starting s) : TreeInv (completeIn p s) :=
  treeInv_of_noTree h.seqN_le h.noTree nofun

theorem raise {c : ErrorCause} {info : Word} (h : Starting s) : TreeInv (raise c info s) :=
  treeInv_of_noTree h.seqN_le h.noTree nofun

end Starting

theorem countElem_treeInv (e : InElem) (h : Starting s) : TreeInv (countElem e s) := by
  cases e with
  | byte v =>
    simp only [countElem]
    split
    · exact h.raise
    · exact Starting.waitAt ⟨h.seqN_le, h.noTree, h.idle⟩
  | endOfFile => exact h.completeIn
  | fault => exact h.raise

theorem hdrFailed_treeInv (e : InElem) (h : Starting s) : TreeInv (hdrFailed e s) := by
  cases e <;> exact h.raise

theorem decLenByte_treeInv (got : List Byte) (v : Byte) (h : Starting s) : TreeInv (decLenByte got v s) := by
  unfold decLenByte
  split
  · exact h.waitAt
  · exact Starting.waitAt ⟨h.seqN_le, h.noTree, h.idle⟩

theorem decFirstElem_treeInv (e : InElem) (h : Starting s) : TreeInv (decFirstElem e s) := by
  cases e with
  | byte v => exact decLenByte_treeInv _ _ h
  | endOfFile => exact Starting.completeIn ⟨h.seqN_le, h.noTree, h.idle⟩
  | fault => exact h.raise

theorem decCountDone_treeInv (n : Nat) (h : Starting s) : TreeInv (decCountDone n s) := by
  unfold decCountDone
  split
  · exact h.raise
  · next hn =>
    have hle : (BitVec.ofNat 9 n).toNat ≤ 256 := by
      simp only [Config.maxLeaves] at hn
      rw [BitVec.toNat_ofNat]; omega
    exact Starting.waitAt ⟨hle, h.noTree, h.idle⟩

theorem decCountByte_treeInv (got : List Byte) (v : Byte) (h : Starting s) : TreeInv (decCountByte got v s) := by
  unfold decCountByte
  split
  · exact h.waitAt
  · exact decCountDone_treeInv _ h

theorem decEntryDone_treeInv (i : Nat) (sym : Byte) (count : Word) (h : Starting s) :
    TreeInv (decEntryDone i sym count s) := by
  simp only [decEntryDone]
  split
  · exact Starting.waitAt ⟨h.seqN_le, h.noTree, h.idle⟩
  · exact Starting.completeIn ⟨h.seqN_le, h.noTree, h.idle⟩

theorem decCntByte_treeInv (i : Nat) (sym : Byte) (got : List Byte) (v : Byte) (h : Starting s) :
    TreeInv (decCntByte i sym got v s) := by
  unfold decCntByte
  split
  · exact h.waitAt
  · exact decEntryDone_treeInv _ _ _ h

/-! ### A step of the core -/

theorem afterPop_treeInv (e : InElem) (h : TreeInv s) : TreeInv (afterPop e s) := by
  have hstart : ∀ p, s.pos = p → startingOver p = true → Starting s := fun p hp hs => h.starting (hp ▸ hs)
  cases hpos : s.pos with
  | countPop => simpa only [afterPop, hpos] using countElem_treeInv e (hstart _ hpos rfl)
  | emitPop => simpa only [afterPop, hpos] using (emitElem_keepsTree e s).treeInv h
  | payloadPop => simpa only [afterPop, hpos] using (payloadElem_keepsTree e s).treeInv h
  | decLen got =>
    have hs := hstart _ hpos rfl
    cases got with simp only [afterPop, hpos]
    | nil => exact decFirstElem_treeInv e hs
    | cons g got =>
      cases e with
      | byte v => exact decLenByte_treeInv _ v hs
      | endOfFile | fault => exact hdrFailed_treeInv _ hs
  | decCount got =>
    have hs := hstart _ hpos rfl
    cases e with simp only [afterPop, hpos]
    | byte v => exact decCountByte_treeInv _ v hs
    | endOfFile | fault => exact hdrFailed_treeInv _ hs
  | decSym i =>
    have hs := hstart _ hpos rfl
    cases e with simp only [afterPop, hpos]
    | byte v => exact hs.waitAt
    | endOfFile | fault => exact hdrFailed_treeInv _ hs
  | decCnt i sym got =>
    have hs := hstart _ hpos rfl
    cases e with simp only [afterPop, hpos]
    | byte v => exact decCntByte_treeInv _ _ _ v hs
    | endOfFile | fault => exact hdrFailed_treeInv _ hs
  | idle | headerPush | emitPush | emitClose | abortClose | payloadPush => simpa only [afterPop, hpos] using h

theorem coreStep_treeInv (s t : State) (h : TreeInv s) (hstep : coreStep s = some t) : TreeInv t := by
  rcases coreStep_cases hstep with ⟨e, rest, -, -, rfl⟩ | ⟨b, r, -, -, rfl⟩
  · exact afterPop_treeInv e ((popIn_keepsTree e rest s).treeInv h)
  · exact ((pushOut_keepsTree b r s).trans (afterPush_keepsTree r _)).treeInv h

/-! ### The two builds -/

/-- BuildTree from SEQ_N entries leaves one of the three cases of R38 (R136, R137). -/
theorem buildTree_treeCase (hn : s.seqN.toNat ≤ 256) : TreeCase (buildTree s.seqN.toNat s) := by
  match hseq : s.seqN.toNat with
  | 0 => exact .inl (buildTree_zero_noTree s)
  | 1 =>
    have hone : s.seqN = 1#9 := BitVec.eq_of_toNat_eq hseq
    exact .inr (.inl ⟨by rw [buildTree_seqN, hone], buildTree_one_root s⟩)
  | n + 2 =>
    have hroot := buildTree_root (n := n + 2) s (by omega) (by omega)
    exact .inr (.inr (by rw [buildTree_seqN, hseq]; exact ⟨by omega, hroot⟩))

@[simp] theorem buildTable_seqN (s : State) : (buildTable s).seqN = s.seqN := rfl

/-- The code table does not touch the tree registers. -/
theorem buildTable_treeCase (h : TreeCase s) : TreeCase (buildTable s) := h

theorem encBuildProgram_treeInv (h : NoTree s) : TreeInv (encBuildProgram s) := by
  have hn : (setStatOrig (freqSequence s)).seqN.toNat ≤ 256 := freqSequence_seqN_le s
  have hnone : NoTree (setStatOrig (freqSequence s)) := freqSequence_noTree h
  simp only [encBuildProgram]
  generalize setStatOrig (freqSequence s) = t at hn hnone ⊢
  split
  · exact treeInv_of_noTree hn hnone nofun
  · have hcase : TreeCase (buildTable (buildTree t.seqN.toNat t)) :=
      buildTable_treeCase (buildTree_treeCase hn)
    have hseq : (buildTable (buildTree t.seqN.toNat t)).seqN.toNat ≤ 256 := by
      rw [buildTable_seqN, buildTree_seqN]; exact hn
    generalize buildTable (buildTree t.seqN.toNat t) = u at hcase hseq ⊢
    split <;> exact treeInv_of_treeCase hseq hcase rfl rfl

theorem decBuildProgram_treeInv (hn : s.seqN.toNat ≤ 256) (h : NoTree s) : TreeInv (decBuildProgram s) := by
  have hseq : (buildTree s.seqN.toNat s).seqN.toNat ≤ 256 := by rw [buildTree_seqN]; exact hn
  unfold decBuildProgram
  split
  · exact treeInv_of_noTree hn h nofun
  · exact treeInv_of_treeCase hseq (buildTree_treeCase hn) rfl rfl

/-! ### Every step -/

theorem programOf_treeInv (i : Instr) (h : TreeInv s) (hl : legalIn i s.phase = true) : TreeInv (programOf i s) := by
  have hrun : ∀ u, TreeInv u → TreeInv (proceed u) := proceed_induct coreStep_treeInv
  cases i with
  | nop => exact (KeepsTree.refl s).complete.treeInv h
  | clear => exact (KeepsTree.refl _).complete.treeInv (implicitClear_starting s).treeInv
  | encCount => exact hrun _ ((implicitClear_starting s).waitAt)
  | encBuild =>
    have hphase : s.phase = .counted := by simpa [legalIn] using hl
    exact encBuildProgram_treeInv (h.noTree (by rw [hphase]; rfl))
  | encHeader => exact hrun _ ((startHeader_keepsTree s).treeInv h)
  | encEmit => exact hrun _ (KeepsTree.treeInv (.waitAt (.of_fields rfl) rfl) h)
  | decHeader => exact hrun _ ((implicitClear_starting s).waitAt)
  | decBuild =>
    have hphase : s.phase = .decHeaded := by simpa [legalIn] using hl
    exact decBuildProgram_treeInv h.seqN_le (h.noTree (by rw [hphase]; rfl))
  | decPayload => exact hrun _ ((startPayload_keepsTree s).treeInv h)

theorem issue_treeInv (i : Instr) (s : State) (h : TreeInv s) : TreeInv (issue i (programOf i) s) := by
  rcases issue_cases i (programOf i) s with ⟨-, he⟩ | ⟨-, -, -, he⟩ | ⟨-, -, -, he⟩ | ⟨-, hl, he⟩ <;> rw [he]
  · exact (KeepsTree.of_fields rfl).treeInv h
  · exact h
  · exact ((KeepsTree.refl s).raise).treeInv h
  · exact programOf_treeInv i ((KeepsTree.of_fields rfl).treeInv h) hl

theorem rejectWord_treeInv (e : DecodeError) (w : Word) (s : State) (h : TreeInv s) : TreeInv (rejectWord e w s) := by
  rcases rejectWord_cases e w s with ⟨-, he⟩ | ⟨-, -, he⟩ | ⟨-, -, c, -, he⟩ <;> rw [he]
  · exact (KeepsTree.of_fields rfl).treeInv h
  · exact h
  · exact ((KeepsTree.refl s).raise).treeInv h

theorem hardwareReset_treeInv (s : State) : TreeInv (hardwareReset s) :=
  treeInv_of_noTree (Nat.zero_le _) ⟨rfl, rfl⟩ nofun

/-- Settles O58, by the induction over steps of `step_keeps`: the host leaves the tree registers alone, and each move
of the core keeps the invariant. -/
theorem treeInvStep : Obligations.TreeInvStep := by
  intro s t h hstep
  exact step_keeps (fun _ _ _ _ _ _ _ _ _ h => (KeepsTree.of_fields rfl).treeInv h) coreStep_treeInv issue_treeInv
    rejectWord_treeInv (fun s _ => hardwareReset_treeInv s) h hstep

end Sys2Proof.Machine
end

section
/-! SUPPORT. The reset values (10_state.md R39), the invariants at reset, and the fields of the packed words (R20, R23,
R28, R32, R34). -/
namespace Sys2Proof.Machine

/-! ### Reset -/

theorem implicitClear_holdsResetValues (s : State) : HoldsResetValues (implicitClear s) := by
  simp [HoldsResetValues, freqAt, seqSymAt, seqCntAt, nodeAt, codeLenAt, codeBitsAt, Config.none]

/-- BUSY, LAST_OP and the running command's position are not among the registers of R39 that both resets write. -/
theorem hardwareReset_holdsResetValues (s : State) : HoldsResetValues (hardwareReset s) :=
  implicitClear_holdsResetValues s

theorem reset_eq_hardwareReset : State.reset = hardwareReset State.reset := rfl

theorem reset_holdsResetValues : HoldsResetValues State.reset := by
  rw [reset_eq_hardwareReset]; exact hardwareReset_holdsResetValues _

/-- Settles O14: the three kinds of reset write the same values, and ID is hardwired. -/
theorem resetValues : Obligations.ResetValues :=
  ⟨⟨reset_holdsResetValues, reset_busy, reset_lastOp⟩,
    fun s => ⟨hardwareReset_holdsResetValues s, hardwareReset_busy s, hardwareReset_lastOp s⟩,
    fun s => ⟨implicitClear_holdsResetValues s, implicitClear_busy s, implicitClear_lastOp s⟩,
    fun _ => rfl⟩

/-! ### The invariants at reset -/

@[simp] theorem reset_freqAt (v : Byte) : freqAt State.reset v = 0#64 := by simp [freqAt]

theorem busyInv_reset : BusyInv State.reset := by simp [BusyInv]

theorem countInv_reset : CountInv State.reset := by
  have hsum : freqSum State.reset = 0 := by simp [freqSum]
  exact ⟨by rw [hsum]; rfl, fun v => by simp, nofun⟩

theorem treeInv_reset : TreeInv State.reset := hardwareReset_treeInv State.reset

theorem errorInv_reset : ErrorInv State.reset := ⟨nofun, fun _ => ⟨rfl, rfl, rfl⟩⟩

theorem bufferInv_reset : BufferInv State.reset := ⟨le_refl 8, .inr fun _ _ => BitVec.getLsbD_zero⟩

/-- Settles O60, invariant by invariant. -/
theorem invariantsAtReset : Obligations.InvariantsAtReset :=
  ⟨busyInv_reset, countInv_reset, treeInv_reset, errorInv_reset, bufferInv_reset⟩

/-! ### The fields of the packed words

Each word is an append of its fields, so a field is read by passing over the parts above it
(`BitVec.extractLsb'_append_eq_of_add_le`) and below it (`BitVec.extractLsb'_append_eq_of_le`). -/

theorem errFlag_iff (s : State) : errFlag s = true ↔ s.phase = .error := by simp [errFlag]

theorem statusWord_flags (s : State) :
    (statusWord s).getLsbD 0 = s.busy ∧ (statusWord s).getLsbD 1 = s.empty ∧
      (statusWord s).getLsbD 2 = errFlag s ∧ (statusWord s).getLsbD 3 = s.ovr := by
  simp only [statusWord, BitVec.getLsbD_append]
  simp

theorem statusWord_fields (s : State) :
    (statusWord s).extractLsb' 4 4 = 0#4 ∧ (statusWord s).extractLsb' 8 4 = phaseCode s.phase ∧
      (statusWord s).extractLsb' 12 4 = 0#4 ∧ (statusWord s).extractLsb' 16 8 = s.lastOp ∧
      (statusWord s).extractLsb' 24 40 = 0#40 := by
  simp (disch := decide) only [statusWord, BitVec.extractLsb'_append_eq_of_add_le, BitVec.extractLsb'_append_eq_of_le]
  simp

theorem errCodeWord_fields (s : State) :
    (errCodeWord s).extractLsb' 0 8 = s.errKind ∧ (errCodeWord s).extractLsb' 8 8 = s.errDetail ∧
      (errCodeWord s).extractLsb' 16 48 = 0#48 := by
  simp (disch := decide) only [errCodeWord, BitVec.extractLsb'_append_eq_of_add_le, BitVec.extractLsb'_append_eq_of_le]
  simp

theorem nodeWord0_fields (n : Node) :
    (nodeWord0 n).extractLsb' 0 2 = nodeTypeCode n.type ∧ (nodeWord0 n).extractLsb' 2 6 = 0#6 ∧
      (nodeWord0 n).extractLsb' 8 8 = n.sym ∧ (nodeWord0 n).extractLsb' 16 9 = n.zero ∧
      (nodeWord0 n).extractLsb' 25 7 = 0#7 ∧ (nodeWord0 n).extractLsb' 32 9 = n.one ∧
      (nodeWord0 n).extractLsb' 41 7 = 0#7 ∧ (nodeWord0 n).extractLsb' 48 8 = n.weight.extractLsb' 64 8 ∧
      (nodeWord0 n).extractLsb' 56 8 = 0#8 := by
  simp (disch := decide) only [nodeWord0, BitVec.extractLsb'_append_eq_of_add_le, BitVec.extractLsb'_append_eq_of_le]
  simp

theorem packWord_fields (s : State) :
    (packWord s).extractLsb' 0 8 = s.obuf ∧ (packWord s).extractLsb' 8 3 = s.ocnt ∧
      (packWord s).extractLsb' 11 53 = 0#53 := by
  simp (disch := decide) only [packWord, BitVec.extractLsb'_append_eq_of_add_le, BitVec.extractLsb'_append_eq_of_le]
  simp

theorem unpackWord_fields (s : State) :
    (unpackWord s).extractLsb' 0 8 = s.ibuf ∧ (unpackWord s).extractLsb' 8 4 = s.ipos ∧
      (unpackWord s).extractLsb' 12 4 = 0#4 ∧ (unpackWord s).extractLsb' 16 9 = s.cur ∧
      (unpackWord s).extractLsb' 25 39 = 0#39 := by
  simp (disch := decide) only [unpackWord, BitVec.extractLsb'_append_eq_of_add_le, BitVec.extractLsb'_append_eq_of_le]
  simp

/-- Settles O18, word by word. -/
theorem statusFields : Obligations.StatusFields := by
  refine ⟨fun s => ?_, rfl, errCodeWord_fields, fun n => ?_, packWord_fields, unpackWord_fields⟩
  · obtain ⟨hbusy, hempty, herr, hovr⟩ := statusWord_flags s
    exact ⟨hbusy, hempty, by rw [herr, errFlag_iff], hovr, statusWord_fields s⟩
  · obtain ⟨htype, hgap, hsym, hzero, hgap', hone, hgap'', hweight, htop⟩ := nodeWord0_fields n
    refine ⟨?_, hgap, hsym, hzero, hgap', hone, hgap'', hweight, htop, rfl⟩
    rw [htype]
    cases n.type <;> rfl

end Sys2Proof.Machine
end

section
/-! SUPPORT. The host's accesses to the MMIO window (20_memory.md R60 to R64): the map region by region, what a read
hands over, and where a write goes. -/
namespace Sys2Proof.Machine

/-! ### The map (R62)

Each region's view, in the words of the array it shows. -/

theorem windowView_freq (v : Byte) (s : State) : windowView (0x800 + 8 * v.toNat) s = freqAt s v := by
  have hv := v.isLt
  simp (disch := omega) only [windowView, if_neg, if_pos, Nat.add_sub_cancel_left, Nat.mul_div_cancel_left, freqAt]

theorem windowView_seqCnt {i : Nat} (hi : i < 256) (s : State) : windowView (0x1000 + 8 * i) s = seqCntAt s i := by
  simp (disch := omega) only [windowView, if_neg, if_pos, Nat.add_sub_cancel_left, Nat.mul_div_cancel_left]

theorem windowView_seqSym {i : Nat} (hi : i < 256) (s : State) :
    windowView (0x1800 + 8 * i) s = (seqSymAt s i).setWidth 64 := by
  simp (disch := omega) only [windowView, if_neg, if_pos, Nat.add_sub_cancel_left, Nat.mul_div_cancel_left]

/-- The arena's region shows its words in order, two to an entry. -/
theorem windowView_arena {w : Nat} (hw : w < 1022) (s : State) : windowView (0x2000 + 8 * w) s = arenaWord w s := by
  simp (disch := omega) only [windowView, if_neg, if_pos, Nat.add_sub_cancel_left, Nat.mul_div_cancel_left]

theorem arenaWord_even (k : NodeId) (s : State) : arenaWord (2 * k.toNat) s = nodeWord0 (nodeAt s k) := by
  simp [arenaWord, nodeAt]

theorem arenaWord_odd (k : NodeId) (s : State) : arenaWord (2 * k.toNat + 1) s = nodeWord1 (nodeAt s k) := by
  have hdiv : (2 * k.toNat + 1) / 2 = k.toNat := by omega
  simp [arenaWord, nodeAt, hdiv]

theorem windowView_node {k : NodeId} (hk : k.toNat ≤ 510) (s : State) :
    windowView (0x2000 + 16 * k.toNat) s = nodeWord0 (nodeAt s k) ∧
      windowView (0x2008 + 16 * k.toNat) s = nodeWord1 (nodeAt s k) := by
  have heven : 0x2000 + 16 * k.toNat = 0x2000 + 8 * (2 * k.toNat) := by omega
  have hodd : 0x2008 + 16 * k.toNat = 0x2000 + 8 * (2 * k.toNat + 1) := by omega
  rw [heven, hodd, windowView_arena (by omega), windowView_arena (by omega), arenaWord_even, arenaWord_odd]
  exact ⟨rfl, rfl⟩

theorem windowView_codeLen (v : Byte) (s : State) :
    windowView (0x4000 + 8 * v.toNat) s = (codeLenAt s v).setWidth 64 := by
  have hv := v.isLt
  simp (disch := omega) only [windowView, if_neg, if_pos, Nat.add_sub_cancel_left, Nat.mul_div_cancel_left, codeLenAt]

/-- The region of CODE_BITS shows its words in order, four to an entry. -/
theorem windowView_codeBitsWord {w : Nat} (hw : w < 1024) (s : State) :
    windowView (0x6000 + 8 * w) s = codeBitsWord w s := by
  simp (disch := omega) only [windowView, if_neg, if_pos, Nat.add_sub_cancel_left, Nat.mul_div_cancel_left]

theorem codeBitsWord_of_entry (v : Byte) {w : Nat} (hw : w < 4) (s : State) :
    codeBitsWord (4 * v.toNat + w) s = (codeBitsAt s v).extractLsb' (64 * w) 64 := by
  have hentry : (4 * v.toNat + w) / 4 = v.toNat := by omega
  have hpart : (4 * v.toNat + w) % 4 = w := by omega
  rw [codeBitsWord, hentry, hpart, codeBitsAt]

theorem windowView_codeBits (v : Byte) {w : Nat} (hw : w < 4) (s : State) :
    windowView (0x6000 + 32 * v.toNat + 8 * w) s = (codeBitsAt s v).extractLsb' (64 * w) 64 := by
  have hv := v.isLt
  have hoffset : 0x6000 + 32 * v.toNat + 8 * w = 0x6000 + 8 * (4 * v.toNat + w) := by omega
  rw [hoffset, windowView_codeBitsWord (by omega), codeBitsWord_of_entry v hw]

theorem reservedOffset_iff (o : Nat) :
    reservedOffset o = true ↔
      0x098 ≤ o ∧ o ≤ 0x7F8 ∨ 0x3FF0 ≤ o ∧ o ≤ 0x3FF8 ∨ 0x4800 ≤ o ∧ o ≤ 0x5FF8 := by
  simp [reservedOffset, or_assoc]

/-- The last register of the list is XFER_OUT, at 0x090. -/
theorem registerWord_past_end {o : Nat} (h : 0x098 ≤ o) (s : State) : registerWord o s = 0#64 := by
  simp (disch := omega) only [registerWord, if_neg]

theorem windowView_reserved {o : Nat} (h : reservedOffset o = true) (s : State) : windowView o s = 0#64 := by
  rcases (reservedOffset_iff o).mp h with ⟨hlo, hhi⟩ | ⟨hlo, hhi⟩ | ⟨hlo, hhi⟩
  · rw [windowView, if_pos (by omega), registerWord_past_end hlo]
  all_goals simp (disch := omega) only [windowView, if_neg, if_pos]

/-- Settles O17, region by region; the one-word registers stand at literal offsets. -/
theorem windowMap : Obligations.WindowMap := fun s =>
  ⟨rfl, rfl, rfl, rfl, rfl, rfl, rfl, rfl, rfl, rfl, rfl, rfl, rfl, rfl, rfl, rfl, rfl, rfl, rfl,
    fun v => windowView_freq v s,
    fun _ hi => ⟨windowView_seqCnt hi s, windowView_seqSym hi s⟩,
    fun _ hk => windowView_node hk s,
    fun v => windowView_codeLen v s,
    fun v _ hw => windowView_codeBits v hw s,
    fun o hlo hhi _ => windowView_reserved ((reservedOffset_iff o).mpr (.inl ⟨hlo, hhi⟩)) s,
    fun o hlo hhi _ => windowView_reserved ((reservedOffset_iff o).mpr (.inr (.inl ⟨hlo, hhi⟩))) s,
    fun o hlo hhi _ => windowView_reserved ((reservedOffset_iff o).mpr (.inr (.inr ⟨hlo, hhi⟩))) s⟩

/-! ### The host's next action -/

theorem step_of_script {s : State} {a : HostAction} {rest : List HostAction} (h : s.script = a :: rest) :
    step s = hostMove a rest s := by simp only [step, nextMove, h]

theorem accessWellFormed_iff (offset size : Nat) :
    accessWellFormed offset size = true ↔ size = 8 ∧ offset % 8 = 0 ∧ offset < 0x8000 := by
  simp only [accessWellFormed, Bool.and_eq_true, beq_iff_eq, decide_eq_true_eq, and_assoc]
  rfl

theorem step_read {s : State} {offset : Nat} {rest : List HostAction} (h : s.script = .read offset 8 :: rest)
    (halign : offset % 8 = 0) (hin : offset < 0x8000) : step s = .next (memRead offset (restOfScript rest s)) := by
  rw [step_of_script h]
  exact if_pos ((accessWellFormed_iff offset 8).mpr ⟨rfl, halign, hin⟩)

theorem step_write {s : State} {offset : Nat} {w : Word} {rest : List HostAction}
    (h : s.script = .write offset 8 w :: rest) (halign : offset % 8 = 0) (hin : offset < 0x8000) :
    step s = memWrite offset w (restOfScript rest s) := by
  rw [step_of_script h]
  exact if_pos ((accessWellFormed_iff offset 8).mpr ⟨rfl, halign, hin⟩)

theorem step_read_refused {s : State} {offset size : Nat} {rest : List HostAction}
    (h : s.script = .read offset size :: rest) (hbad : accessWellFormed offset size = false) :
    step s = .refused (.badAccess offset size) := by
  rw [step_of_script h]
  simp [hostMove, hbad]

theorem step_write_refused {s : State} {offset size : Nat} {w : Word} {rest : List HostAction}
    (h : s.script = .write offset size w :: rest) (hbad : accessWellFormed offset size = false) :
    step s = .refused (.badAccess offset size) := by
  rw [step_of_script h]
  simp [hostMove, hbad]

/-! ### Reads (R60, R63) -/

theorem exactWhileBusy_of_mem {o : Nat} (h : o ∈ [0x000, 0x010, 0x018, 0x020]) : exactWhileBusy o = true := by
  simp only [List.mem_cons, List.not_mem_nil, or_false] at h
  rcases h with rfl | rfl | rfl | rfl <;> rfl

theorem exactWhileBusy_of_reserved {o : Nat} (h : reservedOffset o = true) : exactWhileBusy o = true := by
  simp [exactWhileBusy, h]

theorem memRead_exact {o : Nat} {s : State} (h : s.busy = false ∨ exactWhileBusy o = true) :
    memRead o s = { s with reads := s.reads ++ [{ offset := o, value := windowView o s }] } := by
  rcases h with hb | he
  · simp [memRead, hb]
  · simp [memRead, he]

/-- Whatever the value, a read only records it; the free value of R63 takes one draw. -/
theorem memRead_records (o : Nat) (s : State) :
    ∃ v d, memRead o s = { s with reads := s.reads ++ [{ offset := o, value := v }], draws := d } := by
  unfold memRead
  split
  · exact ⟨Config.busyRead s.draws, s.draws + 1, rfl⟩
  · exact ⟨windowView o s, s.draws, rfl⟩

/-- No register's view shows the host's program. -/
theorem windowView_restOfScript (o : Nat) (rest : List HostAction) (s : State) :
    windowView o (restOfScript rest s) = windowView o s := rfl

theorem step_read_exact {s : State} {o : Nat} {rest : List HostAction} (h : s.script = .read o 8 :: rest)
    (halign : o % 8 = 0) (hin : o < 0x8000) (hexact : s.busy = false ∨ exactWhileBusy o = true) :
    step s = .next { s with
      script := rest, reads := s.reads ++ [{ offset := o, value := windowView o s }] } := by
  have hexact' : (restOfScript rest s).busy = false ∨ exactWhileBusy o = true := hexact
  rw [step_read h halign hin, memRead_exact hexact', windowView_restOfScript]
  rfl

/-- Settles O19: an exact read hands over the view, a reserved offset's view is 0, and any read only records. -/
theorem readsExact : Obligations.ReadsExact := by
  intro s o rest h halign hin
  refine ⟨fun hexact => ?_, fun hres => ?_, ?_⟩
  · exact step_read_exact h halign hin (hexact.imp_right exactWhileBusy_of_mem)
  · have hres' := (reservedOffset_iff o).mpr hres
    rw [step_read_exact h halign hin (.inr (exactWhileBusy_of_reserved hres')), windowView_reserved hres']
  · obtain ⟨v, d, hread⟩ := memRead_records o (restOfScript rest s)
    exact ⟨v, d, by rw [step_read h halign hin, hread]; rfl⟩

/-! ### Writes (R61, 40_control.md R96) -/

theorem memWrite_cmd (w : Word) (s : State) : memWrite Config.cmdOffset w s = onCmdWrite w s := if_pos rfl

theorem memWrite_ignored {o : Nat} (h : o ≠ Config.cmdOffset) (w : Word) (s : State) : memWrite o w s = .next s :=
  if_neg h

theorem onCmdWrite_command {w : Word} {i : Instr} (h : decodeCmd w = .ok i) (s : State) :
    onCmdWrite w s = exec i s := by simp only [onCmdWrite, h]

theorem step_cmdWrite {s : State} {w : Word} {rest : List HostAction}
    (h : s.script = .write Config.cmdOffset 8 w :: rest) : step s = onCmdWrite w (restOfScript rest s) := by
  rw [step_write h (by decide) (by decide), memWrite_cmd]

/-- Settles O20: a write goes by its offset, and R64's three faults are what `accessWellFormed` rejects. -/
theorem windowAccesses : Obligations.WindowAccesses := by
  refine ⟨fun s o w rest h halign hin => ⟨?_, fun hne => ?_⟩, fun s o size w rest hmal => ?_⟩
  · rintro rfl
    exact step_cmdWrite h
  · rw [step_write h halign hin, memWrite_ignored hne]
    rfl
  · have hbad : accessWellFormed o size = false := by
      rw [Bool.eq_false_iff, ne_eq, accessWellFormed_iff]
      omega
    exact ⟨fun h => step_read_refused h hbad, fun h => step_write_refused h hbad⟩

/-! ### The decoded command (R61, R96) -/

/-- A word of the opcode table that decodes at all is the 64-bit command word that `withFetchWord` places. -/
theorem decodeCmd_tableWord {nbits w : Nat} {i : Instr} (h : decodeTableWord nbits w = some i) :
    decodeCmd (tableWord nbits w) = .ok i := by
  simp only [decodeTableWord] at h
  split at h
  · split at h
    · next j hj =>
      cases h
      exact hj
    · cases h
  · cases h

/-- Taking the placed write from the program gives back the state it was placed in. -/
theorem restOfScript_withFetchWord (s : State) (nbits w : Nat) :
    restOfScript s.script (s.withFetchWord nbits w) = s := rfl

/-- Settles O4: a CMD write presents its word to the decoder, and so does the one `withFetchWord` places. -/
theorem stepRunsDecoded : Obligations.StepRunsDecoded := by
  refine ⟨fun s rest w i h hdec => ?_, fun s nbits w i hdec => ?_⟩
  · rw [step_cmdWrite h, onCmdWrite_command hdec]
  · have hscript : (s.withFetchWord nbits w).script = .write Config.cmdOffset 8 (tableWord nbits w) :: s.script := rfl
    rw [step_cmdWrite hscript, restOfScript_withFetchWord, onCmdWrite_command (decodeCmd_tableWord hdec)]

end Sys2Proof.Machine
end

section
/-! SUPPORT. The encoding (30_encoding.md R72 to R76): the opcode map and its inverse, a command word as its two fields,
and what becomes of a word that is no command's. -/
namespace Sys2Proof.Machine

/-! ### The opcode map (R74) -/

theorem commandOfOpcode_eq_some_iff (op : Byte) (i : Instr) : commandOfOpcode op = some i ↔ opcodeOf i = op := by
  constructor
  · intro h
    unfold commandOfOpcode at h
    split_ifs at h <;> (cases h; exact Eq.symm ‹_›)
  · rintro rfl
    exact commandOfOpcode_opcodeOf i

theorem opcodeOf_mem_knownOpcodes (i : Instr) : opcodeOf i ∈ knownOpcodes := by cases i <;> decide

theorem mem_knownOpcodes_iff (op : Byte) : op ∈ knownOpcodes ↔ ∃ i, opcodeOf i = op := by
  constructor
  · intro h
    simp only [knownOpcodes, List.mem_cons, List.not_mem_nil, or_false] at h
    rcases h with rfl | rfl | rfl | rfl | rfl | rfl | rfl | rfl | rfl
    exacts [⟨.nop, rfl⟩, ⟨.clear, rfl⟩, ⟨.encCount, rfl⟩, ⟨.encBuild, rfl⟩, ⟨.encHeader, rfl⟩, ⟨.encEmit, rfl⟩,
      ⟨.decHeader, rfl⟩, ⟨.decBuild, rfl⟩, ⟨.decPayload, rfl⟩]
  · rintro ⟨i, rfl⟩
    exact opcodeOf_mem_knownOpcodes i

theorem commandOfOpcode_eq_none {op : Byte} (h : op ∉ knownOpcodes) : commandOfOpcode op = none := by
  refine Option.eq_none_iff_forall_ne_some.mpr fun i hi => h ?_
  exact (mem_knownOpcodes_iff op).mpr ⟨i, (commandOfOpcode_eq_some_iff op i).mp hi⟩

/-! ### A word is its two fields (R72) -/

theorem rsv_append_opcode (w : Word) : w.extractLsb' 8 56 ++ w.extractLsb' 0 8 = w :=
  (BitVec.extractLsb'_append_extractLsb'_eq_extractLsb' rfl).trans BitVec.extractLsb'_eq_self

theorem encode_opcode (i : Instr) : (encode i).extractLsb' 0 8 = opcodeOf i :=
  BitVec.extractLsb'_append_eq_right

theorem encode_rsv (i : Instr) : (encode i).extractLsb' 8 56 = 0#56 :=
  BitVec.extractLsb'_append_eq_left

/-- The two fields cover all 64 bits, so together they say which command's word it is. -/
theorem eq_encode_iff (w : Word) (i : Instr) :
    w = encode i ↔ opcodeOf i = w.extractLsb' 0 8 ∧ w.extractLsb' 8 56 = 0#56 := by
  constructor
  · rintro rfl
    exact ⟨(encode_opcode i).symm, encode_rsv i⟩
  · rintro ⟨hopcode, hrsv⟩
    rw [← rsv_append_opcode w, hrsv, ← hopcode, encode]

/-- Both tests of R75 passed: the word is one of the nine. -/
theorem exists_eq_encode_iff (w : Word) :
    (∃ i, w = encode i) ↔ w.extractLsb' 0 8 ∈ knownOpcodes ∧ w.extractLsb' 8 56 = 0#56 := by
  simp only [eq_encode_iff, exists_and_right, mem_knownOpcodes_iff]

/-! ### DecodeCmd (R76), outcome by outcome -/

theorem decodeCmd_unknown {w : Word} (h : w.extractLsb' 0 8 ∉ knownOpcodes) :
    decodeCmd w = .error .illegalOpcode := by
  simp only [decodeCmd, commandOfOpcode_eq_none h]

theorem decodeCmd_of_opcode {w : Word} {i : Instr} (h : opcodeOf i = w.extractLsb' 0 8) :
    decodeCmd w = if w.extractLsb' 8 56 = 0#56 then .ok i else .error .reservedBits := by
  simp only [decodeCmd, (commandOfOpcode_eq_some_iff _ i).mpr h]

theorem decodeCmd_reserved {w : Word} (hopcode : w.extractLsb' 0 8 ∈ knownOpcodes)
    (hrsv : w.extractLsb' 8 56 ≠ 0#56) : decodeCmd w = .error .reservedBits := by
  obtain ⟨i, hi⟩ := (mem_knownOpcodes_iff _).mp hopcode
  rw [decodeCmd_of_opcode hi, if_neg hrsv]

@[simp] theorem decodeCmd_encode (i : Instr) : decodeCmd (encode i) = .ok i := by
  rw [decodeCmd_of_opcode (encode_opcode i).symm, if_pos (encode_rsv i)]

/-- The other direction: a word that is no command's fails one of the two tests, the opcode's first. -/
theorem decodeCmd_notCommand {w : Word} (h : ∀ i, w ≠ encode i) :
    decodeCmd w = .error (if w.extractLsb' 0 8 ∈ knownOpcodes then .reservedBits else .illegalOpcode) := by
  split_ifs with hopcode
  · exact decodeCmd_reserved hopcode fun hrsv => not_exists.mpr h ((exists_eq_encode_iff w).mpr ⟨hopcode, hrsv⟩)
  · exact decodeCmd_unknown hopcode

/-- Settles O3: encoding gives back the command, and a word that is no command's decodes to an error. -/
theorem decodeEncodeAgree : Obligations.DecodeEncodeAgree := by
  intro w i
  constructor
  · intro h
    by_cases hword : ∃ j, w = encode j
    · obtain ⟨j, rfl⟩ := hword
      rw [decodeCmd_encode] at h
      cases h
      rfl
    · rw [decodeCmd_notCommand (not_exists.mp hword)] at h
      cases h
  · rintro rfl
    exact decodeCmd_encode i

/-- Settles O1, word by word. -/
theorem commandWords : Obligations.CommandWords :=
  ⟨decode_word_nop, decode_word_clear, decode_word_encCount, decode_word_encBuild, decode_word_encHeader,
    decode_word_encEmit, decode_word_decHeader, decode_word_decBuild, decode_word_decPayload⟩

/-- Settles O2, one branch of R76 at a time. -/
theorem decodeTotal : Obligations.DecodeTotal := by
  refine fun w => ⟨decodeCmd_unknown, decodeCmd_reserved, fun hopcode hrsv => ?_⟩
  obtain ⟨i, hi⟩ := (mem_knownOpcodes_iff _).mp hopcode
  exact ⟨i, by rw [decodeCmd_of_opcode hi, if_pos hrsv], hi⟩

/-! ### An illegal word presented to CMD (R75) -/

theorem onCmdWrite_illegal {w : Word} {e : DecodeError} (h : decodeCmd w = .error e) (s : State) :
    onCmdWrite w s = .next (rejectWord e w s) := by simp only [onCmdWrite, h]

theorem rejectWord_busy {e : DecodeError} {w : Word} {s : State} (hb : s.busy = true) :
    rejectWord e w s = dropCommand s := by simp [rejectWord, hb]

theorem rejectWord_inError {e : DecodeError} {w : Word} {s : State} (hb : s.busy = false) (he : s.phase = .error) :
    rejectWord e w s = s := by simp [rejectWord, hb, he]

theorem rejectWord_illegalOpcode {w : Word} {s : State} (hb : s.busy = false) (he : s.phase ≠ .error) :
    rejectWord .illegalOpcode w s = raise .illegalOpcode w s := by simp [rejectWord, hb, he]

theorem rejectWord_reservedBits {w : Word} {s : State} (hb : s.busy = false) (he : s.phase ≠ .error) :
    rejectWord .reservedBits w s = raise .reservedBits w s := by simp [rejectWord, hb, he]

/-- Settles O5: such a word goes to `rejectWord`, with the error that names the first test it fails. -/
theorem illegalWordRejected : Obligations.IllegalWordRejected := by
  intro w s hword
  rw [onCmdWrite_illegal (decodeCmd_notCommand hword)]
  refine ⟨fun hb he => ?_, fun hb he => ?_, fun hb => ?_⟩
  · split_ifs with hopcode
    · rw [rejectWord_reservedBits hb he]
      rfl
    · rw [rejectWord_illegalOpcode hb he]
      rfl
  · rw [rejectWord_inError hb he]
  · rw [rejectWord_busy hb, dropCommand]

end Sys2Proof.Machine
end

section
/-! SUPPORT. What a command's program does between two interaction points (40_control.md R105, R107), said once: the
program takes the core to a state where it has completed, has raised an error, or waits. The invariants of the control
registers and the buffers, OVR, and PHASE at the end of a command are read off from that. -/
namespace Sys2Proof.Machine

/-! ### The registers a program leaves alone until it stops -/

/-- The control registers and the error record, with the position and the schedule. -/
structure Control where
  busy      : Bool
  phase     : Phase
  ovr       : Bool
  errKind   : Byte
  errDetail : Byte
  errInfo   : Word
  pos       : Position
  eager     : Bool

def control (s : State) : Control :=
  { busy := s.busy, phase := s.phase, ovr := s.ovr, errKind := s.errKind, errDetail := s.errDetail
    errInfo := s.errInfo, pos := s.pos, eager := s.eager }

/-- What `BufferInv` speaks of: the position in IBUF, and OBUF with its fill. -/
structure Buffers where
  ipos : BitVec 4
  ocnt : BitVec 3
  obuf : Byte

def buffers (s : State) : Buffers := { ipos := s.ipos, ocnt := s.ocnt, obuf := s.obuf }

/-- IPOS is at most 8 and the unused bits of OBUF are 0 (10_state.md R34, R38): `BufferInv` where no full byte waits. -/
def Tidy (s : State) : Prop := s.ipos.toNat ≤ 8 ∧ ∀ j, s.ocnt.toNat ≤ j → s.obuf.getLsbD j = false

/-- No error is recorded (R23, R24). -/
def Clean (s : State) : Prop := s.phase ≠ .error ∧ s.errKind = 0#8 ∧ s.errDetail = 0#8 ∧ s.errInfo = 0#64

/-- From `s` to `u` the program computes on: the control registers stay, and tidy buffers stay tidy. -/
structure Works (s u : State) : Prop where
  control : control u = control s
  tidy : Tidy s → Tidy u

namespace Works
variable {s u v : State}

theorem unchanged (h : Works s u) (hc : Machine.control v = Machine.control u) (hb : buffers v = buffers u) :
    Works s v := by
  refine ⟨hc.trans h.control, fun hs => ?_⟩
  obtain ⟨hipos, hpacked⟩ := h.tidy hs
  have hi : v.ipos = u.ipos := congrArg Buffers.ipos hb
  have hn : v.ocnt = u.ocnt := congrArg Buffers.ocnt hb
  have ho : v.obuf = u.obuf := congrArg Buffers.obuf hb
  exact ⟨hi ▸ hipos, by rw [hn, ho]; exact hpacked⟩

theorem refl (s : State) : Works s s := ⟨rfl, id⟩

theorem of_unchanged (hc : Machine.control u = Machine.control s) (hb : buffers u = buffers s) : Works s u :=
  (refl s).unchanged hc hb

theorem trans (h : Works s u) (h' : Works u v) : Works s v :=
  ⟨h'.control.trans h.control, fun hs => h'.tidy (h.tidy hs)⟩

theorem busy (h : Works s u) : u.busy = s.busy := congrArg Control.busy h.control
theorem phase (h : Works s u) : u.phase = s.phase := congrArg Control.phase h.control
theorem ovr (h : Works s u) : u.ovr = s.ovr := congrArg Control.ovr h.control
theorem eager (h : Works s u) : u.eager = s.eager := congrArg Control.eager h.control

end Works

/-- Whether no error is recorded is read from the control registers. -/
theorem Clean.of_control {s u : State} (h : control u = control s) (hs : Clean s) : Clean u := by
  simp only [control, Control.mk.injEq] at h
  obtain ⟨-, hphase, -, hkind, hdetail, hinfo, -, -⟩ := h
  simpa only [Clean, hphase, hkind, hdetail, hinfo] using hs

/-! ### Where a program stops -/

/-- The command whose program a position belongs to. -/
def commandOf : Position → Option Instr
  | .idle => none
  | .countPop => some .encCount
  | .headerPush _ _ => some .encHeader
  | .emitPop | .emitPush _ | .emitClose | .abortClose => some .encEmit
  | .decLen _ | .decCount _ | .decSym _ | .decCnt _ _ _ => some .decHeader
  | .payloadPop | .payloadPush _ => some .decPayload

/-- Everything the program of the command `i` can have done from `s` when it next stops. -/
inductive Stops (i : Instr) (s : State) : State → Prop where
  /-- It completes in the PHASE of its success (40_control.md R101). -/
  | completes {u : State} (h : Works s u) : Stops i s (completeIn (phaseAfter s.phase i) u)
  /-- It raises an error (60_exceptions.md R206). -/
  | raises {u : State} (c : ErrorCause) (info : Word) (h : Works s u) : Stops i s (raise c info u)
  /-- It waits at an interaction point, with its buffers tidy and no error recorded. -/
  | waits {u : State} {p : Position} (hp : commandOf p = some i) (hne : p ≠ .abortClose) (h : Works s u) :
      Stops i s (waitAt p u)
  /-- A bit has filled OBUF, whose push waits (41_bitstream.md R114). -/
  | fillsByte {u : State} (bits : List Bool) (n : Word) (b : Byte) (hi : i = .encEmit) (h : Works s u) :
      Stops i s (waitAt (.emitPush bits) { u with emitBits := n, obuf := b })
  /-- AbortEmit has recorded its error and offers the partial byte (44_encoder.md R160). -/
  | aborts {u : State} (c : ErrorCause) (info : Word) (hi : i = .encEmit) (h : Works s u) :
      Stops i s (waitAt .abortClose (record c info u))

/-! ### The buffers -/

theorem emptyPacker_works (s : State) : Works s (emptyPacker s) :=
  ⟨rfl, fun hs => ⟨hs.1, fun _ _ => BitVec.getLsbD_zero⟩⟩

theorem openPacker_works (s : State) : Works s (openPacker s) :=
  ⟨rfl, fun hs => ⟨hs.1, fun _ _ => BitVec.getLsbD_zero⟩⟩

theorem openUnpacker_works (s : State) : Works s (openUnpacker s) := ⟨rfl, fun hs => ⟨le_refl 8, hs.2⟩⟩

theorem refillUnpacker_works (v : Byte) (s : State) : Works s (refillUnpacker v s) :=
  ⟨rfl, fun hs => ⟨Nat.zero_le 8, hs.2⟩⟩

/-- `OBUF[OCNT] <- b` writes no bit above OCNT. -/
theorem withBit_above {buf : Byte} {n : BitVec 3} {j : Nat} (b : Bool) (hj : n.toNat < j)
    (h : buf.getLsbD j = false) : (withBit buf n b).getLsbD j = false := by
  have hmask : (1#8 <<< n.toNat).getLsbD j = false := by
    have : j - n.toNat ≠ 0 := by omega
    simp [this]
  unfold withBit
  split
  · rw [BitVec.getLsbD_or, h, hmask, Bool.or_self]
  · rw [BitVec.getLsbD_and, h, Bool.false_and]

/-- A bit that does not fill OBUF leaves the bits above it 0 (41_bitstream.md R114). -/
theorem writeBit_works (s : State) (n : Word) (b : Bool) (h : s.ocnt ≠ 7#3) :
    Works s { s with emitBits := n, obuf := withBit s.obuf s.ocnt b, ocnt := s.ocnt + 1 } := by
  refine ⟨rfl, fun hs => ⟨hs.1, fun j hj => ?_⟩⟩
  have hnext : (s.ocnt + 1).toNat = s.ocnt.toNat + 1 := by bv_omega
  have hj' : s.ocnt.toNat < j := by
    have : (s.ocnt + 1).toNat ≤ j := hj
    omega
  exact withBit_above b hj' (hs.2 j hj'.le)

/-- A delivered bit moves IPOS on, to 8 at most (R118). -/
theorem advanceUnpacker_works (s : State) (h : Tidy s → s.ipos.toNat < 8) : Works s (advanceUnpacker s) := by
  refine ⟨rfl, fun hs => ⟨?_, hs.2⟩⟩
  have := h hs
  have : (s.ipos + 1).toNat ≤ 8 := by bv_omega
  exact this

/-! ### The programs, from one stop to the next -/

variable {s u : State}

theorem countElem_stops (e : InElem) (s : State) : Stops .encCount s (countElem e s) := by
  cases e with
  | byte v =>
    simp only [countElem]
    split
    · exact .raises _ _ (.refl s)
    · exact .waits rfl nofun (.of_unchanged rfl rfl)
  | endOfFile => exact .completes (.refl s)
  | fault => exact .raises _ _ (.refl s)

theorem writeSeq_works (es : List (Byte × Word)) (n : Nat) (s : State) : Works s (writeSeq es n s) := by
  induction es generalizing n s with
  | nil => exact .of_unchanged rfl rfl
  | cons e es ih =>
    have hentry : Works s (setSeqEntry n e.1 e.2 s) := .of_unchanged rfl rfl
    exact hentry.trans (ih (n + 1) _)

theorem buildTree_works (n : Nat) (s : State) : Works s (buildTree n s) := by
  unfold buildTree
  split <;> exact .of_unchanged rfl rfl

theorem encBuildProgram_stops (s : State) : Stops .encBuild s (encBuildProgram s) := by
  have ht : Works s (setStatOrig (freqSequence s)) := (writeSeq_works _ 0 s).unchanged rfl rfl
  simp only [encBuildProgram]
  generalize setStatOrig (freqSequence s) = t at ht ⊢
  have hu : Works s (buildTable (buildTree t.seqN.toNat t)) := (ht.trans (buildTree_works _ t)).unchanged rfl rfl
  generalize buildTable (buildTree t.seqN.toNat t) = u at hu ⊢
  split
  · exact .completes (ht.unchanged rfl rfl)
  · split
    · exact .raises _ _ hu
    · have hlength : ∀ n, Works s { u with payloadBits := n } := fun _ => hu.unchanged rfl rfl
      exact .completes (hlength _)

theorem decBuildProgram_stops (s : State) : Stops .decBuild s (decBuildProgram s) := by
  unfold decBuildProgram
  split
  · exact .completes (.refl s)
  · exact .completes (buildTree_works _ s)

theorem pushHeader_stops (bs : List Byte) (s : State) : Stops .encHeader s (pushHeader bs s) := by
  cases bs with
  | nil => exact .completes (.of_unchanged rfl rfl)
  | cons b rest => exact .waits rfl nofun (.refl s)

theorem startHeader_stops (s : State) : Stops .encHeader s (startHeader s) := by
  unfold startHeader
  split
  · exact .completes (.of_unchanged rfl rfl)
  · exact pushHeader_stops _ s

theorem headerAnswered_stops (r : SinkAnswer) (rest : List Byte) (s : State) :
    Stops .encHeader s (headerAnswered r rest s) := by
  cases r with
  | ok => exact pushHeader_stops rest s
  | fault => exact .raises _ _ (.refl s)

theorem writeBits_stops (bits : List Bool) (h : Works s u) : Stops .encEmit s (writeBits bits u) := by
  induction bits generalizing u with
  | nil => exact .waits rfl nofun h
  | cons b bits ih =>
    simp only [writeBits]
    split
    · exact .fillsByte bits _ _ rfl h
    · next hocnt => exact ih (h.trans (writeBit_works u _ b hocnt))

theorem abortEmit_stops (c : ErrorCause) (info : Word) (s : State) : Stops .encEmit s (abortEmit c info s) := by
  simp only [abortEmit]
  split
  · exact .raises c info (.refl s)
  · exact .aborts c info rfl (.refl s)

theorem emitFinish_stops (h : Works s u) : Stops .encEmit s (emitFinish u) := by
  unfold emitFinish
  split
  · exact .completes (h.unchanged rfl rfl)
  · exact .raises _ _ h

theorem emitElem_stops (e : InElem) (s : State) : Stops .encEmit s (emitElem e s) := by
  cases e with
  | byte v =>
    simp only [emitElem]
    split
    · exact abortEmit_stops _ _ s
    · split
      · exact abortEmit_stops _ _ s
      · exact writeBits_stops _ (.refl s)
  | endOfFile =>
    simp only [emitElem]
    split
    · exact emitFinish_stops (.refl s)
    · exact .waits rfl nofun (.refl s)
  | fault => exact abortEmit_stops _ _ s

/-- The answer to a full byte: the program goes on from the emptied buffer (41_bitstream.md R114). -/
theorem emitAnswered_stops (r : SinkAnswer) (bits : List Bool) (s : State) :
    Stops .encEmit (emptyPacker s) (emitAnswered r bits s) := by
  cases r with
  | ok => exact writeBits_stops bits (.refl _)
  | fault => exact .raises _ _ (.refl _)

theorem closeAnswered_stops (r : SinkAnswer) (s : State) : Stops .encEmit s (closeAnswered r s) := by
  cases r with
  | ok => exact emitFinish_stops (emptyPacker_works s)
  | fault => exact .raises _ _ (emptyPacker_works s)

theorem hdrFailed_stops (e : InElem) (s : State) : Stops .decHeader s (hdrFailed e s) := by
  cases e <;> exact .raises _ _ (.refl s)

theorem decLenByte_stops (got : List Byte) (v : Byte) (s : State) : Stops .decHeader s (decLenByte got v s) := by
  unfold decLenByte
  split <;> exact .waits rfl nofun (.of_unchanged rfl rfl)

theorem decFirstElem_stops (e : InElem) (s : State) : Stops .decHeader s (decFirstElem e s) := by
  cases e with
  | byte v => exact decLenByte_stops [] v s
  | endOfFile => exact .completes (.of_unchanged rfl rfl)
  | fault => exact .raises _ _ (.refl s)

theorem decCountByte_stops (got : List Byte) (v : Byte) (s : State) : Stops .decHeader s (decCountByte got v s) := by
  unfold decCountByte decCountDone
  split
  · exact .waits rfl nofun (.refl s)
  · split
    · exact .raises _ _ (.refl s)
    · exact .waits rfl nofun (.of_unchanged rfl rfl)

theorem decCntByte_stops (i : Nat) (sym : Byte) (got : List Byte) (v : Byte) (s : State) :
    Stops .decHeader s (decCntByte i sym got v s) := by
  simp only [decCntByte, decEntryDone]
  split
  · exact .waits rfl nofun (.refl s)
  · split
    · exact .waits rfl nofun (.of_unchanged rfl rfl)
    · exact .completes (.of_unchanged rfl rfl)

theorem payloadEnd_stops (h : Works s u) : Stops .decPayload s (payloadEnd u) := by
  unfold payloadEnd
  split
  · exact .completes (h.unchanged rfl rfl)
  · exact .raises _ _ h

/-- The loop takes no more bits than IBUF still holds, so IPOS does not pass 8. -/
theorem payloadLoop_stops (bits : List Bool) (h : Works s u) (hlen : Tidy s → u.ipos.toNat + bits.length ≤ 8) :
    Stops .decPayload s (payloadLoop bits u) := by
  induction bits generalizing u with
  | nil =>
    simp only [payloadLoop]
    split
    · exact payloadEnd_stops h
    · exact .waits rfl nofun h
  | cons b bits ih =>
    simp only [List.length_cons] at hlen
    have hadv : Works s (advanceUnpacker u) := by
      refine ⟨h.control, fun hs => (advanceUnpacker_works u fun _ => ?_).tidy (h.tidy hs)⟩
      have := hlen hs
      omega
    simp only [payloadLoop]
    split
    · exact payloadEnd_stops h
    · split
      · exact .raises _ _ hadv
      · split
        · exact .waits rfl nofun (hadv.unchanged rfl rfl)
        · refine ih (hadv.unchanged rfl rfl) fun hs => ?_
          have := hlen hs
          have : (u.ipos + 1).toNat + bits.length ≤ 8 := by
            rw [BitVec.toNat_add_of_lt (by simp; omega)]
            simp; omega
          exact this

theorem payloadResume_stops (h : Works s u) : Stops .decPayload s (payloadResume u) := by
  refine payloadLoop_stops _ h fun hs => ?_
  have := (h.tidy hs).1
  rw [unreadBits_length]
  omega

theorem startPayload_stops (s : State) : Stops .decPayload s (startPayload s) := by
  unfold startPayload
  split
  · exact .completes (.of_unchanged rfl rfl)
  · exact payloadResume_stops ((openUnpacker_works s).unchanged rfl rfl)

theorem payloadElem_stops (e : InElem) (s : State) : Stops .decPayload s (payloadElem e s) := by
  cases e with
  | byte v => exact payloadResume_stops (refillUnpacker_works v s)
  | endOfFile => exact .raises _ _ (.refl s)
  | fault => exact .raises _ _ (.refl s)

theorem payloadAnswered_stops (r : SinkAnswer) (s : State) : Stops .decPayload s (payloadAnswered r s) := by
  cases r with
  | ok => exact payloadResume_stops (.of_unchanged rfl rfl)
  | fault => exact .raises _ _ (.refl s)

/-! ### A step of the core -/

/-- The program goes on from `u` after the interaction `s` waited for: the control registers are those of `s`, and the
buffers are tidy, a full byte being taken out of OBUF. -/
structure Resumes (s u : State) : Prop where
  control : control u = control s
  tidy : BufferInv s → Tidy u

theorem BufferInv.tidy (h : BufferInv s) (hs : s.busy = false ∨ ∀ bits, s.pos ≠ .emitPush bits) : Tidy s := by
  refine ⟨h.1, h.2.resolve_left ?_⟩
  rintro ⟨hb, bits, hpos⟩
  rcases hs with hs | hs
  · exact absurd hb (by simp [hs])
  · exact hs bits hpos

theorem Resumes.of_works (h : Works s u) (hpos : ∀ bits, s.pos ≠ .emitPush bits) : Resumes s u :=
  ⟨h.control, fun hs => h.tidy (hs.tidy (.inr hpos))⟩

theorem popIn_works (e : InElem) (rest : List InElem) (s : State) : Works s (popIn e rest s) :=
  .of_unchanged (by simp [control]) (by simp [buffers])

theorem pushOut_works (b : Byte) (r : SinkAnswer) (s : State) : Works s (pushOut b r s) :=
  .of_unchanged (by simp [control]) (by simp [buffers])

theorem afterPop_stops (e : InElem) (hw : awaited s = .pop) :
    ∃ i, commandOf s.pos = some i ∧ (∀ bits, s.pos ≠ .emitPush bits) ∧ Stops i s (afterPop e s) := by
  cases hpos : s.pos with simp only [afterPop, hpos]
  | countPop => exact ⟨_, rfl, nofun, countElem_stops e s⟩
  | emitPop => exact ⟨_, rfl, nofun, emitElem_stops e s⟩
  | payloadPop => exact ⟨_, rfl, nofun, payloadElem_stops e s⟩
  | decLen got =>
    refine ⟨_, rfl, nofun, ?_⟩
    cases got with
    | nil => exact decFirstElem_stops e s
    | cons g got =>
      cases e with
      | byte v => exact decLenByte_stops _ v s
      | endOfFile | fault => exact hdrFailed_stops _ s
  | decCount got =>
    refine ⟨_, rfl, nofun, ?_⟩
    cases e with
    | byte v => exact decCountByte_stops got v s
    | endOfFile | fault => exact hdrFailed_stops _ s
  | decSym i =>
    refine ⟨_, rfl, nofun, ?_⟩
    cases e with
    | byte v => exact .waits rfl nofun (.refl s)
    | endOfFile | fault => exact hdrFailed_stops _ s
  | decCnt i sym got =>
    refine ⟨_, rfl, nofun, ?_⟩
    cases e with
    | byte v => exact decCntByte_stops i sym got v s
    | endOfFile | fault => exact hdrFailed_stops _ s
  | idle | headerPush | emitPush | emitClose | abortClose | payloadPush =>
    simp only [awaited, hpos] at hw
    split at hw <;> cases hw

theorem afterPush_stops {b : Byte} (r : SinkAnswer) (hw : awaited s = .push b) (hne : s.pos ≠ .abortClose) :
    ∃ i u, commandOf s.pos = some i ∧ Resumes s u ∧ Stops i u (afterPush r s) := by
  have hsame : (∀ bits, s.pos ≠ .emitPush bits) → Resumes s s := .of_works (.refl s)
  cases hpos : s.pos with simp only [afterPush, hpos]
  | headerPush c rest => exact ⟨_, s, rfl, hsame (by simp [hpos]), headerAnswered_stops r rest s⟩
  | emitPush bits =>
    have hempty : Resumes s (emptyPacker s) := ⟨rfl, fun hs => ⟨hs.1, fun _ _ => BitVec.getLsbD_zero⟩⟩
    exact ⟨_, _, rfl, hempty, emitAnswered_stops r bits s⟩
  | emitClose => exact ⟨_, s, rfl, hsame (by simp [hpos]), closeAnswered_stops r s⟩
  | payloadPush sym => exact ⟨_, s, rfl, hsame (by simp [hpos]), payloadAnswered_stops r s⟩
  | abortClose => exact absurd hpos hne
  | idle | countPop | emitPop | decLen | decCount | decSym | decCnt | payloadPop =>
    simp only [awaited, hpos] at hw
    split at hw <;> cases hw

/-- A step of the core takes the running command to its next stop. -/
theorem coreStep_stops {s t : State} (h : coreStep s = some t) (hne : s.pos ≠ .abortClose) :
    ∃ i u, commandOf s.pos = some i ∧ Resumes s u ∧ Stops i u t := by
  rcases coreStep_cases h with ⟨e, rest, hw, -, rfl⟩ | ⟨b, r, hw, -, rfl⟩
  · obtain ⟨i, hi, hpos, hstop⟩ := afterPop_stops (s := popIn e rest s) e (by rw [popIn_awaited, hw])
    rw [popIn_pos] at hi hpos
    exact ⟨i, _, hi, .of_works (popIn_works e rest s) hpos, hstop⟩
  · obtain ⟨i, u, hi, hres, hstop⟩ :=
      afterPush_stops (s := pushOut b r s) r (by rw [pushOut_awaited, hw]) (by simpa using hne)
    rw [pushOut_pos] at hi
    refine ⟨i, u, hi, ⟨hres.control.trans (pushOut_works b r s).control, fun hs => hres.tidy ?_⟩, hstop⟩
    simpa [BufferInv] using hs

/-- The answer to AbortEmit's Close ends ENC_EMIT (44_encoder.md R160). -/
theorem coreStep_abortClose {s t : State} (h : coreStep s = some t) (hpos : s.pos = .abortClose) :
    ∃ u, Works s u ∧ t = complete u := by
  rcases coreStep_cases h with ⟨e, rest, hw, -, -⟩ | ⟨b, r, -, -, rfl⟩
  · simp only [awaited, hpos] at hw
    split at hw <;> cases hw
  · refine ⟨_, (pushOut_works b r s).trans (emptyPacker_works _), ?_⟩
    simp only [afterPush, pushOut_pos, hpos, abortAnswered]

/-! ### The start of a program -/

/-- The commands whose program begins with ImplicitClear (40_control.md R106). -/
def clearsFirst : Instr → Bool
  | .clear | .encCount | .decHeader => true
  | .nop | .encBuild | .encHeader | .encEmit | .decBuild | .decPayload => false

/-- What the program of an accepted command works on. -/
def startsFrom (i : Instr) (s : State) : State := if clearsFirst i then implicitClear s else s

/-- The program of a command up to its first stop. -/
def firstStop : Instr → State → State
  | .nop => complete
  | .clear => fun t => complete (implicitClear t)
  | .encCount => startCount
  | .encBuild => encBuildProgram
  | .encHeader => startHeader
  | .encEmit => startEmit
  | .decHeader => startDecHeader
  | .decBuild => decBuildProgram
  | .decPayload => startPayload

theorem firstStop_stops (i : Instr) (s : State) : Stops i (startsFrom i s) (firstStop i s) := by
  cases i with
  | nop => exact .completes (.refl s)
  | clear => exact .completes (.refl (implicitClear s))
  | encCount => exact .waits rfl nofun (.refl (implicitClear s))
  | encBuild => exact encBuildProgram_stops s
  | encHeader => exact startHeader_stops s
  | encEmit => exact .waits rfl nofun (openPacker_works s)
  | decHeader => exact .waits rfl nofun (.refl (implicitClear s))
  | decBuild => exact decBuildProgram_stops s
  | decPayload => exact startPayload_stops s

theorem proceed_idle (h : s.busy = false) : proceed s = s := by
  unfold proceed
  split
  · exact settle_idle h
  · rfl

theorem encBuildProgram_busy (s : State) : (encBuildProgram s).busy = false := by
  simp only [encBuildProgram]
  split
  · rfl
  · split <;> rfl

/-- Every program runs on from its first stop; one with no interaction point has completed there. -/
theorem programOf_eq_proceed (i : Instr) (s : State) : programOf i s = proceed (firstStop i s) := by
  cases i with
  | nop | clear | decBuild => exact (proceed_idle rfl).symm
  | encBuild => exact (proceed_idle (encBuildProgram_busy s)).symm
  | encCount | encHeader | encEmit | decHeader | decPayload => rfl

end Sys2Proof.Machine
end

section
/-! SUPPORT. The invariants of BUSY, the error record and the buffers (40_control.md R98, R99; 10_state.md R23, R24,
R34), read off from where a program can stop. -/
namespace Sys2Proof.Machine
variable {i : Instr} {s t u : State}

/-! ### What holds at every stop -/

theorem Resumes.busy (h : Resumes s u) : u.busy = s.busy := congrArg Control.busy h.control
theorem Resumes.ovr (h : Resumes s u) : u.ovr = s.ovr := congrArg Control.ovr h.control

theorem complete_busyInv (s : State) : BusyInv (complete s) := by simp [BusyInv]

theorem commandOf_ne_idle {p : Position} (h : commandOf p = some i) : p ≠ .idle := by
  rintro rfl
  cases h

/-- Only NOP's success keeps the PHASE it started in, and no command that waits is NOP (R101). -/
theorem phaseAfter_of_commandOf {p : Position} (h : commandOf p = some i) (a b : Phase) :
    phaseAfter a i = phaseAfter b i := by
  cases i with
  | nop => cases p <;> cases h
  | clear | encCount | encBuild | encHeader | encEmit | decHeader | decBuild | decPayload => rfl

theorem phaseAfter_ne_error {p : Phase} (h : p ≠ .error) (i : Instr) : phaseAfter p i ≠ .error := by
  cases i with
  | nop => exact h
  | clear | encCount | encBuild | encHeader | encEmit | decHeader | decBuild | decPayload => nofun

/-- Every error has a kind and a detail that are not 0 (60_exceptions.md R201, R202). -/
theorem errorCode_ne_zero (c : ErrorCause) : errorKind c ≠ 0#8 ∧ errorDetail c ≠ 0#8 := by
  cases c <;> decide

theorem raise_errorInv (c : ErrorCause) (info : Word) (s : State) : ErrorInv (raise c info s) := by
  obtain ⟨hkind, hdetail⟩ := errorCode_ne_zero c
  exact ⟨fun _ => ⟨hkind, hdetail, .inl rfl⟩, fun hp => absurd rfl hp⟩

namespace Stops

theorem busyInv (h : Stops i s t) (hb : s.busy = true) : BusyInv t := by
  cases h with
  | completes h => exact complete_busyInv _
  | raises c info h => exact complete_busyInv _
  | waits hp hne h => simp [BusyInv, h.busy, hb, commandOf_ne_idle hp]
  | fillsByte bits n b hi h => simp [BusyInv, h.busy, hb]
  | aborts c info hi h => simp [BusyInv, h.busy, hb]

theorem errorInv (h : Stops i s t) (hs : Clean s) : ErrorInv t := by
  cases h with
  | completes h =>
    obtain ⟨-, hrecord⟩ := hs.of_control h.control
    exact ⟨fun hp => absurd hp (phaseAfter_ne_error hs.1 i), fun _ => hrecord⟩
  | raises c info h => exact raise_errorInv c info _
  | waits _ _ h | fillsByte _ _ _ _ h =>
    obtain ⟨hphase, hrecord⟩ := hs.of_control h.control
    exact ⟨fun hp => absurd hp hphase, fun _ => hrecord⟩
  | aborts c info hi h =>
    obtain ⟨hkind, hdetail⟩ := errorCode_ne_zero c
    exact ⟨fun _ => ⟨hkind, hdetail, .inr rfl⟩, fun hp => absurd rfl hp⟩

theorem bufferInv (h : Stops i s t) (hb : s.busy = true) (hs : Tidy s) : BufferInv t := by
  cases h with
  | completes h | raises _ _ h | waits _ _ h | aborts _ _ _ h =>
    obtain ⟨hipos, hpacked⟩ := h.tidy hs
    exact ⟨hipos, .inr hpacked⟩
  | fillsByte bits n b hi h => exact ⟨(h.tidy hs).1, .inl ⟨h.busy.trans hb, bits, rfl⟩⟩

theorem ovr (h : Stops i s t) : t.ovr = s.ovr := by
  cases h with
  | completes h | raises _ _ h | waits _ _ h | fillsByte _ _ _ _ h | aborts _ _ _ h => exact h.ovr

theorem eager (h : Stops i s t) : t.eager = s.eager := by
  cases h with
  | completes h | raises _ _ h | waits _ _ h | fillsByte _ _ _ _ h | aborts _ _ _ h => exact h.eager

end Stops

/-! ### BUSY and the interaction points (R98, R99) -/

theorem coreStep_busyInv (hstep : coreStep s = some t) : BusyInv t := by
  by_cases hpos : s.pos = .abortClose
  · obtain ⟨u, -, rfl⟩ := coreStep_abortClose hstep hpos
    exact complete_busyInv u
  · obtain ⟨i, u, -, hres, hstop⟩ := coreStep_stops hstep hpos
    exact hstop.busyInv (hres.busy.trans (coreStep_busy hstep))

theorem startsFrom_busy (i : Instr) (s : State) : (startsFrom i s).busy = s.busy := by
  unfold startsFrom
  split <;> rfl

theorem firstStop_busyInv (i : Instr) (hb : s.busy = true) : BusyInv (firstStop i s) :=
  (firstStop_stops i s).busyInv ((startsFrom_busy i s).trans hb)

theorem issue_busyInv (i : Instr) (s : State) (h : BusyInv s) : BusyInv (issue i (programOf i) s) := by
  rcases issue_cases i (programOf i) s with ⟨-, he⟩ | ⟨-, -, -, he⟩ | ⟨-, -, -, he⟩ | ⟨-, -, he⟩ <;> rw [he]
  · exact h
  · exact h
  · exact complete_busyInv _
  · rw [programOf_eq_proceed]
    exact proceed_induct (fun _ _ _ => coreStep_busyInv) _ (firstStop_busyInv i rfl)

theorem rejectWord_busyInv (e : DecodeError) (w : Word) (s : State) (h : BusyInv s) : BusyInv (rejectWord e w s) := by
  rcases rejectWord_cases e w s with ⟨-, he⟩ | ⟨-, -, he⟩ | ⟨-, -, c, -, he⟩ <;> rw [he]
  · exact h
  · exact h
  · exact complete_busyInv _

/-! ### The error record (R23, R24, R207) -/

theorem ErrorInv.clean (h : ErrorInv s) (hp : s.phase ≠ .error) : Clean s := ⟨hp, h.2 hp⟩

theorem implicitClear_clean (s : State) : Clean (implicitClear s) := ⟨nofun, rfl, rfl, rfl⟩

/-- `ErrorInv` is read from the control registers. -/
theorem ErrorInv.of_control (hu : control u = control s) (h : ErrorInv s) : ErrorInv u := by
  simp only [control, Control.mk.injEq] at hu
  obtain ⟨hbusy, hphase, -, hkind, hdetail, hinfo, hpos, -⟩ := hu
  simpa only [ErrorInv, hbusy, hphase, hkind, hdetail, hinfo, hpos] using h

/-- A completion keeps the record, whatever was running. -/
theorem complete_errorInv (h : ErrorInv s) : ErrorInv (complete s) := by
  refine ⟨fun hp => ?_, h.2⟩
  obtain ⟨hkind, hdetail, -⟩ := h.1 hp
  exact ⟨hkind, hdetail, .inl rfl⟩

theorem coreStep_errorInv (s t : State) (h : ErrorInv s) (hstep : coreStep s = some t) : ErrorInv t := by
  by_cases hpos : s.pos = .abortClose
  · obtain ⟨u, hu, rfl⟩ := coreStep_abortClose hstep hpos
    exact complete_errorInv (h.of_control hu.control)
  · obtain ⟨i, u, -, hres, hstop⟩ := coreStep_stops hstep hpos
    have hphase : s.phase ≠ .error := fun hp => by
      rcases (h.1 hp).2.2 with hb | hclose
      · exact absurd (coreStep_busy hstep) (by simp [hb])
      · exact hpos hclose
    exact hstop.errorInv ((h.clean hphase).of_control hres.control)

theorem startsFrom_clean (i : Instr) (h : Clean s) : Clean (startsFrom i s) := by
  unfold startsFrom
  split
  · exact implicitClear_clean s
  · exact h

/-- Only NOP and CLEAR start in ERROR: NOP keeps the record and CLEAR clears it (40_control.md R103). -/
theorem accepted_errorInv (i : Instr) (op : Byte) (h : ErrorInv s) (hl : legalIn i s.phase = true) :
    ErrorInv (firstStop i (accept op s)) := by
  by_cases hp : s.phase = .error
  · cases i with
    | nop =>
      have hkept : ErrorInv (complete s) := complete_errorInv h
      exact hkept
    | clear => exact (firstStop_stops .clear _).errorInv (implicitClear_clean _)
    | encCount | encBuild | encHeader | encEmit | decHeader | decBuild | decPayload => simp [hp, legalIn] at hl
  · exact (firstStop_stops i _).errorInv (startsFrom_clean i (h.clean hp))

theorem issue_errorInv (i : Instr) (s : State) (h : ErrorInv s) : ErrorInv (issue i (programOf i) s) := by
  rcases issue_cases i (programOf i) s with ⟨-, he⟩ | ⟨-, -, -, he⟩ | ⟨-, -, -, he⟩ | ⟨-, hl, he⟩ <;> rw [he]
  · exact h
  · exact h
  · exact raise_errorInv _ _ s
  · rw [programOf_eq_proceed]
    exact proceed_induct coreStep_errorInv _ (accepted_errorInv i _ h hl)

theorem rejectWord_errorInv (e : DecodeError) (w : Word) (s : State) (h : ErrorInv s) :
    ErrorInv (rejectWord e w s) := by
  rcases rejectWord_cases e w s with ⟨-, he⟩ | ⟨-, -, he⟩ | ⟨-, -, c, -, he⟩ <;> rw [he]
  · exact h
  · exact h
  · exact raise_errorInv c w s

/-! ### The buffers (R34, R38, R114) -/

theorem Tidy.bufferInv (h : Tidy s) : BufferInv s := ⟨h.1, .inr h.2⟩

theorem implicitClear_tidy (s : State) : Tidy (implicitClear s) := ⟨le_refl 8, fun _ _ => BitVec.getLsbD_zero⟩

theorem coreStep_bufferInv (s t : State) (h : BufferInv s) (hstep : coreStep s = some t) : BufferInv t := by
  by_cases hpos : s.pos = .abortClose
  · obtain ⟨u, hu, rfl⟩ := coreStep_abortClose hstep hpos
    exact Tidy.bufferInv (s := complete u) (hu.tidy (h.tidy (.inr (by simp [hpos]))))
  · obtain ⟨i, u, -, hres, hstop⟩ := coreStep_stops hstep hpos
    exact hstop.bufferInv (hres.busy.trans (coreStep_busy hstep)) (hres.tidy h)

theorem startsFrom_tidy (i : Instr) (h : Tidy s) : Tidy (startsFrom i s) := by
  unfold startsFrom
  split
  · exact implicitClear_tidy s
  · exact h

theorem firstStop_bufferInv (i : Instr) (hb : s.busy = true) (h : Tidy s) : BufferInv (firstStop i s) :=
  (firstStop_stops i s).bufferInv ((startsFrom_busy i s).trans hb) (startsFrom_tidy i h)

theorem raise_bufferInv (c : ErrorCause) (info : Word) (h : Tidy s) : BufferInv (raise c info s) :=
  Tidy.bufferInv (s := raise c info s) h

theorem issue_bufferInv (i : Instr) (s : State) (h : BufferInv s) : BufferInv (issue i (programOf i) s) := by
  rcases issue_cases i (programOf i) s with ⟨-, he⟩ | ⟨-, -, -, he⟩ | ⟨hb, -, -, he⟩ | ⟨hb, -, he⟩ <;> rw [he]
  · exact h
  · exact h
  · exact raise_bufferInv _ _ (h.tidy (.inl hb))
  · have htidy : Tidy (accept (opcodeOf i) s) := h.tidy (.inl hb)
    rw [programOf_eq_proceed]
    exact proceed_induct coreStep_bufferInv _ (firstStop_bufferInv i rfl htidy)

theorem rejectWord_bufferInv (e : DecodeError) (w : Word) (s : State) (h : BufferInv s) :
    BufferInv (rejectWord e w s) := by
  rcases rejectWord_cases e w s with ⟨-, he⟩ | ⟨-, -, he⟩ | ⟨hb, -, c, -, he⟩ <;> rw [he]
  · exact h
  · exact h
  · exact raise_bufferInv c w (h.tidy (.inl hb))

/-- Settles O59, each invariant by the induction over steps of `step_keeps`: the host leaves its registers alone, and
each move of the core keeps it by where the program stops. -/
theorem registerInvStep : Obligations.RegisterInvStep := by
  intro s t hstep
  refine ⟨fun h => ?_, fun h => ?_, fun h => ?_⟩
  · exact step_keeps (fun _ _ _ _ _ _ _ _ _ h => h) (fun _ _ _ => coreStep_busyInv) issue_busyInv
      rejectWord_busyInv (fun s _ => complete_busyInv (hardwareReset s)) h hstep
  · exact step_keeps (fun _ _ _ _ _ _ _ _ _ h => h) coreStep_errorInv issue_errorInv rejectWord_errorInv
      (fun _ _ => ⟨nofun, fun _ => ⟨rfl, rfl, rfl⟩⟩) h hstep
  · exact step_keeps (fun _ _ _ _ _ _ _ _ _ h => h) coreStep_bufferInv issue_bufferInv rejectWord_bufferInv
      (fun s _ => Tidy.bufferInv (s := hardwareReset s) (implicitClear_tidy s)) h hstep

end Sys2Proof.Machine
end

section
/-! SUPPORT. The statements about issue and sequencing (40_control.md R97 to R109). -/
namespace Sys2Proof.Machine
variable {i : Instr} {s t : State}

/-! ### OVR (R97) -/

theorem coreStep_ovr (hstep : coreStep s = some t) : t.ovr = s.ovr := by
  by_cases hpos : s.pos = .abortClose
  · obtain ⟨u, hu, rfl⟩ := coreStep_abortClose hstep hpos
    exact hu.ovr
  · obtain ⟨i, u, -, hres, hstop⟩ := coreStep_stops hstep hpos
    exact hstop.ovr.trans hres.ovr

theorem proceed_ovr (s : State) : (proceed s).ovr = s.ovr :=
  proceed_induct (P := fun t => t.ovr = s.ovr) (fun _ _ h hstep => (coreStep_ovr hstep).trans h) s rfl

/-- Only a program that begins with ImplicitClear takes OVR back. -/
theorem programOf_ovr (h : clearsFirst i = false) (s : State) : (programOf i s).ovr = s.ovr := by
  have hstop := (firstStop_stops i s).ovr
  rw [programOf_eq_proceed, proceed_ovr, hstop]
  simp [startsFrom, h]

theorem issue_clears_ovr (hs : s.ovr = true) (h : (issue i (programOf i) s).ovr = false) :
    s.busy = false ∧ clearsFirst i = true := by
  rcases issue_cases i (programOf i) s with ⟨-, he⟩ | ⟨-, -, -, he⟩ | ⟨-, -, -, he⟩ | ⟨hb, -, he⟩ <;> rw [he] at h
  · cases h
  · simp [hs] at h
  · simp [hs] at h
  · refine ⟨hb, Bool.eq_true_of_not_eq_false fun hc => ?_⟩
    rw [programOf_ovr hc, accept_ovr, hs] at h
    cases h

theorem rejectWord_ovr (e : DecodeError) (w : Word) (h : s.ovr = true) : (rejectWord e w s).ovr = true := by
  rcases rejectWord_cases e w s with ⟨-, he⟩ | ⟨-, -, he⟩ | ⟨-, -, c, -, he⟩ <;> rw [he]
  · rfl
  · exact h
  · exact h

theorem clearsFirst_iff (i : Instr) : clearsFirst i = true ↔ i = .clear ∨ i = .encCount ∨ i = .decHeader := by
  cases i <;> simp [clearsFirst]

theorem onCmdWrite_busy {w : Word} (hb : s.busy = true) : onCmdWrite w s = .next (dropCommand s) := by
  cases hdec : decodeCmd w with
  | ok i => rw [onCmdWrite_command hdec, exec_issue, issue_busy hb]
  | error e => rw [onCmdWrite_illegal hdec, rejectWord_busy hb]

/-- Settles O6: of all that a step can be, only a reset and an accepted command that begins with ImplicitClear take OVR
back. -/
theorem busyWriteDropped : Obligations.BusyWriteDropped := by
  refine ⟨fun w s hb => onCmdWrite_busy hb, fun s t hstep hs ht => ?_⟩
  rcases step_cases hstep with hc | ⟨rest, -, hc⟩ | ⟨w, rest, i, hscript, hdec, rfl⟩ | ⟨w, rest, e, -, -, rfl⟩ |
    ⟨rest, hscript, -⟩ | ⟨c, o, f, q, sc, rd, d, eg, rfl⟩
  · exact absurd ((coreStep_ovr hc).trans hs) (by simp [ht])
  · exact absurd ((coreStep_ovr hc).trans hs) (by simp [ht])
  · obtain ⟨hb, hclears⟩ := issue_clears_ovr (s := restOfScript rest s) hs ht
    have hw : w = encode i := (decodeEncodeAgree w i).mp hdec
    exact .inr ⟨hb, i, rest, (clearsFirst_iff i).mp hclears, hw ▸ hscript⟩
  · exact absurd (rejectWord_ovr (s := restOfScript rest s) e w hs) (by simp [ht])
  · exact .inl ⟨rest, hscript⟩
  · have hkept : s.ovr = false := ht
    exact absurd hs (by simp [hkept])

/-! ### The legality table, and PHASE after a success (R101) -/

/-- The table's two columns of R101, entry by entry. -/
theorem legalIn_iff (i : Instr) (p : Phase) : legalIn i p = true ↔ p ∈ admittedPhases i := by
  cases i <;> cases p <;> decide

/-- The command `i`, started in PHASE `p`, is under way, or has ended with an error or in the PHASE of its success. -/
def Follows (i : Instr) (p : Phase) (t : State) : Prop :=
  (t.busy = true ∧ commandOf t.pos = some i ∧ (t.pos = .abortClose → t.phase = .error)) ∨
    (t.busy = false ∧ (t.phase = .error ∨ t.phase = phaseAfter p i))

theorem Follows.of_phase {p q : Phase} (h : Follows i p t) (hp : phaseAfter p i = phaseAfter q i) : Follows i q t := by
  rwa [Follows, ← hp]

theorem Stops.follows (h : Stops i s t) (hb : s.busy = true) : Follows i s.phase t := by
  cases h with
  | completes h => exact .inr ⟨rfl, .inr rfl⟩
  | raises c info h => exact .inr ⟨rfl, .inl rfl⟩
  | waits hp hne h => exact .inl ⟨h.busy.trans hb, hp, fun hpos => absurd hpos hne⟩
  | fillsByte bits n b hi h => exact .inl ⟨h.busy.trans hb, congrArg some hi.symm, nofun⟩
  | aborts c info hi h => exact .inl ⟨h.busy.trans hb, congrArg some hi.symm, fun _ => rfl⟩

theorem coreStep_follows {p : Phase} (s t : State) (h : Follows i p s) (hstep : coreStep s = some t) :
    Follows i p t := by
  have hb := coreStep_busy hstep
  obtain ⟨-, hi, habort⟩ := h.resolve_right fun hidle => absurd hb (by simp [hidle.1])
  by_cases hpos : s.pos = .abortClose
  · obtain ⟨u, hu, rfl⟩ := coreStep_abortClose hstep hpos
    exact .inr ⟨rfl, .inl (hu.phase.trans (habort hpos))⟩
  · obtain ⟨j, u, hj, hres, hstop⟩ := coreStep_stops hstep hpos
    obtain rfl : i = j := Option.some.inj (hi.symm.trans hj)
    exact (hstop.follows (hres.busy.trans hb)).of_phase (phaseAfter_of_commandOf hi _ _)

theorem phaseAfter_startsFrom (i : Instr) (s : State) : phaseAfter (startsFrom i s).phase i = phaseAfter s.phase i := by
  cases i <;> rfl

theorem programOf_follows (i : Instr) (hb : s.busy = true) : Follows i s.phase (programOf i s) := by
  have hfirst := (firstStop_stops i s).follows ((startsFrom_busy i s).trans hb)
  rw [programOf_eq_proceed]
  exact proceed_induct coreStep_follows _ (hfirst.of_phase (phaseAfter_startsFrom i s))

theorem exec_ready (h : Ready i s) : exec i s = .next (programOf i (accept (opcodeOf i) s)) :=
  exec_accepted h.1 ((legalIn_iff i s.phase).mpr h.2)

/-- Settles O9: the table is checked entry by entry, and the command's program follows it to its end. -/
theorem phaseTable : Obligations.PhaseTable := by
  refine ⟨legalIn_iff, fun i s t hready hexec hidle hok => ?_⟩
  rw [exec_ready hready] at hexec
  cases hexec
  rcases programOf_follows i (s := accept (opcodeOf i) s) rfl with ⟨hb, -⟩ | ⟨-, herr | hsuccess⟩
  · exact absurd hb (by simp [hidle])
  · exact absurd herr hok
  · exact hsuccess

/-! ### The schedule (R105, R107, R239) -/

theorem startsFrom_eager (i : Instr) (s : State) : (startsFrom i s).eager = s.eager := by
  unfold startsFrom
  split <;> rfl

theorem programOf_eq_settle (i : Instr) (h : s.eager = true) : programOf i s = settle (firstStop i s) := by
  have heager : (firstStop i s).eager = true := (firstStop_stops i s).eager.trans ((startsFrom_eager i s).trans h)
  rw [programOf_eq_proceed, proceed_eager heager]

/-- With the schedule eager, a program ends where the command has completed or only the host can go on. -/
theorem programOf_eager (i : Instr) (hb : s.busy = true) (he : s.eager = true) (ht : programOf i s = t) :
    t.busy = false ∨ (awaited t = .pop ∧ t.inCh = []) ∨ ∃ b, awaited t = .push b ∧ sinkAnswer t = none := by
  rw [programOf_eq_settle i he] at ht
  subst ht
  have hinv : BusyInv (settle (firstStop i s)) :=
    settle_induct (fun _ _ _ => coreStep_busyInv) _ (firstStop_busyInv i hb)
  rcases coreStep_none (settle_stops (firstStop i s)) with hidle | hpos | hwaits
  · exact .inl hidle
  · exact .inl (Bool.eq_false_of_not_eq_true fun hbusy => hinv.mp hbusy hpos)
  · exact .inr hwaits

theorem waitForCore_some (h : coreStep s = some t) : waitForCore s = .next t := by simp only [waitForCore, h]

theorem waitForCore_none (h : coreStep s = none) : waitForCore s = .fault (stuckReason s) := by
  simp only [waitForCore, h]

/-- At the end of the host's program, and at a WAIT, a running command makes the next move. -/
theorem step_waiting (hb : s.busy = true) (h : s.script = [] ∨ ∃ rest, s.script = .wait :: rest) :
    step s = waitForCore s := by
  rcases h with h | ⟨rest, h⟩
  · simp [step, nextMove, h, hb]
  · simp [step_of_script h, hostMove, hb]

theorem step_core {rest : List HostAction} (h : s.script = .core :: rest) :
    step s = .next ((coreStep (restOfScript rest s)).getD (restOfScript rest s)) := step_of_script h

/-- Settles O10, clause by clause: where an eager program ends, then the four ways a step comes from the schedule. -/
theorem runsUntilHost : Obligations.RunsUntilHost := by
  refine ⟨fun i s t hready he hexec => ?_, fun s hb hscript => ?_, fun s hb => ?_, fun s rest hscript => ?_⟩
  · rw [exec_ready hready] at hexec
    exact programOf_eager i (s := accept (opcodeOf i) s) rfl he (Host.Outcome.next.inj hexec)
  · rw [step_waiting hb hscript]
    refine ⟨fun t hc => waitForCore_some hc, fun hc hw => ?_, fun b hc hw => ?_, fun hc hw => ?_⟩ <;>
      simp only [waitForCore_none hc, stuckReason, hw]
  · refine ⟨fun hscript => ?_, fun rest hscript => ?_⟩
    · simp [step, nextMove, hscript, hb]
    · rw [step_of_script hscript]
      simp [hostMove, hb, restOfScript]
  · rw [step_core hscript]
    exact ⟨fun t hc => by rw [restOfScript, hc]; rfl, fun hc => by rw [restOfScript, hc]; rfl⟩

/-! ### A command in ERROR, and one out of sequence (R103, R104) -/

theorem encode_nop : encode .nop = 0#64 := by decide
theorem encode_clear : encode .clear = 1#64 := by decide

theorem runsInError_iff (i : Instr) : runsInError i = true ↔ i = .nop ∨ i = .clear := by
  cases i <;> simp [runsInError]

theorem onCmdWrite_ignored {w : Word} (hb : s.busy = false) (he : s.phase = .error) (hnop : w ≠ encode .nop)
    (hclear : w ≠ encode .clear) : onCmdWrite w s = .next s := by
  cases hdec : decodeCmd w with
  | error e => rw [onCmdWrite_illegal hdec, rejectWord_inError hb he]
  | ok i =>
    have hw : w = encode i := (decodeEncodeAgree w i).mp hdec
    have hi : runsInError i = false := by
      refine Bool.eq_false_of_not_eq_true fun hruns => ?_
      rcases (runsInError_iff i).mp hruns with rfl | rfl
      · exact hnop hw
      · exact hclear hw
    rw [onCmdWrite_command hdec, exec_issue, issue_ignored hb he hi]

theorem exec_nop (hb : s.busy = false) : exec .nop s = .next (complete (accept 0x00#8 s)) := exec_accepted hb rfl

theorem exec_clear (hb : s.busy = false) : exec .clear s = .next (complete (implicitClear (accept 0x01#8 s))) :=
  exec_accepted hb rfl

/-- Settles O7: a word in ERROR is ignored unless it is NOP's or CLEAR's, and those two run. -/
theorem errorIgnoresCommands : Obligations.ErrorIgnoresCommands := by
  intro w s hb he
  refine ⟨fun hnop hclear => ?_, onCmdWrite_command decode_word_nop s, onCmdWrite_command decode_word_clear s,
    ⟨_, exec_nop hb, rfl, he, rfl⟩, ⟨_, exec_clear hb, rfl, rfl, rfl⟩⟩
  exact onCmdWrite_ignored hb he (encode_nop ▸ hnop) (encode_clear ▸ hclear)

/-- Settles O8: at issue, after BUSY and ERROR, an illegal command is the SEQUENCE error. -/
theorem sequenceError : Obligations.SequenceError := by
  intro i s hb he hp
  have hl : legalIn i s.phase = false := Bool.eq_false_of_not_eq_true fun h => hp ((legalIn_iff i s.phase).mp h)
  rw [exec_issue, issue_sequence hb he hl]
  rfl

/-! ### NOP and CLEAR (R108, R109) -/

/-- Acceptance sets BUSY and completion takes it back. -/
theorem complete_accept (op : Byte) (hb : s.busy = false) :
    complete (accept op s) = { s with lastOp := op, xferIn := 0#64, xferOut := 0#64, pos := .idle } := by
  have h : complete (accept op s) =
      { s with busy := false, lastOp := op, xferIn := 0#64, xferOut := 0#64, pos := .idle } := rfl
  rw [h, ← hb]

/-- Settles O11: NOP is acceptance and completion. -/
theorem nopCompletes : Obligations.NopCompletes := fun s hb => by rw [exec_nop hb, complete_accept _ hb]

/-- Settles O12: between acceptance and completion CLEAR is ImplicitClear, which writes every register of R39 but BUSY
and LAST_OP. -/
theorem clearCompletes : Obligations.ClearCompletes := fun s hb => by
  rw [exec_clear hb]
  rfl

end Sys2Proof.Machine
end

section
/-! SUPPORT. DEC_PAYLOAD at its two interaction points, and the channel errors there (41_bitstream.md R118,
45_decoder.md R183). -/
namespace Sys2Proof.Machine
variable {s : State}

/-- In ReadBit's InPop the core takes the head of IN, and ReadBit goes on with it (R118). -/
theorem coreStep_payloadPop {e : InElem} {rest : List InElem} (hb : s.busy = true) (hpos : s.pos = .payloadPop)
    (hin : s.inCh = e :: rest) : coreStep s = some (payloadElem e (popIn e rest s)) := by
  have hw : awaited s = .pop := by simp [awaited, hb, hpos]
  have hafter : afterPop e (popIn e rest s) = payloadElem e (popIn e rest s) := by simp only [afterPop, popIn_pos, hpos]
  rw [coreStep_pop hw hin, hafter]

/-- In the OutPush of a decoded byte the core takes the sink's answer, and TraverseStep goes on with it (R183). -/
theorem coreStep_payloadPush {sym : Byte} {r : SinkAnswer} (hb : s.busy = true) (hpos : s.pos = .payloadPush sym)
    (hr : sinkAnswer s = some r) : coreStep s = some (payloadAnswered r (pushOut sym r s)) := by
  have hw : awaited s = .push sym := by simp [awaited, hb, hpos]
  have hafter : afterPush r (pushOut sym r s) = payloadAnswered r (pushOut sym r s) := by
    simp only [afterPush, pushOut_pos, hpos]
  rw [coreStep_push hw hr, hafter]

/-- Settles O50: End and Fault raise their own error over the state without the popped element, and a refused byte
raises WRITE over the state that only counts the push. -/
theorem decPayloadChannelErrors : Obligations.DecPayloadChannelErrors := by
  refine ⟨fun s e rest hb hpos hin he => ?_, fun s sym hb hpos hr => ?_⟩
  · rw [coreStep_payloadPop hb hpos hin]
    rcases he with rfl | rfl <;> rfl
  · exact ⟨_, coreStep_payloadPush hb hpos hr, rfl, rfl, rfl, rfl, rfl, rfl, rfl, rfl⟩

end Sys2Proof.Machine
end

section
/-! SUPPORT. Which command a running program belongs to, and what ENC_COUNT and DEC_HEADER leave alone
(42_frequency.md R125, 45_decoder.md R176). A frame is stated by a function that writes over a state the registers it
lets change: `t = frame t s`. -/
namespace Sys2Proof.Machine
variable {i : Instr} {s t : State}

/-! ### The running command -/

theorem Stops.command (h : Stops i s t) : t.pos = .idle ∨ commandOf t.pos = some i := by
  cases h with
  | completes h | raises c info h => exact .inl rfl
  | waits hp hne h => exact .inr hp
  | fillsByte bits n b hi h | aborts c info hi h => exact .inr (congrArg some hi.symm)

/-- A step of the core is the running command's, which goes on or ends. -/
theorem coreStep_command (hstep : coreStep s = some t) :
    ∃ i, commandOf s.pos = some i ∧ (t.pos = .idle ∨ commandOf t.pos = some i) := by
  by_cases hpos : s.pos = .abortClose
  · obtain ⟨u, -, rfl⟩ := coreStep_abortClose hstep hpos
    exact ⟨.encEmit, by rw [hpos]; rfl, .inl rfl⟩
  · obtain ⟨i, u, hi, -, hstop⟩ := coreStep_stops hstep hpos
    exact ⟨i, hi, hstop.command⟩

/-- A command whose steps write only what `frame` writes has written no more when it next rests. -/
theorem proceed_frame {frame : State → State → State} (habsorb : ∀ a b c, frame a (frame b c) = frame a c)
    (hcore : ∀ s t, commandOf s.pos = some i → coreStep s = some t → t = frame t s)
    {b : State} (hi : commandOf s.pos = some i) (hs : s = frame s b) : proceed s = frame (proceed s) b := by
  have hkeeps : ∀ u v, ((u.pos = .idle ∨ commandOf u.pos = some i) ∧ u = frame u b) → coreStep u = some v →
      ((v.pos = .idle ∨ commandOf v.pos = some i) ∧ v = frame v b) := by
    rintro u v ⟨hu, hframe⟩ hstep
    obtain ⟨j, hj, hv⟩ := coreStep_command hstep
    have hui : commandOf u.pos = some i := hu.resolve_left (commandOf_ne_idle hj)
    obtain rfl : i = j := Option.some.inj (hui.symm.trans hj)
    refine ⟨hv, ?_⟩
    calc v = frame v u := hcore u v hui hstep
      _ = frame v (frame u b) := by rw [← hframe]
      _ = frame v b := habsorb v u b
  exact (proceed_induct (P := fun u => (u.pos = .idle ∨ commandOf u.pos = some i) ∧ u = frame u b) hkeeps s
    ⟨.inr hi, hs⟩).2

/-- `s` with what a command that is not accepted may change as in `t`: OVR, and what an error record sets (R96). -/
def issueWrites (t s : State) : State :=
  { s with
    busy := t.busy, ovr := t.ovr, phase := t.phase, errKind := t.errKind, errDetail := t.errDetail
    errInfo := t.errInfo, pos := t.pos }

/-- Acceptance starts the program; anything else changes at most OVR and the error record. -/
theorem issue_frame (i : Instr) (s : State) :
    issue i (programOf i) s = issueWrites (issue i (programOf i) s) s ∨
      issue i (programOf i) s = programOf i (accept (opcodeOf i) s) := by
  rcases issue_cases i (programOf i) s with ⟨-, he⟩ | ⟨-, -, -, he⟩ | ⟨-, -, -, he⟩ | ⟨-, -, he⟩
  · exact .inl (by rw [he]; rfl)
  · exact .inl (by rw [he]; rfl)
  · exact .inl (by rw [he]; rfl)
  · exact .inr he

/-! ### ENC_COUNT -/

/-- `s` with the registers ENC_COUNT writes as in `t` (42_frequency.md R125). -/
def countWrites (t s : State) : State :=
  { s with
    busy := t.busy, phase := t.phase, errKind := t.errKind, errDetail := t.errDetail, errInfo := t.errInfo
    pos := t.pos, total := t.total, freq := t.freq, xferIn := t.xferIn, inCh := t.inCh, draws := t.draws }

theorem popIn_countWrites (e : InElem) (rest : List InElem) (s : State) :
    popIn e rest s = countWrites (popIn e rest s) s := by cases e <;> rfl

theorem countElem_countWrites (e : InElem) (s : State) : countElem e s = countWrites (countElem e s) s := by
  cases e with
  | byte v =>
    simp only [countElem]
    split <;> rfl
  | endOfFile | fault => rfl

theorem countPop_of_commandOf (h : commandOf s.pos = some .encCount) : s.pos = .countPop := by
  cases hpos : s.pos with
  | countPop => rfl
  | _ => rw [hpos] at h; cases h

/-- ENC_COUNT takes the head of IN (R125). -/
theorem coreStep_countPop {e : InElem} {rest : List InElem} (hb : s.busy = true) (hpos : s.pos = .countPop)
    (hin : s.inCh = e :: rest) : coreStep s = some (countElem e (popIn e rest s)) := by
  have hw : awaited s = .pop := by simp [awaited, hb, hpos]
  have hafter : afterPop e (popIn e rest s) = countElem e (popIn e rest s) := by simp only [afterPop, popIn_pos, hpos]
  rw [coreStep_pop hw hin, hafter]

theorem coreStep_countPop_cases (hpos : s.pos = .countPop) (hstep : coreStep s = some t) :
    ∃ e rest, s.inCh = e :: rest ∧ t = countElem e (popIn e rest s) := by
  have hb := coreStep_busy hstep
  cases hin : s.inCh with
  | nil =>
    have hw : awaited s = .pop := by simp [awaited, hb, hpos]
    rw [coreStep_pop_empty hw hin] at hstep
    cases hstep
  | cons e rest =>
    rw [coreStep_countPop hb hpos hin] at hstep
    exact ⟨e, rest, rfl, (Option.some.inj hstep).symm⟩

theorem coreStep_countWrites (s t : State) (hi : commandOf s.pos = some .encCount) (hstep : coreStep s = some t) :
    t = countWrites t s := by
  obtain ⟨e, rest, -, rfl⟩ := coreStep_countPop_cases (countPop_of_commandOf hi) hstep
  generalize hu : popIn e rest s = u
  have hpop : u = countWrites u s := hu ▸ popIn_countWrites e rest s
  calc countElem e u = countWrites (countElem e u) u := countElem_countWrites e u
    _ = countWrites (countElem e u) (countWrites u s) := by rw [← hpop]
    _ = countWrites (countElem e u) s := rfl

theorem programOf_encCount_frame (s : State) :
    programOf .encCount (accept 0x10#8 s) =
      countWrites (programOf .encCount (accept 0x10#8 s)) { implicitClear s with lastOp := 0x10#8 } :=
  proceed_frame (i := .encCount) (frame := countWrites) (s := startCount (accept 0x10#8 s))
    (fun _ _ _ => rfl) coreStep_countWrites rfl rfl

/-! ### DEC_HEADER -/

/-- `s` with the registers DEC_HEADER writes as in `t` (45_decoder.md R176). -/
def headerWrites (t s : State) : State :=
  { s with
    busy := t.busy, phase := t.phase, errKind := t.errKind, errDetail := t.errDetail, errInfo := t.errInfo
    pos := t.pos, empty := t.empty, payloadBits := t.payloadBits, seqN := t.seqN, seqSym := t.seqSym
    seqCnt := t.seqCnt, statHeader := t.statHeader, xferIn := t.xferIn, inCh := t.inCh, draws := t.draws }

theorem popIn_headerWrites (e : InElem) (rest : List InElem) (s : State) :
    popIn e rest s = headerWrites (popIn e rest s) s := by cases e <;> rfl

theorem hdrFailed_headerWrites (e : InElem) (s : State) : hdrFailed e s = headerWrites (hdrFailed e s) s := by
  cases e <;> rfl

theorem decLenByte_headerWrites (got : List Byte) (v : Byte) (s : State) :
    decLenByte got v s = headerWrites (decLenByte got v s) s := by
  unfold decLenByte
  split <;> rfl

theorem decFirstElem_headerWrites (e : InElem) (s : State) : decFirstElem e s = headerWrites (decFirstElem e s) s := by
  cases e with
  | byte v => exact decLenByte_headerWrites [] v s
  | endOfFile | fault => rfl

theorem decCountByte_headerWrites (got : List Byte) (v : Byte) (s : State) :
    decCountByte got v s = headerWrites (decCountByte got v s) s := by
  unfold decCountByte decCountDone
  split
  · rfl
  · split <;> rfl

theorem decCntByte_headerWrites (i : Nat) (sym : Byte) (got : List Byte) (v : Byte) (s : State) :
    decCntByte i sym got v s = headerWrites (decCntByte i sym got v s) s := by
  simp only [decCntByte, decEntryDone]
  split
  · rfl
  · split <;> rfl

theorem afterPop_headerWrites (e : InElem) (h : commandOf s.pos = some .decHeader) :
    afterPop e s = headerWrites (afterPop e s) s := by
  cases hpos : s.pos with simp only [afterPop, hpos]
  | decLen got =>
    cases got with
    | nil => exact decFirstElem_headerWrites e s
    | cons g got =>
      cases e with
      | byte v => exact decLenByte_headerWrites _ v s
      | endOfFile | fault => exact hdrFailed_headerWrites _ s
  | decCount got =>
    cases e with
    | byte v => exact decCountByte_headerWrites got v s
    | endOfFile | fault => exact hdrFailed_headerWrites _ s
  | decSym i =>
    cases e with
    | byte v => rfl
    | endOfFile | fault => exact hdrFailed_headerWrites _ s
  | decCnt i sym got =>
    cases e with
    | byte v => exact decCntByte_headerWrites i sym got v s
    | endOfFile | fault => exact hdrFailed_headerWrites _ s
  | idle | countPop | emitPop | headerPush | emitPush | emitClose | abortClose | payloadPop | payloadPush =>
    rw [hpos] at h
    cases h

/-- DEC_HEADER only pops. -/
theorem awaited_of_decHeader (h : commandOf s.pos = some .decHeader) (b : Byte) : awaited s ≠ .push b := by
  unfold awaited
  split
  · cases hpos : s.pos with rw [hpos] at h
    | decLen | decCount | decSym | decCnt => exact nofun
    | _ => cases h
  · exact nofun

theorem coreStep_headerWrites (s t : State) (hi : commandOf s.pos = some .decHeader) (hstep : coreStep s = some t) :
    t = headerWrites t s := by
  rcases coreStep_cases hstep with ⟨e, rest, -, -, rfl⟩ | ⟨b, -, hw, -, -⟩
  · have hcommand : commandOf (popIn e rest s).pos = some .decHeader := by rwa [popIn_pos]
    generalize hu : popIn e rest s = u at hcommand ⊢
    have hpop : u = headerWrites u s := hu ▸ popIn_headerWrites e rest s
    calc afterPop e u = headerWrites (afterPop e u) u := afterPop_headerWrites e hcommand
      _ = headerWrites (afterPop e u) (headerWrites u s) := by rw [← hpop]
      _ = headerWrites (afterPop e u) s := rfl
  · exact absurd hw (awaited_of_decHeader hi b)

theorem programOf_decHeader_frame (s : State) :
    programOf .decHeader (accept 0x20#8 s) =
      headerWrites (programOf .decHeader (accept 0x20#8 s)) { implicitClear s with lastOp := 0x20#8 } :=
  proceed_frame (i := .decHeader) (frame := headerWrites) (s := startDecHeader (accept 0x20#8 s))
    (fun _ _ _ => rfl) coreStep_headerWrites rfl rfl

/-- Settles O53: what is not accepted stops at issue, and an accepted command's steps stay within its frame. -/
theorem frameStarting : Obligations.FrameStarting := by
  refine ⟨fun s t h => ?_, fun s t h => ?_⟩ <;>
    (rw [exec_issue] at h
     obtain rfl := Host.Outcome.next.inj h)
  · refine (issue_frame .encCount s).imp id fun haccepted => ?_
    rw [haccepted]
    exact programOf_encCount_frame s
  · refine (issue_frame .decHeader s).imp id fun haccepted => ?_
    rw [haccepted]
    exact programOf_decHeader_frame s

end Sys2Proof.Machine
end

section
/-! SUPPORT. The byte values in order, and FreqSequence over the frequency table (42_frequency.md R128). -/
namespace Sys2Proof.Machine
variable {s : State}

/-! ### The byte values -/

theorem mem_byteValues (v : Byte) : v ∈ byteValues :=
  List.mem_map.mpr ⟨v.toNat, List.mem_range.mpr v.isLt, by simp⟩

theorem byteValues_ascending : byteValues.Pairwise (· < ·) := by
  refine List.pairwise_map.mpr (List.pairwise_lt_range.imp_of_mem fun {a b} ha hb hlt => ?_)
  rw [List.mem_range] at ha hb
  rw [BitVec.lt_def, BitVec.toNat_ofNat, BitVec.toNat_ofNat]
  omega

theorem byteValues_nodup : byteValues.Nodup := byteValues_ascending.imp BitVec.ne_of_lt

/-! ### The entries of the sequence -/

theorem freqEntries_length (s : State) : (freqEntries s).length = distinctValues s := List.length_map _

theorem freqEntries_symbols (s : State) :
    (freqEntries s).map Prod.fst = byteValues.filter fun v => freqAt s v != 0#64 := by
  rw [freqEntries, List.map_map]
  exact List.map_id _

theorem mem_freqEntries {e : Byte × Word} : e ∈ freqEntries s ↔ e.2 = freqAt s e.1 ∧ freqAt s e.1 ≠ 0#64 := by
  rw [freqEntries, List.mem_map]
  constructor
  · rintro ⟨v, hv, rfl⟩
    exact ⟨rfl, by simpa using (List.mem_filter.mp hv).2⟩
  · rintro ⟨hcount, hoccurs⟩
    exact ⟨e.1, List.mem_filter.mpr ⟨mem_byteValues e.1, by simpa using hoccurs⟩, Prod.ext rfl hcount.symm⟩

theorem freqEntries_ascending (s : State) : (freqEntries s).Pairwise fun d e => d.1 < e.1 := by
  rw [← List.pairwise_map (f := Prod.fst) (R := (· < ·)), freqEntries_symbols]
  exact byteValues_ascending.filter _

/-! ### Writing the entries -/

/-- Entry `i` of the sequence as the registers hold it (10_state.md R27). -/
def seqEntryAt (s : State) (i : Nat) : Byte × Word := (seqSymAt s i, seqCntAt s i)

theorem seqEntryAt_setSeqEntry (s : State) (n i : Nat) (v : Byte) (c : Word) :
    seqEntryAt (setSeqEntry n v c s) i = if n = i ∧ n < 256 then (v, c) else seqEntryAt s i := by
  simp only [seqEntryAt, seqSymAt, seqCntAt, setSeqEntry, bankAt_bankSet]
  split <;> rfl

/-- The entries written stand from position `n` on, and every other entry is as it was. -/
theorem seqEntryAt_writeSeq (es : List (Byte × Word)) (n : Nat) (s : State) (h : n + es.length ≤ 256) (i : Nat) :
    seqEntryAt (writeSeq es n s) i = if n ≤ i then es.getD (i - n) (seqEntryAt s i) else seqEntryAt s i := by
  induction es generalizing n s with
  | nil => simp [writeSeq, seqEntryAt, seqSymAt, seqCntAt]
  | cons e es ih =>
    rw [List.length_cons] at h
    rw [writeSeq, ih (n + 1) _ (by omega), seqEntryAt_setSeqEntry]
    rcases Nat.lt_trichotomy i n with hlt | rfl | hgt
    · rw [if_neg (by omega), if_neg (by omega), if_neg (by omega)]
    · rw [if_neg (by omega), if_pos ⟨rfl, by omega⟩, if_pos le_rfl, Nat.sub_self, List.getD_cons_zero]
    · obtain ⟨k, rfl⟩ : ∃ k, i = n + 1 + k := ⟨i - (n + 1), by omega⟩
      rw [if_pos (by omega), if_neg (by omega), if_pos (by omega), Nat.add_sub_cancel_left,
        show n + 1 + k - n = k + 1 by omega, List.getD_cons_succ]

theorem writeSeq_counts (es : List (Byte × Word)) (n : Nat) (s : State) :
    (writeSeq es n s).freq = s.freq ∧ (writeSeq es n s).total = s.total := by
  induction es generalizing n s with
  | nil => exact ⟨rfl, rfl⟩
  | cons e es ih => exact ih (n + 1) _

/-! ### FreqSequence -/

theorem freqSequence_seqN (s : State) : (freqSequence s).seqN.toNat = distinctValues s := by
  have hle := freqEntries_length_le s
  rw [freqEntries_length] at hle
  rw [freqSequence, writeSeq_seqN, BitVec.toNat_ofNat, freqEntries_length]
  omega

theorem seqEntryAt_freqSequence (s : State) (i : Nat) :
    seqEntryAt (freqSequence s) i = (freqEntries s).getD i (seqEntryAt s i) := by
  rw [freqSequence, seqEntryAt_writeSeq _ 0 s (by simpa using freqEntries_length_le s), if_pos (Nat.zero_le i)]
  rfl

theorem seqEntryAt_freqSequence_of_lt {i : Nat} (h : i < (freqEntries s).length) :
    seqEntryAt (freqSequence s) i = (freqEntries s)[i] := by
  rw [seqEntryAt_freqSequence, List.getD_eq_getElem _ _ h]

/-- Settles O24: the registers hold the entries, which are the values that occur, in order, and nothing after them. -/
theorem freqSequenceLists : Obligations.FreqSequenceLists := by
  intro s
  simp only [← freqEntries_length]
  refine ⟨(freqSequence_seqN s).trans (freqEntries_length s).symm, fun i hi => ?_, fun i j hij hj => ?_, fun v hv => ?_,
    fun i hi => ?_, writeSeq_counts _ 0 s⟩
  · have hmem : seqEntryAt (freqSequence s) i ∈ freqEntries s := by
      rw [seqEntryAt_freqSequence_of_lt hi]
      exact List.getElem_mem hi
    obtain ⟨hcount, hoccurs⟩ := mem_freqEntries.mp hmem
    exact ⟨hcount, fun hzero => hoccurs (hcount.symm.trans hzero)⟩
  · have hlt := List.pairwise_iff_getElem.mp (freqEntries_ascending s) i j (hij.trans hj) hj hij
    rwa [← seqEntryAt_freqSequence_of_lt, ← seqEntryAt_freqSequence_of_lt] at hlt
  · obtain ⟨i, hi, hentry⟩ := List.getElem_of_mem (mem_freqEntries.mpr ⟨rfl, hv⟩ : (v, freqAt s v) ∈ freqEntries s)
    rw [← seqEntryAt_freqSequence_of_lt hi] at hentry
    exact ⟨i, hi, congrArg Prod.fst hentry⟩
  · have hkept : seqEntryAt (freqSequence s) i = seqEntryAt s i := by
      rw [seqEntryAt_freqSequence, List.getD_eq_default _ _ hi]
    exact ⟨congrArg Prod.fst hkept, congrArg Prod.snd hkept⟩

end Sys2Proof.Machine
end

section
/-! SUPPORT. ENC_COUNT's loop, one Byte and then a whole file, and where it ends (42_frequency.md R125, R126). -/
namespace Sys2Proof.Machine
variable {s : State}

/-! ### One element of the file -/

/-- ENC_COUNT is in its loop, having counted every Byte it has popped (R123). -/
structure Counting (s : State) : Prop where
  busy : s.busy = true
  pos : s.pos = .countPop
  xferIn : s.xferIn = s.total

theorem toNat_add_one {c : Word} (h : c ≠ BitVec.allOnes 64) : (c + 1).toNat = c.toNat + 1 := by
  have hne : c.toNat ≠ 2 ^ 64 - 1 := fun hc => h (BitVec.eq_of_toNat_eq hc)
  bv_omega

/-- The table with one more `v` in it. -/
def tally (v : Byte) (f : Bank Word 256) : Bank Word 256 := bankSet f v.toNat (bankAt f v.toNat 0#64 + 1)

/-- The state after ENC_COUNT has counted the Byte `v` and left `rest` in IN (R125). -/
def countByte (v : Byte) (rest : List InElem) (s : State) : State :=
  { s with inCh := rest, xferIn := s.xferIn + 1, total := s.total + 1, freq := tally v s.freq }

theorem freqAt_countByte (v w : Byte) (rest : List InElem) (s : State) :
    freqAt (countByte v rest s) w = if v = w then freqAt s w + 1 else freqAt s w := by
  have h := freqAt_setFreq s v w (freqAt s v + 1)
  refine Eq.trans h ?_
  split
  · next hvw => rw [hvw]
  · rfl

/-- While the transfer counter can count, a popped Byte is counted there. -/
theorem popIn_byte {v : Byte} {rest : List InElem} (h : s.xferIn ≠ BitVec.allOnes 64) :
    popIn (.byte v) rest s = { s with inCh := rest, xferIn := s.xferIn + 1 } := by
  simp only [popIn, countTransfer, drawsAfter, if_neg h]

theorem countElem_byte {v : Byte} (h : s.total ≠ BitVec.allOnes 64) :
    countElem (.byte v) s = waitAt .countPop { setFreq v (freqAt s v + 1) s with total := s.total + 1 } := by
  simp only [countElem, if_neg h]

theorem countElem_full {v : Byte} (h : s.total = BitVec.allOnes 64) :
    countElem (.byte v) s = raise .overflowTotal 0#64 s := by
  simp only [countElem, if_pos h]

theorem countElem_popIn_byte {v : Byte} {rest : List InElem} (hpos : s.pos = .countPop) (hx : s.xferIn = s.total)
    (hroom : s.total ≠ BitVec.allOnes 64) : countElem (.byte v) (popIn (.byte v) rest s) = countByte v rest s := by
  rw [countElem_byte (by rwa [popIn_total]), popIn_byte (hx ▸ hroom), waitAt, ← hpos]
  rfl

theorem Counting.countByte (h : Counting s) (v : Byte) (rest : List InElem) : Counting (countByte v rest s) :=
  ⟨h.busy, h.pos, congrArg (· + 1) h.xferIn⟩

theorem Counting.coreStep_byte (h : Counting s) {v : Byte} {rest : List InElem} (hin : s.inCh = .byte v :: rest)
    (hroom : s.total ≠ BitVec.allOnes 64) : coreStep s = some (Machine.countByte v rest s) := by
  rw [coreStep_countPop h.busy h.pos hin, countElem_popIn_byte h.pos h.xferIn hroom]

/-! ### A whole file -/

/-- The table with every Byte of a file counted in it. -/
def tallyFile : List Byte → Bank Word 256 → Bank Word 256
  | [], f => f
  | v :: bytes, f => tallyFile bytes (tally v f)

theorem bankAt_tally (v w : Byte) (f : Bank Word 256) :
    bankAt (tally v f) w.toNat 0#64 = bankAt f w.toNat 0#64 + if v = w then 1 else 0 := by
  rw [tally, bankAt_bankSet]
  by_cases h : v = w
  · subst h
    simp [v.isLt]
  · simp [h, BitVec.toNat_inj.not.mpr h]

theorem bankAt_tallyFile (bytes : List Byte) (f : Bank Word 256) (w : Byte) :
    bankAt (tallyFile bytes f) w.toNat 0#64 = bankAt f w.toNat 0#64 + BitVec.ofNat 64 (bytes.count w) := by
  induction bytes generalizing f with
  | nil => exact (BitVec.add_zero _).symm
  | cons v bytes ih =>
    rw [tallyFile, ih, bankAt_tally, List.count_cons, BitVec.add_assoc, Nat.add_comm, BitVec.ofNat_add]
    congr 2
    by_cases h : v = w <;> simp [h]

/-- The state after ENC_COUNT has counted every Byte of a file and left `rest` in IN (R125). -/
def countFile (bytes : List Byte) (rest : List InElem) (s : State) : State :=
  { s with
    inCh := rest, xferIn := s.xferIn + BitVec.ofNat 64 bytes.length, total := s.total + BitVec.ofNat 64 bytes.length
    freq := tallyFile bytes s.freq }

theorem countFile_countByte (v : Byte) (bytes : List Byte) (rest rest' : List InElem) (s : State) :
    countFile bytes rest (countByte v rest' s) = countFile (v :: bytes) rest s := by
  have hlength (c : Word) : c + 1 + BitVec.ofNat 64 bytes.length = c + BitVec.ofNat 64 (bytes.length + 1) := by
    rw [BitVec.add_assoc, Nat.add_comm, BitVec.ofNat_add]
    rfl
  simp only [countFile, countByte, hlength, List.length_cons, tallyFile]

theorem countFile_nil (s : State) : countFile [] s.inCh s = s := by simp [countFile, tallyFile]

/-- ENC_COUNT running on counts the Bytes of the file that has begun (R125). -/
theorem Counting.settle_file {bytes : List Byte} {rest : List InElem} (h : Counting s)
    (hin : s.inCh = fileOf bytes ++ rest) (hroom : s.total.toNat + bytes.length < 2 ^ 64) :
    settle s = settle (countFile bytes rest s) := by
  induction bytes generalizing s with
  | nil =>
    obtain rfl : s.inCh = rest := hin
    rw [countFile_nil]
  | cons v bytes ih =>
    rw [List.length_cons] at hroom
    have hnot : s.total ≠ BitVec.allOnes 64 := fun hfull => by
      rw [hfull, BitVec.toNat_allOnes] at hroom; omega
    have hnext : (Machine.countByte v (fileOf bytes ++ rest) s).total.toNat + bytes.length < 2 ^ 64 := by
      rw [Machine.countByte, toNat_add_one hnot]; omega
    have hstep : coreStep s = some (Machine.countByte v (fileOf bytes ++ rest) s) := h.coreStep_byte hin hnot
    rw [settle_some hstep, ih (h.countByte v _) rfl hnext, countFile_countByte]

/-- An End or a Fault ends ENC_COUNT. -/
theorem countElem_ends {e : InElem} (he : ∀ v, e ≠ .byte v) (s : State) : (countElem e s).busy = false := by
  cases e with
  | byte v => exact absurd rfl (he v)
  | endOfFile | fault => rfl

theorem popIn_ends {e : InElem} (he : ∀ v, e ≠ .byte v) (rest : List InElem) (s : State) :
    popIn e rest s = { s with inCh := rest } := by
  cases e with
  | byte v => exact absurd rfl (he v)
  | endOfFile | fault => rfl

/-- ENC_COUNT, run on, counts the file that stands in IN up to its End or Fault, and ends with that element. -/
theorem exec_encCount {bytes : List Byte} {e : InElem} {rest : List InElem} (hready : Ready .encCount s)
    (heager : s.eager = true) (hin : s.inCh = fileOf bytes ++ e :: rest) (hlen : bytes.length < 2 ^ 64)
    (he : ∀ v, e ≠ .byte v) :
    exec .encCount s = .next (countElem e (countFile bytes rest (startCount (accept 0x10#8 s)))) := by
  have hcounting : Counting (startCount (accept 0x10#8 s)) := ⟨rfl, rfl, rfl⟩
  have hroom : (startCount (accept 0x10#8 s)).total.toNat + bytes.length < 2 ^ 64 := by
    show 0 + bytes.length < 2 ^ 64
    omega
  have hstep := coreStep_countPop (s := countFile bytes (e :: rest) (startCount (accept 0x10#8 s))) rfl rfl rfl
  rw [popIn_ends he] at hstep
  rw [exec_ready hready]
  congr 1
  calc programOf .encCount (accept 0x10#8 s)
      = settle (startCount (accept 0x10#8 s)) := programOf_eq_settle .encCount heager
    _ = settle (countFile bytes (e :: rest) (startCount (accept 0x10#8 s))) := hcounting.settle_file hin hroom
    _ = settle (countElem e (countFile bytes rest (startCount (accept 0x10#8 s)))) := settle_some hstep
    _ = countElem e (countFile bytes rest (startCount (accept 0x10#8 s))) := settle_idle (countElem_ends he _)

/-! ### The registers at the end -/

/-- From cleared registers the table holds how often each value occurs in the file. -/
theorem freqAt_countFile_start (bytes : List Byte) (rest : List InElem) (s : State) (v : Byte) :
    freqAt (countFile bytes rest (startCount s)) v = BitVec.ofNat 64 (bytes.count v) := by
  refine (bankAt_tallyFile bytes _ v).trans ?_
  rw [startCount, waitAt_freq, implicitClear_freq, bankAt_fill_same, BitVec.zero_add]

/-- From cleared registers TOTAL and XFER_IN hold the length of the file. -/
theorem countFile_start (bytes : List Byte) (rest : List InElem) (s : State) :
    (countFile bytes rest (startCount s)).total = BitVec.ofNat 64 bytes.length ∧
      (countFile bytes rest (startCount s)).xferIn = BitVec.ofNat 64 bytes.length :=
  ⟨BitVec.zero_add _, BitVec.zero_add _⟩

/-- Settles O21: the End completes ENC_COUNT over the registers that ImplicitClear left and the file was counted in. -/
theorem encCountCounts : Obligations.EncCountCounts := by
  intro s bytes rest hready heager hin hlen
  refine ⟨_, exec_encCount hready heager hin hlen nofun, ?_, freqAt_countFile_start bytes rest _⟩
  obtain ⟨htotal, -⟩ := countFile_start bytes rest (accept 0x10#8 s)
  rw [← htotal]
  rfl

/-- Settles O22: the Fault raises READ over the registers the file was counted in, and a full TOTAL raises OVERFLOW
over the state that has only lost the popped Byte. -/
theorem encCountErrors : Obligations.EncCountErrors := by
  refine ⟨fun s bytes rest hready heager hin hlen => ?_, fun s v rest hb hpos htotal hin => ?_⟩
  · obtain ⟨htotal, hxferIn⟩ := countFile_start bytes rest (accept 0x10#8 s)
    exact ⟨_, exec_encCount hready heager hin hlen nofun, rfl, rfl, rfl, hxferIn, rfl, rfl, htotal,
      freqAt_countFile_start bytes rest _⟩
  · have hfull : (popIn (.byte v) rest s).total = BitVec.allOnes 64 := BitVec.eq_of_toNat_eq (by simpa using htotal)
    refine ⟨_, coreStep_countPop hb hpos hin, ?_⟩
    rw [countElem_full hfull]
    exact ⟨rfl, rfl, rfl, rfl, rfl, rfl, rfl, rfl⟩

end Sys2Proof.Machine
end

section
/-! SUPPORT. The counters and TOTAL under every step (42_frequency.md R123): only ENC_COUNT writes them, and a reset or
ImplicitClear. -/
namespace Sys2Proof.Machine
variable {i : Instr} {s t : State}

/-! ### What leaves the counters alone -/

/-- TOTAL and FREQ. -/
def counters (s : State) : Word × Bank Word 256 := (s.total, s.freq)

@[simp] theorem popIn_counters (e : InElem) (rest : List InElem) (s : State) :
    counters (popIn e rest s) = counters s := by simp [counters]

@[simp] theorem pushOut_counters (b : Byte) (r : SinkAnswer) (s : State) :
    counters (pushOut b r s) = counters s := by simp [counters]

theorem pushHeader_counters (bs : List Byte) (s : State) : counters (pushHeader bs s) = counters s := by
  cases bs <;> rfl

theorem startHeader_counters (s : State) : counters (startHeader s) = counters s := by
  unfold startHeader
  split
  · rfl
  · exact pushHeader_counters _ s

theorem writeBits_counters (bits : List Bool) (s : State) : counters (writeBits bits s) = counters s := by
  induction bits generalizing s with
  | nil => rfl
  | cons b bits ih =>
    simp only [writeBits]
    split
    · rfl
    · exact ih _

theorem abortEmit_counters (c : ErrorCause) (info : Word) (s : State) :
    counters (abortEmit c info s) = counters s := by
  simp only [abortEmit]
  split <;> rfl

theorem emitFinish_counters (s : State) : counters (emitFinish s) = counters s := by
  unfold emitFinish
  split <;> rfl

theorem emitElem_counters (e : InElem) (s : State) : counters (emitElem e s) = counters s := by
  cases e with
  | byte v =>
    simp only [emitElem]
    split
    · exact abortEmit_counters _ _ s
    · split
      · exact abortEmit_counters _ _ s
      · exact writeBits_counters _ s
  | endOfFile =>
    simp only [emitElem]
    split
    · exact emitFinish_counters s
    · rfl
  | fault => exact abortEmit_counters _ _ s

theorem payloadEnd_counters (s : State) : counters (payloadEnd s) = counters s := by
  unfold payloadEnd
  split <;> rfl

theorem payloadLoop_counters (bits : List Bool) (s : State) : counters (payloadLoop bits s) = counters s := by
  induction bits generalizing s with
  | nil =>
    simp only [payloadLoop]
    split
    · exact payloadEnd_counters s
    · rfl
  | cons b bits ih =>
    simp only [payloadLoop]
    split
    · exact payloadEnd_counters s
    · split
      · rfl
      · split
        · rfl
        · exact ih _

theorem startPayload_counters (s : State) : counters (startPayload s) = counters s := by
  unfold startPayload
  split
  · rfl
  · exact payloadLoop_counters _ _

theorem payloadElem_counters (e : InElem) (s : State) : counters (payloadElem e s) = counters s := by
  cases e with
  | byte v => exact payloadLoop_counters _ _
  | endOfFile | fault => rfl

theorem buildTree_counters (n : Nat) (s : State) : counters (buildTree n s) = counters s := by
  unfold buildTree
  split <;> rfl

theorem encBuildProgram_counters (s : State) : counters (encBuildProgram s) = counters s := by
  have ht : counters (setStatOrig (freqSequence s)) = counters s := by
    obtain ⟨hfreq, htotal⟩ := writeSeq_counts (freqEntries s) 0 s
    exact Prod.ext htotal hfreq
  simp only [encBuildProgram]
  generalize setStatOrig (freqSequence s) = t at ht ⊢
  have hu : counters (buildTable (buildTree t.seqN.toNat t)) = counters s := (buildTree_counters _ t).trans ht
  generalize buildTable (buildTree t.seqN.toNat t) = u at hu ⊢
  split
  · exact ht
  · split <;> exact hu

theorem decBuildProgram_counters (s : State) : counters (decBuildProgram s) = counters s := by
  unfold decBuildProgram
  split
  · rfl
  · exact buildTree_counters _ s

theorem headerWrites_counters (t s : State) : counters (headerWrites t s) = counters s := rfl

theorem afterPop_counters (e : InElem) (h : s.pos ≠ .countPop) : counters (afterPop e s) = counters s := by
  have hdec : commandOf s.pos = some .decHeader → counters (afterPop e s) = counters s := fun hi => by
    rw [afterPop_headerWrites e hi, headerWrites_counters]
  cases hpos : s.pos with
  | countPop => exact absurd hpos h
  | emitPop => simpa only [afterPop, hpos] using emitElem_counters e s
  | payloadPop => simpa only [afterPop, hpos] using payloadElem_counters e s
  | decLen | decCount | decSym | decCnt => exact hdec (by rw [hpos]; rfl)
  | idle | headerPush | emitPush | emitClose | abortClose | payloadPush => simp only [afterPop, hpos]

theorem afterPush_counters (r : SinkAnswer) (s : State) : counters (afterPush r s) = counters s := by
  cases hpos : s.pos with simp only [afterPush, hpos]
  | headerPush b rest =>
    cases r with
    | ok => exact pushHeader_counters rest s
    | fault => rfl
  | emitPush bits =>
    cases r with
    | ok => exact writeBits_counters bits _
    | fault => rfl
  | emitClose =>
    cases r with
    | ok => exact emitFinish_counters _
    | fault => rfl
  | abortClose => rfl
  | payloadPush sym =>
    cases r with
    | ok => exact payloadLoop_counters _ _
    | fault => rfl

theorem coreStep_counters (hstep : coreStep s = some t) (h : s.pos ≠ .countPop) : counters t = counters s := by
  rcases coreStep_cases hstep with ⟨e, rest, -, -, rfl⟩ | ⟨b, r, -, -, rfl⟩
  · rw [afterPop_counters e (by rwa [popIn_pos]), popIn_counters]
  · rw [afterPush_counters, pushOut_counters]

/-- No command but ENC_COUNT waits in its loop. -/
theorem pos_ne_countPop (hi : i ≠ .encCount) (ht : t.pos = .idle ∨ commandOf t.pos = some i) : t.pos ≠ .countPop := by
  intro hpos
  rw [hpos] at ht
  rcases ht with ht | ht
  · cases ht
  · exact hi (Option.some.inj ht).symm

theorem coreStep_pos_ne_countPop (hstep : coreStep s = some t) (h : s.pos ≠ .countPop) : t.pos ≠ .countPop := by
  obtain ⟨i, hi, ht⟩ := coreStep_command hstep
  exact pos_ne_countPop (by rintro rfl; exact h (countPop_of_commandOf hi)) ht

/-! ### The invariant -/

theorem freqAt_of_counters (h : counters t = counters s) (v : Byte) : freqAt t v = freqAt s v := by
  rw [freqAt, freqAt, show t.freq = s.freq from congrArg Prod.snd h]

theorem CountInv.of_counters (h : CountInv s) (hc : counters t = counters s)
    (hx : t.pos = .countPop → t.xferIn = t.total) : CountInv t := by
  have htotal : t.total = s.total := congrArg Prod.fst hc
  obtain ⟨hsum, hle, -⟩ := h
  refine ⟨?_, fun v => ?_, hx⟩
  · simpa only [htotal, freqSum, freqAt_of_counters hc] using hsum
  · simpa only [htotal, freqAt_of_counters hc] using hle v

/-- A move that leaves the counters alone and does not rest in ENC_COUNT's loop keeps the invariant. -/
theorem CountInv.elsewhere (h : CountInv s) (hc : counters t = counters s) (hpos : t.pos ≠ .countPop) : CountInv t :=
  h.of_counters hc fun hp => absurd hp hpos

theorem freqSum_eq_add (s : State) (v : Byte) :
    freqSum s = (freqAt s v).toNat + ((byteValues.erase v).map fun w => (freqAt s w).toNat).sum :=
  ((List.perm_cons_erase (mem_byteValues v)).map fun w => (freqAt s w).toNat).sum_eq

/-- One counter goes up by one, and so does the sum. -/
theorem freqSum_increment {v : Byte} (hv : (freqAt t v).toNat = (freqAt s v).toNat + 1)
    (hother : ∀ w, v ≠ w → freqAt t w = freqAt s w) : freqSum t = freqSum s + 1 := by
  have hrest : ((byteValues.erase v).map fun w => (freqAt t w).toNat) =
      (byteValues.erase v).map fun w => (freqAt s w).toNat :=
    List.map_congr_left fun w hw => by rw [hother w (byteValues_nodup.mem_erase_iff.mp hw).1.symm]
  rw [freqSum_eq_add t v, freqSum_eq_add s v, hrest, hv]
  omega

theorem CountInv.countByte (h : CountInv s) (hpos : s.pos = .countPop) (hroom : s.total ≠ BitVec.allOnes 64)
    (v : Byte) (rest : List InElem) : CountInv (countByte v rest s) := by
  obtain ⟨hsum, hle, hx⟩ := h
  have htotal : (s.total + 1).toNat = s.total.toNat + 1 := toNat_add_one hroom
  have hv : (freqAt (Machine.countByte v rest s) v).toNat = (freqAt s v).toNat + 1 := by
    have hle : (freqAt s v).toNat ≤ s.total.toNat := hle v
    rw [freqAt_countByte, if_pos rfl]
    bv_omega
  have hother : ∀ w, v ≠ w → freqAt (Machine.countByte v rest s) w = freqAt s w := fun w hw => by
    rw [freqAt_countByte, if_neg hw]
  refine ⟨?_, fun w => ?_, fun _ => congrArg (· + 1) (hx hpos)⟩
  · rw [freqSum_increment hv hother, ← hsum]
    exact htotal
  · have hle : (freqAt s w).toNat ≤ s.total.toNat := hle w
    refine BitVec.le_def.mpr ?_
    rw [show (Machine.countByte v rest s).total.toNat = s.total.toNat + 1 from htotal]
    by_cases hw : v = w
    · subst hw
      omega
    · rw [hother w hw]
      omega

theorem coreStep_countInv (s t : State) (h : CountInv s) (hstep : coreStep s = some t) : CountInv t := by
  by_cases hpos : s.pos = .countPop
  · obtain ⟨e, rest, -, rfl⟩ := coreStep_countPop_cases hpos hstep
    cases e with
    | byte v =>
      by_cases hfull : s.total = BitVec.allOnes 64
      · rw [countElem_full (by rwa [popIn_total])]
        exact h.elsewhere (popIn_counters _ rest s) nofun
      · rw [countElem_popIn_byte hpos (h.2.2 hpos) hfull]
        exact h.countByte hpos hfull v rest
    | endOfFile | fault => exact h.elsewhere (popIn_counters _ rest s) nofun
  · exact h.elsewhere (coreStep_counters hstep hpos) (coreStep_pos_ne_countPop hstep hpos)

/-! ### The start of a program -/

theorem firstStop_counters (h : clearsFirst i = false) (s : State) : counters (firstStop i s) = counters s := by
  cases i with
  | clear | encCount | decHeader => cases h
  | nop | encEmit => rfl
  | encBuild => exact encBuildProgram_counters s
  | encHeader => exact startHeader_counters s
  | decBuild => exact decBuildProgram_counters s
  | decPayload => exact startPayload_counters s

/-- After ImplicitClear the counters are those of reset, and ENC_COUNT begins with XFER_IN at 0. -/
theorem clears_countInv (h : clearsFirst i = true) (s : State) : CountInv (firstStop i s) := by
  cases i with
  | clear | encCount | decHeader => exact countInv_reset.of_counters rfl fun _ => rfl
  | nop | encBuild | encHeader | encEmit | decBuild | decPayload => cases h

theorem accepted_countInv (i : Instr) (op : Byte) (h : CountInv s) : CountInv (firstStop i (accept op s)) := by
  cases hclears : clearsFirst i with
  | true => exact clears_countInv hclears _
  | false =>
    have hi : i ≠ .encCount := by rintro rfl; cases hclears
    have hpos := pos_ne_countPop hi (firstStop_stops i (accept op s)).command
    have hkept : counters (accept op s) = counters s := rfl
    exact h.elsewhere ((firstStop_counters hclears _).trans hkept) hpos

theorem issue_countInv (i : Instr) (s : State) (h : CountInv s) : CountInv (issue i (programOf i) s) := by
  rcases issue_cases i (programOf i) s with ⟨-, he⟩ | ⟨-, -, -, he⟩ | ⟨-, -, -, he⟩ | ⟨-, -, he⟩ <;> rw [he]
  · exact h
  · exact h
  · exact h.elsewhere rfl nofun
  · rw [programOf_eq_proceed]
    exact proceed_induct coreStep_countInv _ (accepted_countInv i _ h)

theorem rejectWord_countInv (e : DecodeError) (w : Word) (s : State) (h : CountInv s) :
    CountInv (rejectWord e w s) := by
  rcases rejectWord_cases e w s with ⟨-, he⟩ | ⟨-, -, he⟩ | ⟨-, -, c, -, he⟩ <;> rw [he]
  · exact h
  · exact h
  · exact h.elsewhere rfl nofun

/-- Settles O23, by the induction over steps of `step_keeps`: the host leaves the counters alone, and of the core's
moves only a Byte counted by ENC_COUNT and a clear change them. -/
theorem countInvStep : Obligations.CountInvStep := by
  intro s t h hstep
  exact step_keeps (fun _ _ _ _ _ _ _ _ _ h => h) coreStep_countInv issue_countInv rejectWord_countInv
    (fun _ _ => countInv_reset.of_counters rfl nofun) h hstep

end Sys2Proof.Machine
end

section
/-! SUPPORT. The priority order and the merge loop (43_tree.md R131 to R136): the loop keeps the candidates in its queue,
and each node it makes merges the two lowest of them. -/
namespace Sys2Proof.Machine

/-! ### The priority order (R131) -/

theorem keyLt_iff (a : Arena) (i j : Nat) : keyLt a i j = true ↔ (arenaAt a i).weight < (arenaAt a j).weight ∨
    ((arenaAt a i).weight = (arenaAt a j).weight ∧ i < j) := by
  simp [keyLt]

/-- The order on natural numbers, where `omega` can compare keys. -/
theorem keyLt_iff_toNat (a : Arena) (i j : Nat) : keyLt a i j = true ↔
    (arenaAt a i).weight.toNat < (arenaAt a j).weight.toNat ∨
      ((arenaAt a i).weight.toNat = (arenaAt a j).weight.toNat ∧ i < j) := by
  rw [keyLt_iff, BitVec.lt_def, BitVec.toNat_inj]

theorem keyLt_total (a : Arena) {i j : Nat} (h : i ≠ j) : keyLt a i j = true ∨ keyLt a j i = true := by
  rw [keyLt_iff_toNat, keyLt_iff_toNat]; omega

theorem keyLt_irrefl (a : Arena) (i : Nat) : keyLt a i i = false := by
  rw [← Bool.not_eq_true, keyLt_iff_toNat]; omega

theorem keyLt_asymm {a : Arena} {i j : Nat} (h : keyLt a i j = true) : keyLt a j i = false := by
  rw [← Bool.not_eq_true]; rw [keyLt_iff_toNat] at *; omega

theorem keyLt_false_trans {a : Arena} {i j k : Nat} (hij : keyLt a i j = false) (hjk : keyLt a j k = false) :
    keyLt a i k = false := by
  rw [← Bool.not_eq_true, keyLt_iff_toNat] at *; omega

theorem keyLt_of_ne {a : Arena} {i j : Nat} (hne : i ≠ j) (h : keyLt a j i = false) : keyLt a i j = true :=
  (keyLt_total a hne).resolve_right (by simp [h])

theorem keyLt_congr {a b : Arena} {i j : Nat} (hi : arenaAt a i = arenaAt b i) (hj : arenaAt a j = arenaAt b j) :
    keyLt a i j = keyLt b i j := by
  rw [keyLt, keyLt, hi, hj]

theorem lowestFrom_lowest (a : Arena) (k : Nat) (js : List Nat) :
    ∀ j ∈ k :: js, keyLt a j (lowestFrom a k js) = false := by
  induction js generalizing k with
  | nil => simp [lowestFrom, keyLt_irrefl]
  | cons j js ih =>
    rw [lowestFrom]
    split
    · next hlt =>
      have hbest := ih j
      rintro x (_ | ⟨_, hx⟩)
      · exact keyLt_false_trans (keyLt_asymm hlt) (hbest j List.mem_cons_self)
      · exact hbest x hx
    · next hnot =>
      have hbest := ih k
      rintro x (_ | ⟨_, _ | ⟨_, hx⟩⟩)
      · exact hbest k List.mem_cons_self
      · exact keyLt_false_trans (Bool.not_eq_true _ ▸ hnot) (hbest k List.mem_cons_self)
      · exact hbest x (.tail _ hx)

/-- One turn of the merge loop, with what makes `i` and `j` the two lowest (`mergeLoop_turn` has the turn alone). -/
theorem mergeLoop_takes_lowest (turns : Nat) {q : List Nat} (next : Nat) (a : Arena) (hq : 2 ≤ q.length) :
    ∃ i j, i ∈ q ∧ (∀ c ∈ q, keyLt a c i = false) ∧ j ∈ q.erase i ∧ (∀ c ∈ q.erase i, keyLt a c j = false) ∧
      mergeLoop (turns + 1) q next a =
        mergeLoop turns ((q.erase i).erase j ++ [next]) (next + 1) (bankSet a next (mergedNode a i j)) := by
  match q, hq with
  | k :: k' :: ks, _ =>
    have hi := lowestFrom_mem a k (k' :: ks)
    have hlen := List.length_erase_of_mem hi
    cases hrest : (k :: k' :: ks).erase (lowestFrom a k (k' :: ks)) with
    | nil => simp [hrest] at hlen
    | cons j js =>
      refine ⟨_, lowestFrom a j js, hi, lowestFrom_lowest a k (k' :: ks), ?_, ?_, ?_⟩
      · exact hrest ▸ lowestFrom_mem a j js
      · exact hrest ▸ lowestFrom_lowest a j js
      · simp only [mergeLoop, hrest]

/-! ### What a merge takes (R135, step 3) -/

theorem arenaAt_bankSet_other (a : Arena) {i j : Nat} (x : Node) (h : i ≠ j) :
    arenaAt (bankSet a i x) j = arenaAt a j := bankAt_bankSet_other a x _ h

theorem arenaAt_bankSet_same (a : Arena) {i : Nat} (x : Node) (h : i < 511) : arenaAt (bankSet a i x) i = x :=
  bankAt_bankSet_same a i x _ h

/-- Two arenas hold the same nodes below `k`. -/
def AgreeBelow (k : Nat) (a b : Arena) : Prop := ∀ j, j < k → arenaAt a j = arenaAt b j

theorem AgreeBelow.symm {k : Nat} {a b : Arena} (h : AgreeBelow k a b) : AgreeBelow k b a := fun j hj => (h j hj).symm

theorem CandidateAt.congr {a b : Arena} {n k c : Nat} (hab : AgreeBelow k a b) (h : CandidateAt a n k c) :
    CandidateAt b n k c := by
  obtain ⟨hlt, hfree⟩ := h
  exact ⟨hlt, fun j hn hj => hab j hj ▸ hfree j hn hj⟩

/-- Of the candidates when node `k` is made, `z` has the lowest key and `o` the next lowest. -/
structure TakesLowest (a : Arena) (n k z o : Nat) : Prop where
  zero : CandidateAt a n k z
  one : CandidateAt a n k o
  lt : keyLt a z o = true
  least : ∀ c, CandidateAt a n k c → c ≠ z → c ≠ o → keyLt a o c = true

theorem TakesLowest.congr {a b : Arena} {n k z o : Nat} (hab : AgreeBelow k a b) (h : TakesLowest a n k z o) :
    TakesLowest b n k z o where
  zero := h.zero.congr hab
  one := h.one.congr hab
  lt := keyLt_congr (hab z h.zero.1) (hab o h.one.1) ▸ h.lt
  least c hc hz ho := keyLt_congr (hab o h.one.1) (hab c hc.1) ▸ h.least c (hc.congr hab.symm) hz ho

theorem TakesLowest.zero_lowest {a : Arena} {n k z o c : Nat} (h : TakesLowest a n k z o) (hc : CandidateAt a n k c) :
    keyLt a c z = false := by
  by_cases hz : c = z
  · exact hz ▸ keyLt_irrefl a c
  by_cases ho : c = o
  · exact ho ▸ keyLt_asymm h.lt
  · exact keyLt_false_trans (keyLt_asymm (h.least c hc hz ho)) (keyLt_asymm h.lt)

theorem TakesLowest.one_lowest {a : Arena} {n k z o c : Nat} (h : TakesLowest a n k z o) (hc : CandidateAt a n k c)
    (hz : c ≠ z) : keyLt a c o = false := by
  by_cases ho : c = o
  · exact ho ▸ keyLt_irrefl a c
  · exact keyLt_asymm (h.least c hc hz ho)

/-- Keys are never equal, so the pair that a merge takes is the only one. -/
theorem TakesLowest.unique {a : Arena} {n k z o z' o' : Nat} (h : TakesLowest a n k z o)
    (h' : TakesLowest a n k z' o') : z = z' ∧ o = o' := by
  have hsame : ∀ {i j : Nat}, keyLt a i j = false → keyLt a j i = false → i = j := fun hij hji =>
    by_contra fun hne => by rcases keyLt_total a hne with hlt | hlt <;> simp_all
  have hz : z = z' := hsame (h'.zero_lowest h.zero) (h.zero_lowest h'.zero)
  subst hz
  have hne : ∀ {x}, keyLt a z x = true → x ≠ z := by
    rintro _ hlt rfl
    simp [keyLt_irrefl] at hlt
  exact ⟨rfl, hsame (h'.one_lowest h.one (hne h.lt)) (h.one_lowest h'.one (hne h'.lt))⟩

/-- Node `k` merges the two lowest candidates, and its weight is their exact sum (R133). -/
structure MergesAt (a : Arena) (n k z o : Nat) : Prop where
  takes : TakesLowest a n k z o
  node : arenaAt a k = mergedNode a z o
  weight : (arenaAt a k).weight.toNat = (arenaAt a z).weight.toNat + (arenaAt a o).weight.toNat

theorem mergedNode_congr {a b : Arena} {i j : Nat} (hi : arenaAt a i = arenaAt b i) (hj : arenaAt a j = arenaAt b j) :
    mergedNode a i j = mergedNode b i j := by
  rw [mergedNode, mergedNode, hi, hj]

theorem MergesAt.congr {a b : Arena} {n k z o : Nat} (hab : AgreeBelow (k + 1) a b) (h : MergesAt a n k z o) :
    MergesAt b n k z o := by
  have hbelow : AgreeBelow k a b := fun j hj => hab j (by omega)
  have hz := hbelow z h.takes.zero.1
  have ho := hbelow o h.takes.one.1
  have hk := hab k (by omega)
  exact ⟨h.takes.congr hbelow, by rw [← hk, h.node, mergedNode_congr hz ho], by rw [← hk, ← hz, ← ho, h.weight]⟩

section
variable {a : Arena} {n k z o : Nat} (h : MergesAt a n k z o)
include h

theorem MergesAt.type : (arenaAt a k).type = .internal := by rw [h.node]; rfl

theorem MergesAt.zero (hk : k < 511) : (arenaAt a k).zero.toNat = z := by
  have hlt := h.takes.zero.1
  rw [h.node, mergedNode, BitVec.toNat_ofNat]; omega

theorem MergesAt.one (hk : k < 511) : (arenaAt a k).one.toNat = o := by
  have hlt := h.takes.one.1
  rw [h.node, mergedNode, BitVec.toNat_ofNat]; omega

end

/-! ### The merge loop's invariant -/

/-- The weights of the candidates, exactly. -/
def queueWeight (a : Arena) (q : List Nat) : Nat := (q.map fun c => (arenaAt a c).weight.toNat).sum

/-- The merge loop over `leaves` is about to make node `next`, with the candidates `q`. -/
structure Merging (n : Nat) (leaves : Arena) (next : Nat) (q : List Nat) (a : Arena) : Prop where
  started : n ≤ next
  nodup : q.Nodup
  candidates : ∀ c, c ∈ q ↔ CandidateAt a n next c
  size : q.length + next = 2 * n
  merged : ∀ k, n ≤ k → k < next → ∃ z o, MergesAt a n k z o
  kept : ∀ k, k < n ∨ next ≤ k → arenaAt a k = arenaAt leaves k
  weight : queueWeight a q < 2 ^ 72

theorem merging_start {n : Nat} {leaves : Arena} (hweight : queueWeight leaves (List.range n) < 2 ^ 72) :
    Merging n leaves n (List.range n) leaves where
  started := le_rfl
  nodup := List.nodup_range
  candidates c := by
    rw [List.mem_range]
    exact ⟨fun hc => ⟨hc, fun j hn hj => by omega⟩, fun hc => hc.1⟩
  size := by rw [List.length_range]; omega
  merged k hn hk := by omega
  kept _ _ := rfl
  weight := hweight

/-- The two lowest of the queue are what node `next` merges. -/
theorem Merging.takesLowest {n next i j : Nat} {leaves a : Arena} {q : List Nat} (h : Merging n leaves next q a)
    (hi : i ∈ q) (hilow : ∀ c ∈ q, keyLt a c i = false) (hj : j ∈ q.erase i)
    (hjlow : ∀ c ∈ q.erase i, keyLt a c j = false) : TakesLowest a n next i j := by
  obtain ⟨hji, hjq⟩ := (h.nodup.mem_erase_iff).mp hj
  refine ⟨(h.candidates i).mp hi, (h.candidates j).mp hjq, keyLt_of_ne hji.symm (hilow j hjq), fun c hc hci hcj => ?_⟩
  exact keyLt_of_ne hcj.symm (hjlow c ((h.nodup.mem_erase_iff).mpr ⟨hci, (h.candidates c).mpr hc⟩))

/-- Two candidates of the queue weigh no more than the whole queue, and the rest weighs the difference. -/
theorem queueWeight_erase (a : Arena) {q : List Nat} {i j : Nat} (hi : i ∈ q) (hj : j ∈ q.erase i) :
    (arenaAt a i).weight.toNat + ((arenaAt a j).weight.toNat + queueWeight a ((q.erase i).erase j)) =
      queueWeight a q := by
  rw [queueWeight, queueWeight, List.sum_map_erase (fun c => (arenaAt a c).weight.toNat) hj,
    List.sum_map_erase (fun c => (arenaAt a c).weight.toNat) hi]

theorem queueWeight_congr {a b : Arena} {q : List Nat} (h : ∀ c ∈ q, arenaAt a c = arenaAt b c) :
    queueWeight a q = queueWeight b q :=
  congrArg List.sum (List.map_congr_left fun c hc => by rw [h c hc])

/-- A node made by a merge has its children among the nodes before it. -/
theorem Merging.children_lt {n next : Nat} {leaves a : Arena} {q : List Nat} (h : Merging n leaves next q a)
    (hnext : next ≤ 511) {k : Nat} (hn : n ≤ k) (hk : k < next) :
    (arenaAt a k).zero.toNat < k ∧ (arenaAt a k).one.toNat < k := by
  obtain ⟨z, o, hmerge⟩ := h.merged k hn hk
  rw [hmerge.zero (by omega), hmerge.one (by omega)]
  exact ⟨hmerge.takes.zero.1, hmerge.takes.one.1⟩

/-- The candidates after a merge: those before it but the two taken, and the node made. -/
theorem Merging.candidateAt_next {n next i j : Nat} {leaves a b : Arena} {q : List Nat}
    (h : Merging n leaves next q a) (hnext : next < 511) (hab : AgreeBelow next a b) (hmerge : MergesAt b n next i j)
    (c : Nat) : CandidateAt b n (next + 1) c ↔ c = next ∨ (CandidateAt a n next c ∧ c ≠ i ∧ c ≠ j) := by
  have hz := hmerge.zero hnext
  have ho := hmerge.one hnext
  have hi := hmerge.takes.zero.1
  have hj := hmerge.takes.one.1
  have hn := h.started
  constructor
  · rintro ⟨hlt, hfree⟩
    rcases Nat.lt_succ_iff_lt_or_eq.mp hlt with hc | rfl
    · obtain ⟨hci, hcj⟩ := hfree next hn (by omega)
      refine .inr ⟨⟨hc, fun k hk hkn => hab k hkn ▸ hfree k hk (by omega)⟩, ?_, ?_⟩ <;> omega
    · exact .inl rfl
  · rintro (rfl | ⟨⟨hc, hfree⟩, hci, hcj⟩)
    · refine ⟨by omega, fun k hk hkn => ?_⟩
      rcases Nat.lt_succ_iff_lt_or_eq.mp hkn with hk' | rfl
      · have hchild := h.children_lt hnext.le hk hk'
        rw [← hab k hk']; omega
      · omega
    · refine ⟨by omega, fun k hk hkn => ?_⟩
      rcases Nat.lt_succ_iff_lt_or_eq.mp hkn with hk' | rfl
      · exact hab k hk' ▸ hfree k hk hk'
      · omega

/-- The node made by a merge of two candidates of the queue, in the arena after the merge. -/
theorem Merging.mergesAt {n next i j : Nat} {leaves a : Arena} {q : List Nat} (h : Merging n leaves next q a)
    (hnext : next < 511) (hi : i ∈ q) (hj : j ∈ q.erase i) (htakes : TakesLowest a n next i j) :
    MergesAt (bankSet a next (mergedNode a i j)) n next i j := by
  have hilt := htakes.zero.1
  have hjlt := htakes.one.1
  have hai := arenaAt_bankSet_other a (mergedNode a i j) (i := next) (j := i) (by omega)
  have haj := arenaAt_bankSet_other a (mergedNode a i j) (i := next) (j := j) (by omega)
  have hnode := arenaAt_bankSet_same a (mergedNode a i j) hnext
  refine ⟨htakes.congr fun k hk => (arenaAt_bankSet_other a _ (by omega)).symm, ?_, ?_⟩
  · rw [hnode, mergedNode_congr hai haj]
  · have hsum := queueWeight_erase a hi hj
    have hbound := h.weight
    rw [hnode, hai, haj, mergedNode, BitVec.toNat_add_of_lt (by omega)]

theorem Merging.turn {n next i j : Nat} {leaves a : Arena} {q : List Nat} (h : Merging n leaves next q a)
    (hnext : next < 511) (hi : i ∈ q) (hj : j ∈ q.erase i) (htakes : TakesLowest a n next i j) :
    Merging n leaves (next + 1) ((q.erase i).erase j ++ [next]) (bankSet a next (mergedNode a i j)) := by
  have hagree : AgreeBelow next a (bankSet a next (mergedNode a i j)) := fun k hk =>
    (arenaAt_bankSet_other a _ (by omega)).symm
  have hmade := h.mergesAt hnext hi hj htakes
  have hn := h.started
  have hrest : ∀ c, c ∈ (q.erase i).erase j ↔ CandidateAt a n next c ∧ c ≠ i ∧ c ≠ j := fun c => by
    rw [(h.nodup.erase i).mem_erase_iff, h.nodup.mem_erase_iff, h.candidates]
    tauto
  have hbelow : ∀ c ∈ (q.erase i).erase j, c < next := fun c hc => ((hrest c).mp hc).1.1
  refine ⟨by omega, ?_, fun c => ?_, ?_, fun k hk hkn => ?_, fun k hk => ?_, ?_⟩
  · refine ((h.nodup.erase i).erase j).append (List.nodup_singleton next) ?_
    rw [List.disjoint_singleton]
    exact fun hmem => (hbelow next hmem).false
  · rw [h.candidateAt_next hnext hagree hmade, List.mem_append, List.mem_singleton, hrest, or_comm]
  · have hsize := h.size
    have hlen := List.length_pos_of_mem hj
    rw [List.length_erase_of_mem hi] at hlen
    rw [List.length_append, List.length_erase_of_mem hj, List.length_erase_of_mem hi, List.length_singleton]
    omega
  · rcases Nat.lt_succ_iff_lt_or_eq.mp hkn with hk' | rfl
    · obtain ⟨z, o, hmerge⟩ := h.merged k hk hk'
      exact ⟨z, o, hmerge.congr fun m hm => hagree m (by omega)⟩
    · exact ⟨i, j, hmade⟩
  · rw [arenaAt_bankSet_other a _ (by omega), h.kept k (by omega)]
  · have hsum := queueWeight_erase a hi hj
    have hbound := h.weight
    have hsame := queueWeight_congr fun c hc => hagree c (hbelow c hc)
    have hnode := hmade.weight
    rw [← hagree i htakes.zero.1, ← hagree j htakes.one.1] at hnode
    rw [queueWeight, List.map_append, List.sum_append, ← queueWeight, List.map_singleton, List.sum_singleton, ← hsame,
      hnode]
    omega

theorem mergeLoop_merging (turns : Nat) {n next : Nat} {leaves a : Arena} {q : List Nat} (hn : n ≤ 256)
    (h : Merging n leaves next q a) :
    Merging n leaves (mergeLoop turns q next a).next (mergeLoop turns q next a).queue
      (mergeLoop turns q next a).arena := by
  induction turns generalizing next q a with
  | zero => exact h
  | succ turns ih =>
    match q, h with
    | [], h => exact h
    | [k], h => exact h
    | k :: k' :: ks, h =>
      obtain ⟨i, j, hi, hilow, hj, hjlow, hturn⟩ :=
        mergeLoop_takes_lowest turns (q := k :: k' :: ks) next a (by simp)
      have hsize := h.size
      simp only [List.length_cons] at hsize
      rw [hturn]
      exact ih (h.turn (by omega) hi hj (h.takesLowest hi hilow hj hjlow))

/-! ### The leaves (R135, step 1) -/

theorem arenaAt_writeLeaves {n : Nat} (s : State) (hn : n ≤ 256) (k : Nat) :
    arenaAt (writeLeaves n s) k = if k < n then leafNode (seqSymAt s k) (seqCntAt s k) else arenaAt s.node k := by
  induction n with
  | zero => simp [writeLeaves]
  | succ n ih =>
    have hlast : writeLeaves (n + 1) s =
        bankSet (writeLeaves n s) n (leafNode (seqSymAt s n) (seqCntAt s n)) := by
      simp [writeLeaves, List.range_succ]
    rw [hlast]
    rcases Nat.lt_trichotomy k n with hlt | rfl | hgt
    · rw [arenaAt_bankSet_other _ _ (by omega), ih (by omega), if_pos hlt, if_pos (by omega)]
    · rw [arenaAt_bankSet_same _ _ (by omega), if_pos (by omega)]
    · rw [arenaAt_bankSet_other _ _ (by omega), ih (by omega), if_neg (by omega), if_neg (by omega)]

theorem leafNode_weight (v : Byte) (c : Word) : (leafNode v c).weight.toNat = c.toNat :=
  BitVec.toNat_setWidth_of_le (by decide)

/-- At most 256 leaves, each below 2^64: the sum of the leaves' weights fits 72 bits (R133). -/
theorem queueWeight_writeLeaves {n : Nat} (s : State) (hn : n ≤ 256) :
    queueWeight (writeLeaves n s) (List.range n) < 2 ^ 72 := by
  have hleaf : ∀ w ∈ (List.range n).map fun c => (arenaAt (writeLeaves n s) c).weight.toNat, w ≤ 2 ^ 64 - 1 := by
    intro w hw
    obtain ⟨c, hc, rfl⟩ := List.mem_map.mp hw
    have hcount := (seqCntAt s c).isLt
    rw [arenaAt_writeLeaves s hn, if_pos (List.mem_range.mp hc), leafNode_weight]
    omega
  have hsum := List.sum_le_card_nsmul _ _ hleaf
  rw [List.length_map, List.length_range, smul_eq_mul] at hsum
  rw [queueWeight]
  omega

/-! ### BuildTree -/

/-- BuildTree is a finished merge loop over the leaves: the root is the only candidate left (R135, step 4). -/
theorem buildTree_merging {n : Nat} (s : State) (h2 : 2 ≤ n) (h256 : n ≤ 256) :
    Merging n (writeLeaves n s) (2 * n - 1) [2 * n - 2] (buildTree n s).node := by
  obtain ⟨hqueue, hnext⟩ := mergeLoop_ends n (List.range n) n (writeLeaves n s) (by simpa using h2) (by simp)
  have h := mergeLoop_merging n h256 (merging_start (queueWeight_writeLeaves s h256))
  have hn : n ≠ 1 := by omega
  rw [hqueue, hnext, List.length_range, ← Nat.two_mul] at h
  simpa only [buildTree, hn, if_false] using h

section
variable {n k : Nat} (s : State) (h2 : 2 ≤ n) (h256 : n ≤ 256)
include h2 h256

theorem buildTree_mergesAt (hn : n ≤ k) (hk : k < 2 * n - 1) : ∃ z o, MergesAt (buildTree n s).node n k z o :=
  (buildTree_merging s h2 h256).merged k hn hk

theorem buildTree_leaf (hk : k < n) :
    arenaAt (buildTree n s).node k = leafNode (seqSymAt s k) (seqCntAt s k) := by
  rw [(buildTree_merging s h2 h256).kept k (.inl hk), arenaAt_writeLeaves s h256, if_pos hk]

theorem buildTree_beyond (hk : 2 * n - 1 ≤ k) : arenaAt (buildTree n s).node k = arenaAt s.node k := by
  rw [(buildTree_merging s h2 h256).kept k (.inr hk), arenaAt_writeLeaves s h256, if_neg (by omega)]

end

/-- Settles O25: the order is total, and every node that BuildTree makes takes the two lowest candidates. -/
theorem mergeTakesLowest : Obligations.MergeTakesLowest := by
  refine ⟨fun a k js => ⟨lowestFrom_mem a k js, lowestFrom_lowest a k js, fun i j => keyLt_total a, keyLt_iff a⟩, ?_⟩
  intro s n k h2 h256 hn hk
  obtain ⟨z, o, hmerge⟩ := buildTree_mergesAt s h2 h256 hn hk
  rw [hmerge.zero (by omega), hmerge.one (by omega)]
  exact ⟨hmerge.takes.zero, hmerge.takes.one, hmerge.takes.lt, hmerge.takes.least⟩

/-- Settles O26: the counts are `buildTree_root`'s, the nodes the merge loop's. -/
theorem buildTreeCounts : Obligations.BuildTreeCounts := by
  intro s n h2 h256
  obtain ⟨hcount, hroot⟩ := buildTree_root s h2 h256
  refine ⟨hcount, hroot, fun k hk => buildTree_leaf s h2 h256 hk, fun k hn hk => ?_,
    fun k hk => buildTree_beyond s h2 h256 hk⟩
  obtain ⟨z, o, hmerge⟩ := buildTree_mergesAt s h2 h256 hn hk
  exact hmerge.type

/-- Settles O29: leaves widen their counts, and each merge adds without loss. -/
theorem weightsExact : Obligations.WeightsExact := by
  intro s n h2 h256
  refine ⟨fun k hk => ?_, fun k hn hk => ?_⟩
  · rw [buildTree_leaf s h2 h256 hk, leafNode_weight]
  · obtain ⟨z, o, hmerge⟩ := buildTree_mergesAt s h2 h256 hn hk
    rw [hmerge.zero (by omega), hmerge.one (by omega), hmerge.weight]

/-! ### The shape (R139) -/

theorem parentOf_iff_of_mergesAt {s : State} {n k z o c : Nat} (h : MergesAt s.node n k z o) (hk : k < 511) :
    ParentOf s k c ↔ z = c ∨ o = c := by
  rw [ParentOf, h.zero hk, h.one hk]
  exact and_iff_right h.type

section
variable {n k k' c : Nat} (s : State) (h2 : 2 ≤ n) (h256 : n ≤ 256)
include h2 h256

theorem buildTree_parent_internal (h : ParentOf (buildTree n s) k c) : n ≤ k := by
  by_contra hlt
  have htype := h.1
  rw [buildTree_leaf s h2 h256 (by omega)] at htype
  cases htype

/-- Every node but the root was taken by some merge, or it would be a candidate at the end. -/
theorem buildTree_has_parent (hc : c < 2 * n - 2) : ∃ k, n ≤ k ∧ k < 2 * n - 1 ∧ ParentOf (buildTree n s) k c := by
  have hend := buildTree_merging s h2 h256
  have htaken : ¬ CandidateAt (buildTree n s).node n (2 * n - 1) c := by
    rw [← hend.candidates, List.mem_singleton]; omega
  by_contra hnone
  refine htaken ⟨by omega, fun k hn hk => ?_⟩
  obtain ⟨z, o, hmerge⟩ := hend.merged k hn hk
  rw [← not_or]
  exact fun hchild => hnone ⟨k, hn, hk, hmerge.type, hchild⟩

/-- A node that a merge has taken is no candidate later, so no later merge takes it. -/
theorem buildTree_no_later_parent (hkk : k < k') (hk : k' < 2 * n - 1) (h : ParentOf (buildTree n s) k c) :
    ¬ ParentOf (buildTree n s) k' c := by
  have hn := buildTree_parent_internal s h2 h256 h
  obtain ⟨z, o, hmerge⟩ := buildTree_mergesAt s h2 h256 (k := k') (by omega) hk
  have htaken : ∀ x, CandidateAt (buildTree n s).node n k' x → x ≠ c := by
    rintro x ⟨-, hfree⟩ rfl
    obtain ⟨hzero, hone⟩ := hfree k hn hkk
    exact h.2.elim hzero hone
  rw [parentOf_iff_of_mergesAt hmerge (by omega), not_or]
  exact ⟨htaken z hmerge.takes.zero, htaken o hmerge.takes.one⟩

end

/-- Settles O28: children are candidates, so they come before their parent, and a node is taken exactly once. -/
theorem treeShape : Obligations.TreeShape := by
  intro s n h2 h256
  refine ⟨fun k hn hk => ?_, fun c hc => ?_⟩
  · obtain ⟨z, o, hmerge⟩ := buildTree_mergesAt s h2 h256 hn hk
    rw [Ne, ← BitVec.toNat_inj, hmerge.zero (by omega), hmerge.one (by omega)]
    refine ⟨hmerge.takes.zero.1, hmerge.takes.one.1, ?_⟩
    rintro rfl
    simpa [keyLt_irrefl] using hmerge.takes.lt
  · obtain ⟨k, hn, hk, hparent⟩ := buildTree_has_parent s h2 h256 hc
    refine ⟨k, hn, hk, hparent, fun k' hk' hparent' => ?_⟩
    rcases Nat.lt_trichotomy k' k with hlt | heq | hgt
    · exact absurd hparent (buildTree_no_later_parent s h2 h256 hlt hk hparent')
    · exact heq
    · exact absurd hparent' (buildTree_no_later_parent s h2 h256 hgt hk' hparent)

/-! ### The tree as a function of the sequence (R130) -/

/-- The nodes below determine what a merge takes, so they determine the node it makes. -/
theorem MergesAt.agree {a b : Arena} {n k z o z' o' : Nat} (hab : AgreeBelow k a b) (h : MergesAt a n k z o)
    (h' : MergesAt b n k z' o') : arenaAt a k = arenaAt b k := by
  obtain ⟨rfl, rfl⟩ := (h.takes.congr hab).unique h'.takes
  rw [h.node, h'.node, mergedNode_congr (hab z h.takes.zero.1) (hab o h.takes.one.1)]

theorem buildTree_agree {n : Nat} {s s' : State} (h2 : 2 ≤ n) (h256 : n ≤ 256)
    (hseq : ∀ i, i < n → seqSymAt s i = seqSymAt s' i ∧ seqCntAt s i = seqCntAt s' i) :
    AgreeBelow (2 * n - 1) (buildTree n s).node (buildTree n s').node := by
  intro k hk
  induction k using Nat.strong_induction_on with
  | _ k ih =>
    by_cases hn : k < n
    · obtain ⟨hsym, hcnt⟩ := hseq k hn
      rw [buildTree_leaf s h2 h256 hn, buildTree_leaf s' h2 h256 hn, hsym, hcnt]
    · obtain ⟨z, o, hmerge⟩ := buildTree_mergesAt s h2 h256 (k := k) (by omega) hk
      obtain ⟨z', o', hmerge'⟩ := buildTree_mergesAt s' h2 h256 (k := k) (by omega) hk
      exact hmerge.agree (fun j hj => ih j hj (by omega)) hmerge'

/-- R137: the nodes of a single-symbol tree. -/
theorem buildTree_one_nodes (s : State) :
    arenaAt (buildTree 1 s).node 0 = leafNode (seqSymAt s 0) (seqCntAt s 0) ∧
      arenaAt (buildTree 1 s).node 1 =
        { type := .internal, sym := 0#8, zero := 0#9, one := Config.none, weight := (seqCntAt s 0).setWidth 72 } := by
  have hleaf := arenaAt_writeLeaves s (n := 1) (by decide) 0
  rw [if_pos (by decide)] at hleaf
  have hnode : (buildTree 1 s).node = bankSet (writeLeaves 1 s) 1 (singleRoot (writeLeaves 1 s)) := rfl
  rw [hnode, arenaAt_bankSet_same _ _ (by decide), arenaAt_bankSet_other _ _ (by decide), singleRoot, hleaf]
  exact ⟨rfl, rfl⟩

/-- Settles O30: node by node, each is a leaf of the sequence or merges what the nodes below it determine. -/
theorem treeAgreement : Obligations.TreeAgreement := by
  intro s s' n h1 h256 hseq
  rcases h1.eq_or_lt with rfl | h2
  · refine ⟨rfl, rfl, fun k hk => ?_⟩
    obtain ⟨hsym, hcnt⟩ := hseq 0 (by decide)
    obtain ⟨hleaf, hroot⟩ := buildTree_one_nodes s
    obtain ⟨hleaf', hroot'⟩ := buildTree_one_nodes s'
    match k, hk with
    | 0, _ => rw [hleaf, hleaf', hsym, hcnt]
    | 1, _ => rw [hroot, hroot', hcnt]
  · obtain ⟨hcount, hroot⟩ := buildTree_root s h2 h256
    obtain ⟨hcount', hroot'⟩ := buildTree_root s' h2 h256
    refine ⟨BitVec.eq_of_toNat_eq (hroot.trans hroot'.symm), BitVec.eq_of_toNat_eq (hcount.trans hcount'.symm), ?_⟩
    rw [hcount]
    exact buildTree_agree h2 h256 hseq

end Sys2Proof.Machine
end

section
/-! SUPPORT. Paths in a built tree (43_tree.md R139, R140): every node is reached from ROOT, and no path has more edges
than the tree has internal nodes. -/
namespace Sys2Proof.Machine
variable {n : Nat} {t : State} {k c : NodeId} {b : Bool} {p r : List Bool} {v w : Byte}

/-! ### Go (R140) -/

theorem go_not_internal (b : Bool) (h : (nodeAt t k).type ≠ .internal) : go t k b = none := if_pos h

theorem go_internal (b : Bool) (h : (nodeAt t k).type = .internal) :
    go t k b = if (if b then (nodeAt t k).one else (nodeAt t k).zero) = Config.none then none
      else some (if b then (nodeAt t k).one else (nodeAt t k).zero) := if_neg (not_not.mpr h)

/-- Settles O31, by the type of the node and, at an INTERNAL one, by whether the child exists. -/
theorem goStep : Obligations.GoStep := fun _ _ b =>
  ⟨go_not_internal b, fun htype hnone => (go_internal b htype).trans (if_pos hnone),
    fun htype hsome => (go_internal b htype).trans (if_neg hsome)⟩

/-! ### Paths -/

theorem descend_cons (h : go t k b = some c) (p : List Bool) : descend t k (b :: p) = descend t c p := by
  simp only [descend, h]

theorem descend_cons_none (h : go t k b = none) (p : List Bool) : descend t k (b :: p) = none := by
  simp only [descend, h]

theorem descend_cons_eq_some {e : NodeId} (h : descend t k (b :: p) = some e) :
    ∃ c, go t k b = some c ∧ descend t c p = some e := by
  cases hgo : go t k b with
  | none => simp [descend_cons_none hgo] at h
  | some c => exact ⟨c, rfl, descend_cons hgo p ▸ h⟩

theorem descend_append (h : descend t k p = some c) (r : List Bool) : descend t k (p ++ r) = descend t c r := by
  induction p generalizing k with
  | nil => cases h; rfl
  | cons b p ih =>
    obtain ⟨e, hgo, he⟩ := descend_cons_eq_some h
    rw [List.cons_append, descend_cons hgo, ih he]

/-- The path leads from node `k` to a LEAF that holds `v`; `LeadsTo` is this from ROOT. -/
def LeadsFrom (t : State) (k : NodeId) (p : List Bool) (v : Byte) : Prop :=
  ∃ c, descend t k p = some c ∧ (nodeAt t c).type = .leaf ∧ (nodeAt t c).sym = v

theorem leadsFrom_root : LeadsFrom t t.root p v ↔ LeadsTo t p v := Iff.rfl

theorem leadsFrom_leaf (h : (nodeAt t k).type = .leaf) : LeadsFrom t k p v ↔ p = [] ∧ (nodeAt t k).sym = v := by
  have hgo : ∀ b, go t k b = none := fun b => go_not_internal b (by simp [h])
  cases p with
  | nil => simp [LeadsFrom, descend, h]
  | cons b p => simp [LeadsFrom, descend_cons_none (hgo b)]

theorem leadsFrom_cons (h : go t k b = some c) : LeadsFrom t k (b :: p) v ↔ LeadsFrom t c p v := by
  rw [LeadsFrom, descend_cons h]; rfl

theorem not_leadsFrom_cons (h : go t k b = none) : ¬ LeadsFrom t k (b :: p) v := by
  simp [LeadsFrom, descend_cons_none h]

theorem not_leadsFrom_nil (h : (nodeAt t k).type = .internal) : ¬ LeadsFrom t k [] v := by
  simp [LeadsFrom, descend, h]

/-- No leaf is an ancestor of another, so a path to a leaf goes no further (R139). -/
theorem LeadsFrom.eq_of_prefix {q : List Bool} (hp : LeadsFrom t k p v) (hq : LeadsFrom t k q w) (h : p <+: q) :
    v = w := by
  obtain ⟨r, rfl⟩ := h
  obtain ⟨c, hc, htype, rfl⟩ := hp
  rw [LeadsFrom, descend_append hc] at hq
  exact ((leadsFrom_leaf htype).mp hq).2

/-! ### A built tree -/

/-- The nodes and ROOT of a tree over `n` leaves, the single-symbol tree included. -/
structure TreeOver (n : Nat) (t : State) : Prop where
  leaf : ∀ k : NodeId, k.toNat < n → (nodeAt t k).type = .leaf
  inner : ∀ k : NodeId, n ≤ k.toNat → k.toNat ≤ t.root.toNat →
    (nodeAt t k).type = .internal ∧ (nodeAt t k).zero.toNat < k.toNat ∧
      ((nodeAt t k).one = Config.none ∨ (nodeAt t k).one.toNat < k.toNat)
  parent : ∀ c : NodeId, c.toNat < t.root.toNat → ∃ k : NodeId, k.toNat ≤ t.root.toNat ∧ ∃ b, go t k b = some c
  root_ge : n ≤ t.root.toNat
  root_lt : t.root.toNat < n + 255
  root_lt_none : t.root.toNat < 511

theorem ne_none_of_lt (h : c.toNat < 511) : c ≠ Config.none := by
  rintro rfl
  simp [Config.none] at h

namespace TreeOver
variable (h : TreeOver n t)
include h

/-- Below ROOT only the nodes from `n` on have children, the zero-child always. -/
theorem go_zero (hn : n ≤ k.toNat) (hk : k.toNat ≤ t.root.toNat) : go t k false = some (nodeAt t k).zero := by
  obtain ⟨htype, hzero, -⟩ := h.inner k hn hk
  have hroot := h.root_lt_none
  exact (go_internal false htype).trans (if_neg (show (nodeAt t k).zero ≠ Config.none from ne_none_of_lt (by omega)))

/-- The one-child is missing only at the root of the single-symbol tree. -/
theorem go_one (hn : n ≤ k.toNat) (hk : k.toNat ≤ t.root.toNat) :
    go t k true = if (nodeAt t k).one = Config.none then none else some (nodeAt t k).one :=
  go_internal true (h.inner k hn hk).1

theorem go_lt (hk : k.toNat ≤ t.root.toNat) (hgo : go t k b = some c) : n ≤ k.toNat ∧ c.toNat < k.toNat := by
  have hn : n ≤ k.toNat := by
    by_contra hlt
    have htype : (nodeAt t k).type ≠ .internal := by simp [h.leaf k (by omega)]
    simp [go_not_internal b htype] at hgo
  obtain ⟨-, hzero, hone⟩ := h.inner k hn hk
  refine ⟨hn, ?_⟩
  cases b with
  | false =>
    rw [h.go_zero hn hk] at hgo
    cases hgo
    exact hzero
  | true =>
    rw [h.go_one hn hk] at hgo
    split at hgo
    · cases hgo
    · next hsome =>
      cases hgo
      exact hone.resolve_left hsome

/-- A path visits an internal node per edge, and their ids fall (R146). -/
theorem descend_length (hk : k.toNat ≤ t.root.toNat) (hp : descend t k p = some c) :
    c.toNat ≤ k.toNat ∧ p.length ≤ k.toNat + 1 - n := by
  induction p generalizing k with
  | nil =>
    cases hp
    exact ⟨le_rfl, Nat.zero_le _⟩
  | cons b p ih =>
    obtain ⟨e, hgo, he⟩ := descend_cons_eq_some hp
    obtain ⟨hn, hlt⟩ := h.go_lt hk hgo
    obtain ⟨hle, hlen⟩ := ih (by omega) he
    rw [List.length_cons]
    omega

/-- R145 and R146: the bounds on a codeword's length. -/
theorem leadsTo_length (hp : LeadsTo t p v) : 1 ≤ p.length ∧ p.length ≤ t.root.toNat + 1 - n := by
  obtain ⟨c, hc, htype, -⟩ := hp
  refine ⟨?_, (h.descend_length le_rfl hc).2⟩
  cases p with
  | nil =>
    cases hc
    simp [(h.inner t.root h.root_ge le_rfl).1] at htype
  | cons b p => simp

theorem reached (c : NodeId) (hc : c.toNat ≤ t.root.toNat) : ∃ p, descend t t.root p = some c := by
  induction hd : t.root.toNat - c.toNat using Nat.strong_induction_on generalizing c with
  | _ d ih =>
    rcases hc.eq_or_lt with heq | hlt
    · exact ⟨[], congrArg some (BitVec.eq_of_toNat_eq heq.symm)⟩
    · obtain ⟨k, hk, b, hgo⟩ := h.parent c hlt
      have hbelow := (h.go_lt hk hgo).2
      obtain ⟨p, hp⟩ := ih (t.root.toNat - k.toNat) (by omega) k hk rfl
      exact ⟨p ++ [b], by rw [descend_append hp, descend_cons hgo]; rfl⟩

/-- The values that some path leads to are those of the leaves. -/
theorem exists_leadsTo : (∃ p, LeadsTo t p v) ↔ ∃ k : NodeId, k.toNat < n ∧ (nodeAt t k).sym = v := by
  constructor
  · rintro ⟨p, c, hc, htype, hsym⟩
    refine ⟨c, ?_, hsym⟩
    by_contra hn
    have hinner := h.inner c (by omega) (h.descend_length le_rfl hc).1
    simp [hinner.1] at htype
  · rintro ⟨k, hk, hsym⟩
    have hroot := h.root_ge
    obtain ⟨p, hp⟩ := h.reached k (by omega)
    exact ⟨p, k, hp, h.leaf k hk, hsym⟩

end TreeOver

/-! ### BuildTree makes one -/

theorem buildTree_one_treeOver (s : State) : TreeOver 1 (buildTree 1 s) := by
  obtain ⟨hleaf, hroot⟩ := buildTree_one_nodes s
  have hkr : (buildTree 1 s).root.toNat = 1 := rfl
  refine ⟨fun k hk => ?_, fun k hn hk => ?_, fun c hc => ?_, hkr.ge, by omega, by omega⟩
  · obtain rfl : k = 0#9 := BitVec.eq_of_toNat_eq (Nat.lt_one_iff.mp hk)
    exact congrArg Node.type hleaf
  · obtain rfl : k = 1#9 := BitVec.eq_of_toNat_eq (le_antisymm (hkr ▸ hk) hn)
    have hnode : nodeAt (buildTree 1 s) 1#9 = _ := hroot
    rw [hnode]
    exact ⟨rfl, Nat.zero_lt_one, .inl rfl⟩
  · obtain rfl : c = 0#9 := BitVec.eq_of_toNat_eq (Nat.lt_one_iff.mp (hkr ▸ hc))
    have hnode : nodeAt (buildTree 1 s) 1#9 = _ := hroot
    refine ⟨1#9, hkr.ge, false, ?_⟩
    rw [go_internal false (by rw [hnode]), hnode]
    exact if_neg (show 0#9 ≠ Config.none by decide)

/-- The shape of R139, read off O26 and O28. -/
theorem buildTree_treeOver_of_two_le (s : State) (h2 : 2 ≤ n) (h256 : n ≤ 256) : TreeOver n (buildTree n s) := by
  obtain ⟨-, hroot, hleaf, hinner, -⟩ := buildTreeCounts s n h2 h256
  obtain ⟨hchildren, hparent⟩ := treeShape s n h2 h256
  refine ⟨fun k hk => congrArg Node.type (hleaf k.toNat hk), fun k hn hk => ?_, fun c hc => ?_, by omega, by omega,
    by omega⟩
  · obtain ⟨hzero, hone, -⟩ := hchildren k.toNat hn (by omega)
    exact ⟨hinner k.toNat hn (by omega), hzero, .inr hone⟩
  · obtain ⟨k, hn, hk, ⟨htype, hchild⟩, -⟩ := hparent c.toNat (by omega)
    have hid : (BitVec.ofNat 9 k).toNat = k := by rw [BitVec.toNat_ofNat]; omega
    have hnode : nodeAt (buildTree n s) (BitVec.ofNat 9 k) = arenaAt (buildTree n s).node k := by
      rw [nodeAt, hid]; rfl
    have hsome : c ≠ Config.none := ne_none_of_lt (by omega)
    rw [BitVec.toNat_inj, BitVec.toNat_inj, ← hnode] at hchild
    refine ⟨BitVec.ofNat 9 k, by omega, ?_⟩
    rcases hchild with rfl | rfl
    · exact ⟨false, (go_internal false (hnode ▸ htype)).trans (if_neg hsome)⟩
    · exact ⟨true, (go_internal true (hnode ▸ htype)).trans (if_neg hsome)⟩

theorem buildTree_treeOver (s : State) (h1 : 1 ≤ n) (h256 : n ≤ 256) : TreeOver n (buildTree n s) := by
  rcases h1.eq_or_lt with rfl | h2
  · exact buildTree_one_treeOver s
  · exact buildTree_treeOver_of_two_le s h2 h256

/-- Leaf `k` holds the byte value of entry `k` (R135, step 1). -/
theorem buildTree_sym (s : State) (h1 : 1 ≤ n) (h256 : n ≤ 256) (hk : k.toNat < n) :
    (nodeAt (buildTree n s) k).sym = seqSymAt s k.toNat := by
  rcases h1.eq_or_lt with rfl | h2
  · obtain rfl : k = 0#9 := BitVec.eq_of_toNat_eq (Nat.lt_one_iff.mp hk)
    exact congrArg Node.sym (buildTree_one_nodes s).1
  · exact congrArg Node.sym (buildTree_leaf s h2 h256 hk)

end Sys2Proof.Machine
end

section
/-! SUPPORT. The code-table generator (43_tree.md R142 to R148): what the walk records for each byte value, and what
ENC_BUILD leaves in the table. -/
namespace Sys2Proof.Machine
variable {n : Nat} {s t : State} {v w : Byte} {p q : List Bool}

/-! ### Codewords as bits -/

theorem testBit_pathBits (p : List Bool) (i : Nat) : (pathBits p).testBit i = p.getD i false := by
  induction p generalizing i with
  | nil => simp [pathBits]
  | cons b p ih =>
    cases i with
    | zero => cases b <;> simp [pathBits]
    | succ i =>
      have hhalf : pathBits (b :: p) / 2 = pathBits p := by
        have hb := b.toNat_lt
        rw [pathBits]; omega
      rw [Nat.testBit_succ, hhalf, ih, List.getD_cons_succ]

/-- CODE_LEN and CODE_BITS of a byte value in a table under construction. -/
def codeAt (T : CodeTable) (v : Byte) : Byte × Codeword := (bankAt T.len v.toNat 0#8, bankAt T.bits v.toNat 0#256)

/-- What the walk records for a path (R143). -/
def codeOf (p : List Bool) : Byte × Codeword := (BitVec.ofNat 8 p.length, BitVec.ofNat 256 (pathBits p))

theorem codeAt_setCode (T : CodeTable) (v w : Byte) (p : List Bool) :
    codeAt (setCode v p T) w = if v = w then codeOf p else codeAt T w := by
  simp only [codeAt, setCode, codeOf, bankAt_bankSet, BitVec.toNat_inj, and_iff_left v.isLt]
  split <;> rfl

theorem codeAt_emptyTable (v : Byte) : codeAt emptyTable v = (0#8, 0#256) := by
  simp [codeAt, emptyTable]

theorem lookupCode_of_codeOf (h : (codeLenAt s v, codeBitsAt s v) = codeOf p) (h1 : 1 ≤ p.length)
    (h255 : p.length ≤ 255) : lookupCode s v = some p := by
  obtain ⟨hlen, hbits⟩ := Prod.mk.inj h
  have hsize : (codeLenAt s v).toNat = p.length := by rw [hlen, BitVec.toNat_ofNat]; omega
  have hsome : codeLenAt s v ≠ 0#8 := by
    rw [Ne, ← BitVec.toNat_inj, hsize]
    exact Nat.ne_of_gt h1
  rw [lookupCode, if_neg hsome, hsize, hbits]
  refine congrArg some (List.ext_getElem (by simp) fun i hi hi' => ?_)
  rw [List.getElem_map, List.getElem_range, BitVec.getLsbD_ofNat, testBit_pathBits, List.getD_eq_getElem _ _ hi',
    decide_eq_true (show i < 256 by omega), Bool.true_and]

theorem lookupCode_ne_none (s : State) (v : Byte) : lookupCode s v ≠ none ↔ codeLenAt s v ≠ 0#8 := by
  unfold lookupCode
  split <;> simp_all

/-! ### The walk (R143) -/

/-- From `T` to `T'`, the walk from node `k` with the path `p` so far has recorded a path to a leaf below `k` that holds
`v`, or there is none and `v` is as it was. -/
def Records (s : State) (k : NodeId) (p : List Bool) (v : Byte) (T T' : CodeTable) : Prop :=
  (∃ q, LeadsFrom s k q v ∧ codeAt T' v = codeOf (p ++ q)) ∨ ((∀ q, ¬ LeadsFrom s k q v) ∧ codeAt T' v = codeAt T v)

theorem records_leaf {k : NodeId} (h : (nodeAt s k).type = .leaf) (p : List Bool) (v : Byte) (T : CodeTable) :
    Records s k p v T (setCode (nodeAt s k).sym p T) := by
  rw [Records, codeAt_setCode]
  simp only [leadsFrom_leaf h]
  by_cases hv : (nodeAt s k).sym = v
  · exact .inl ⟨[], ⟨rfl, hv⟩, by rw [if_pos hv, List.append_nil]⟩
  · exact .inr ⟨fun q hq => hv hq.2, if_neg hv⟩

/-- The walk of one child adds to what is recorded below its parent. -/
theorem Records.child {k c : NodeId} {b : Bool} {T T' : CodeTable} (hgo : go s k b = some c)
    (h : Records s c (p ++ [b]) v T T') :
    (∃ q, LeadsFrom s k q v ∧ codeAt T' v = codeOf (p ++ q)) ∨
      ((∀ q, ¬ LeadsFrom s k (b :: q) v) ∧ codeAt T' v = codeAt T v) := by
  rcases h with ⟨q, hq, hcode⟩ | ⟨hnone, hsame⟩
  · exact .inl ⟨b :: q, (leadsFrom_cons hgo).mpr hq, by rw [hcode, List.append_assoc]; rfl⟩
  · exact .inr ⟨fun q hq => hnone q ((leadsFrom_cons hgo).mp hq), hsame⟩

theorem not_leadsFrom_internal {k : NodeId} (htype : (nodeAt s k).type = .internal)
    (hzero : ∀ q, ¬ LeadsFrom s k (false :: q) v) (hone : ∀ q, ¬ LeadsFrom s k (true :: q) v) :
    ∀ q, ¬ LeadsFrom s k q v
  | [] => not_leadsFrom_nil htype
  | false :: q => hzero q
  | true :: q => hone q

theorem records_single {k c : NodeId} {T T' : CodeTable} (htype : (nodeAt s k).type = .internal)
    (hzero : go s k false = some c) (hone : go s k true = none) (h : Records s c (p ++ [false]) v T T') :
    Records s k p v T T' :=
  (h.child hzero).imp_right fun ⟨hnone, hsame⟩ =>
    ⟨not_leadsFrom_internal htype hnone fun _ => not_leadsFrom_cons hone, hsame⟩

theorem records_both {k c c' : NodeId} {T T₀ T' : CodeTable} (htype : (nodeAt s k).type = .internal)
    (hzero : go s k false = some c) (hone : go s k true = some c') (h₀ : Records s c (p ++ [false]) v T T₀)
    (h₁ : Records s c' (p ++ [true]) v T₀ T') : Records s k p v T T' := by
  rcases h₁.child hone with hsome | ⟨hnone₁, hsame₁⟩
  · exact .inl hsome
  · rcases h₀.child hzero with ⟨q, hq, hcode⟩ | ⟨hnone₀, hsame₀⟩
    · exact .inl ⟨q, hq, hsame₁.trans hcode⟩
    · exact .inr ⟨not_leadsFrom_internal htype hnone₀ hnone₁, hsame₁.trans hsame₀⟩

theorem walk_leaf {k : NodeId} (h : (nodeAt s k).type = .leaf) (depth : Nat) (p : List Bool) (T : CodeTable) :
    walk s.node depth k p T = setCode (nodeAt s k).sym p T := by
  cases depth <;> exact if_pos h

theorem walk_internal {k : NodeId} (h : (nodeAt s k).type = .internal) (depth : Nat) (p : List Bool)
    (T : CodeTable) : walk s.node (depth + 1) k p T =
      if (nodeAt s k).one = Config.none then walk s.node depth (nodeAt s k).zero (p ++ [false]) T
      else walk s.node depth (nodeAt s k).one (p ++ [true]) (walk s.node depth (nodeAt s k).zero (p ++ [false]) T) :=
  if_neg (show (nodeAt s k).type ≠ .leaf by simp [h])

/-- Walk records a path for every value below `k`, if it may go as deep as the tree is. -/
theorem TreeOver.walk_records (h : TreeOver n s) (depth : Nat) {k : NodeId} (hk : k.toNat ≤ s.root.toNat)
    (hdepth : k.toNat + 1 - n ≤ depth) (p : List Bool) (v : Byte) (T : CodeTable) :
    Records s k p v T (walk s.node depth k p T) := by
  induction depth generalizing k p T with
  | zero =>
    have hleaf := h.leaf k (by omega)
    exact walk_leaf hleaf 0 p T ▸ records_leaf hleaf p v T
  | succ depth ih =>
    by_cases hn : k.toNat < n
    · have hleaf := h.leaf k hn
      exact walk_leaf hleaf _ p T ▸ records_leaf hleaf p v T
    · obtain ⟨htype, hzero, hone⟩ := h.inner k (by omega) hk
      have hgo₀ := h.go_zero (by omega) hk
      have hgo₁ := h.go_one (by omega) hk
      have hwalk₀ := ih (k := (nodeAt s k).zero) (by omega) (by omega) (p ++ [false]) T
      rw [walk_internal htype]
      split
      · next hnone => exact records_single htype hgo₀ (hgo₁.trans (if_pos hnone)) hwalk₀
      · next hsome =>
        have hlt := hone.resolve_left hsome
        exact records_both htype hgo₀ (hgo₁.trans (if_neg hsome)) hwalk₀
          (ih (by omega) (by omega) (p ++ [true]) _)

/-! ### BuildTable -/

/-- The code table is no part of the tree. -/
theorem descend_buildTable (t : State) (k : NodeId) (p : List Bool) : descend (buildTable t) k p = descend t k p := by
  induction p generalizing k with
  | nil => rfl
  | cons b p ih =>
    have hgo : go (buildTable t) k b = go t k b := rfl
    simp only [descend, hgo, ih]

@[simp] theorem leadsTo_buildTable : LeadsTo (buildTable t) p v ↔ LeadsTo t p v := by
  rw [LeadsTo, descend_buildTable]; rfl

/-- BuildTable gives a value the path to one of the leaves that hold it, or nothing if there is none. -/
theorem TreeOver.lookupCode_buildTable (h : TreeOver n t) (v : Byte) :
    (∃ p, LeadsTo t p v ∧ lookupCode (buildTable t) v = some p) ∨
      ((∀ p, ¬ LeadsTo t p v) ∧ lookupCode (buildTable t) v = none) := by
  have hroot := h.root_lt
  have hwalk := h.walk_records 511 le_rfl (by omega) [] v emptyTable
  have hcode : codeAt (walk t.node 511 t.root [] emptyTable) v =
      (codeLenAt (buildTable t) v, codeBitsAt (buildTable t) v) := rfl
  rw [Records, hcode, codeAt_emptyTable] at hwalk
  rcases hwalk with ⟨p, hp, hcode⟩ | ⟨hnone, hzero⟩
  · obtain ⟨h1, hlen⟩ := h.leadsTo_length hp
    exact .inl ⟨p, hp, lookupCode_of_codeOf hcode h1 (by omega)⟩
  · exact .inr ⟨hnone, if_pos (Prod.mk.inj hzero).1⟩

theorem TreeOver.lookupCode_leadsTo (h : TreeOver n t) (hp : lookupCode (buildTable t) v = some p) :
    LeadsTo t p v := by
  rcases h.lookupCode_buildTable v with ⟨q, hq, hsome⟩ | ⟨-, hnone⟩
  · obtain rfl : q = p := by simpa [hsome] using hp
    exact hq
  · simp [hnone] at hp

theorem TreeOver.lookupCode_ne_none (h : TreeOver n t) (v : Byte) :
    lookupCode (buildTable t) v ≠ none ↔ ∃ p, LeadsTo t p v := by
  rcases h.lookupCode_buildTable v with ⟨q, hq, hsome⟩ | ⟨hnot, hnone⟩
  · simpa [hsome] using ⟨q, hq⟩
  · simpa [hnone] using hnot

/-- Exactly the values of the entries have a codeword. -/
theorem buildTable_lookup_ne_none (s : State) (h1 : 1 ≤ n) (h256 : n ≤ 256) (v : Byte) :
    lookupCode (buildTable (buildTree n s)) v ≠ none ↔ ∃ i, i < n ∧ seqSymAt s i = v := by
  have htree := buildTree_treeOver s h1 h256
  rw [htree.lookupCode_ne_none, htree.exists_leadsTo]
  constructor
  · rintro ⟨k, hk, hsym⟩
    exact ⟨k.toNat, hk, by rw [← buildTree_sym s h1 h256 hk, hsym]⟩
  · rintro ⟨i, hi, hsym⟩
    have hid : (BitVec.ofNat 9 i).toNat = i := by rw [BitVec.toNat_ofNat]; omega
    refine ⟨BitVec.ofNat 9 i, by omega, ?_⟩
    rw [buildTree_sym s h1 h256 (by omega), hid, hsym]

/-- Settles O32: the table holds what the walk recorded, and the walk covers every leaf. -/
theorem tableIsPaths : Obligations.TableIsPaths := by
  intro s n h1 h256
  have htree := buildTree_treeOver s h1 h256
  refine ⟨fun v p hp => ?_, buildTable_lookup_ne_none s h1 h256⟩
  have hpath := htree.lookupCode_leadsTo hp
  obtain ⟨hlow, hhigh⟩ := htree.leadsTo_length hpath
  have hroot := htree.root_lt
  exact ⟨leadsTo_buildTable.mpr hpath, hlow, by omega⟩

/-- Settles O33: codewords are paths to leaves, and no leaf lies below another. -/
theorem prefixFree : Obligations.PrefixFree := by
  intro s n v w p q h1 h256 hp hq hne hprefix
  have htree := buildTree_treeOver s h1 h256
  have hv := leadsFrom_root.mpr (htree.lookupCode_leadsTo hp)
  have hw := leadsFrom_root.mpr (htree.lookupCode_leadsTo hq)
  exact hne (hv.eq_of_prefix hw hprefix)

/-! ### The single-symbol tree (R137) -/

theorem single_lookup (s : State) : lookupCode (buildTable (buildTree 1 s)) (seqSymAt s 0) = some [false] := by
  have htree := buildTree_treeOver (n := 1) s le_rfl (by decide)
  have hone : go (buildTree 1 s) (buildTree 1 s).root true = none := by
    rw [htree.go_one htree.root_ge le_rfl]
    exact if_pos (congrArg Node.one (buildTree_one_nodes s).2)
  have hsome := (buildTable_lookup_ne_none (n := 1) s le_rfl (by decide) (seqSymAt s 0)).mpr ⟨0, by decide, rfl⟩
  obtain ⟨p, hp⟩ := Option.ne_none_iff_exists'.mp hsome
  have hpath := htree.lookupCode_leadsTo hp
  obtain ⟨hlow, hhigh⟩ := htree.leadsTo_length hpath
  rw [(buildTree_one_root s).2] at hhigh
  obtain ⟨b, rfl⟩ := List.length_eq_one_iff.mp (hhigh.antisymm hlow)
  cases b with
  | false => exact hp
  | true => exact absurd hpath (not_leadsFrom_cons hone)

/-- Settles O27: the two nodes as written, and the one path there is. -/
theorem singleSymbolTree : Obligations.SingleSymbolTree := fun s =>
  have ⟨hcount, hroot⟩ := buildTree_one_root s
  have ⟨hleaf, hinner⟩ := buildTree_one_nodes s
  ⟨hroot, hcount, hleaf, hinner, single_lookup s⟩

/-! ### The table after ENC_BUILD (R147) -/

/-- With at least one entry ENC_BUILD leaves the built table, the payload's length fitting or not. -/
theorem encBuildProgram_table (s : State) (h : 1 ≤ (encBuildProgram s).seqN.toNat) :
    1 ≤ distinctValues s ∧ (encBuildProgram s).codeLen =
      (buildTable (buildTree (distinctValues s) (setStatOrig (freqSequence s)))).codeLen := by
  have hcount : (setStatOrig (freqSequence s)).seqN.toNat = distinctValues s := freqSequence_seqN s
  simp only [encBuildProgram] at h ⊢
  generalize setStatOrig (freqSequence s) = t at h hcount ⊢
  by_cases hzero : t.seqN = 0#9
  · simp [hzero] at h
  · have hpos : 1 ≤ t.seqN.toNat := Nat.pos_of_ne_zero fun h0 => hzero (BitVec.eq_of_toNat_eq h0)
    rw [if_neg hzero, ← hcount]
    refine ⟨hpos, ?_⟩
    split <;> rfl

/-- The values of the sequence are those that occur (R128). -/
theorem exists_seqSym_iff (s : State) (v : Byte) :
    (∃ i, i < distinctValues s ∧ seqSymAt (freqSequence s) i = v) ↔ freqAt s v ≠ 0#64 := by
  obtain ⟨-, hentry, -, hlisted, -⟩ := freqSequenceLists s
  refine ⟨?_, hlisted v⟩
  rintro ⟨i, hi, rfl⟩
  obtain ⟨hcount, hoccurs⟩ := hentry i hi
  exact hcount ▸ hoccurs

theorem encBuildProgram_complete (s : State) (h : 1 ≤ (encBuildProgram s).seqN.toNat) (v : Byte) :
    codeLenAt (encBuildProgram s) v ≠ 0#8 ↔ freqAt s v ≠ 0#64 := by
  obtain ⟨h1, htable⟩ := encBuildProgram_table s h
  have h256 : distinctValues s ≤ 256 := freqEntries_length s ▸ freqEntries_length_le s
  rw [← exists_seqSym_iff, codeLenAt, htable]
  exact (lookupCode_ne_none _ v).symm.trans (buildTable_lookup_ne_none (setStatOrig (freqSequence s)) h1 h256 v)

/-- Settles O36: ENC_BUILD leaves the counters, and the table of the sequence made from them. -/
theorem tableComplete : Obligations.TableComplete := by
  intro s t hready hexec hseq v
  rw [exec_ready hready] at hexec
  cases hexec
  have hfreq := freqAt_of_counters (encBuildProgram_counters (accept (opcodeOf .encBuild) s)) v
  exact (encBuildProgram_complete _ hseq v).trans (by rw [← hfreq]; rfl)

end Sys2Proof.Machine
end

section
/-! SUPPORT. What ENC_BUILD and DEC_BUILD write (44_encoder.md R151 to R154, 45_decoder.md R179): the sequence, the tree
and the table each write their own registers and pass every other by. -/
namespace Sys2Proof.Machine
variable {n : Nat} {s t : State}

/-! ### The registers the builds write -/

/-- `s` with SEQ_N and the sequence as in `t` (10_state.md R27). -/
def seqWrites (t s : State) : State := { s with seqN := t.seqN, seqSym := t.seqSym, seqCnt := t.seqCnt }

/-- `s` with the tree as in `t` (R28, R29). -/
def treeWrites (t s : State) : State := { s with node := t.node, root := t.root, nodeCount := t.nodeCount }

/-- `s` with the sequence, the tree and the code table as in `t` (R27 to R30). -/
def tableWrites (t s : State) : State :=
  { treeWrites t (seqWrites t s) with codeLen := t.codeLen, codeBits := t.codeBits }

theorem writeSeq_seqWrites (es : List (Byte × Word)) (n : Nat) (s : State) :
    writeSeq es n s = seqWrites (writeSeq es n s) s := by
  induction es generalizing n s with
  | nil => rfl
  | cons e es ih => exact ih (n + 1) (setSeqEntry n e.1 e.2 s)

theorem buildTree_treeWrites (n : Nat) (s : State) : buildTree n s = treeWrites (buildTree n s) s := by
  unfold buildTree
  split <;> rfl

/-- What ENC_BUILD makes of the frequency table: the sequence, its tree and its code table (R151). Irreducible, for its
fields are long computations, which no proof is to run. -/
@[irreducible] def encTables (s : State) : State := buildTable (buildTree (distinctValues s) (freqSequence s))

theorem encTables_tableWrites (s : State) : encTables s = tableWrites (encTables s) s := by
  generalize hseq : freqSequence s = q
  have hq : q = seqWrites q s := by
    rw [← hseq]
    exact writeSeq_seqWrites _ 0 s
  generalize htree : buildTree (distinctValues s) q = r
  have hr : r = treeWrites r q := by
    rw [← htree]
    exact buildTree_treeWrites _ q
  have hmade : encTables s = buildTable r := by rw [encTables, hseq, htree]
  calc encTables s = buildTable r := hmade
    _ = buildTable (treeWrites r (seqWrites q s)) := by rw [← hq, ← hr]
    _ = tableWrites (buildTable (treeWrites r (seqWrites q s))) s := rfl
    _ = tableWrites (encTables s) s := by rw [← hq, ← hr, ← hmade]

theorem encTables_seqN (s : State) : (encTables s).seqN.toNat = distinctValues s := by
  rw [encTables, buildTable_seqN, buildTree_seqN, freqSequence_seqN]

theorem encTables_empty (s : State) : (encTables s).empty = s.empty := by
  rw [encTables_tableWrites]
  rfl

theorem encTables_total (s : State) : (encTables s).total = s.total := by
  rw [encTables_tableWrites]
  rfl

theorem encTables_seq (s : State) :
    (encTables s).seqSym = (freqSequence s).seqSym ∧ (encTables s).seqCnt = (freqSequence s).seqCnt := by
  rw [encTables, buildTree_treeWrites]
  exact ⟨rfl, rfl⟩

theorem encTables_tree (s : State) :
    (encTables s).node = (buildTree (distinctValues s) (freqSequence s)).node ∧
      (encTables s).root = (buildTree (distinctValues s) (freqSequence s)).root ∧
      (encTables s).nodeCount = (buildTree (distinctValues s) (freqSequence s)).nodeCount := by
  rw [encTables]
  exact ⟨rfl, rfl, rfl⟩

theorem freqAt_encTables (s : State) (v : Byte) : freqAt (encTables s) v = freqAt s v := by
  rw [encTables_tableWrites]
  rfl

/-! ### The builds of an accepted command -/

theorem writeSeq_accept (op : Byte) (es : List (Byte × Word)) (n : Nat) (s : State) :
    writeSeq es n (accept op s) = accept op (writeSeq es n s) := by
  induction es generalizing n s with
  | nil => rfl
  | cons e es ih => exact ih (n + 1) (setSeqEntry n e.1 e.2 s)

theorem freqSequence_accept (op : Byte) (s : State) : freqSequence (accept op s) = accept op (freqSequence s) :=
  writeSeq_accept op (freqEntries s) 0 s

theorem buildTree_accept (op : Byte) (n : Nat) (s : State) :
    buildTree n (accept op s) = accept op (buildTree n s) := by
  unfold buildTree
  split <;> rfl

theorem buildTree_setStatOrig (n : Nat) (s : State) :
    buildTree n (setStatOrig s) = setStatOrig (buildTree n s) := by
  unfold buildTree
  split <;> rfl

/-- Acceptance and STAT_ORIG pass the builds by: the tables are those of the state before the command. -/
theorem encTables_accept (op : Byte) (s : State) :
    buildTable (buildTree (distinctValues s) (setStatOrig (freqSequence (accept op s)))) =
      setStatOrig (accept op (encTables s)) := by
  rw [freqSequence_accept, buildTree_setStatOrig, buildTree_accept, encTables]
  rfl

/-! ### ENC_BUILD (R151) -/

theorem distinctValues_eq_zero (s : State) : distinctValues s = 0 ↔ ∀ v, freqAt s v = 0#64 := by
  rw [distinctValues, List.length_eq_zero_iff, List.filter_eq_nil_iff]
  simp [mem_byteValues]

/-- With no count the payload has no bit, whatever the table. -/
theorem codedLength_eq_zero (h : ∀ v, freqAt s v = 0#64) : codedLength s = 0 := by
  simp [codedLength, h]

/-- The payload's length is read from the counters and the codeword lengths (R152). -/
theorem codedLength_congr (hfreq : t.freq = s.freq) (hlen : t.codeLen = s.codeLen) : codedLength t = codedLength s := by
  simp only [codedLength, codeLenAt, freqAt, hfreq, hlen]

theorem encBuild_seqN (op : Byte) (s : State) :
    (setStatOrig (freqSequence (accept op s))).seqN.toNat = distinctValues s := freqSequence_seqN (accept op s)

/-- R154: with no count nothing is built. -/
theorem encBuildProgram_empty (op : Byte) (h : distinctValues s = 0) :
    encBuildProgram (accept op s) =
      completeIn .built { setEmpty (setStatOrig (freqSequence (accept op s))) with payloadBits := 0#64 } := by
  have hseq : (setStatOrig (freqSequence (accept op s))).seqN = 0#9 :=
    BitVec.eq_of_toNat_eq ((encBuild_seqN op s).trans h)
  simp only [encBuildProgram, if_pos hseq]

/-- R151: with some count the program builds the tables and then tests their payload's length. -/
theorem encBuildProgram_tables (op : Byte) (h : distinctValues s ≠ 0) :
    encBuildProgram (accept op s) =
      if codedLength (encTables s) > 2 ^ 64 - 1 then
        raise .overflowPayloadBits 0#64 (setStatOrig (accept op (encTables s)))
      else completeIn .built
        { setStatOrig (accept op (encTables s)) with payloadBits := BitVec.ofNat 64 (codedLength (encTables s)) } := by
  have hcount := encBuild_seqN op s
  have hseq : (setStatOrig (freqSequence (accept op s))).seqN ≠ 0#9 := fun hzero => by
    rw [hzero] at hcount
    exact h hcount.symm
  have hlength : payloadLength (setStatOrig (accept op (encTables s))) = codedLength (encTables s) := rfl
  simp only [encBuildProgram, if_neg hseq, hcount, encTables_accept, hlength]

theorem encBuildProgram_fits (op : Byte) (h : distinctValues s ≠ 0) (hfits : codedLength (encTables s) < 2 ^ 64) :
    encBuildProgram (accept op s) = completeIn .built
      { setStatOrig (accept op (encTables s)) with payloadBits := BitVec.ofNat 64 (codedLength (encTables s)) } := by
  rw [encBuildProgram_tables op h, if_neg (by omega)]

theorem encBuildProgram_overflow (op : Byte) (h : distinctValues s ≠ 0)
    (hover : 2 ^ 64 ≤ codedLength (encTables s)) :
    encBuildProgram (accept op s) = raise .overflowPayloadBits 0#64 (setStatOrig (accept op (encTables s))) := by
  rw [encBuildProgram_tables op h, if_pos (by omega)]

theorem exec_encBuild (h : Ready .encBuild s) : exec .encBuild s = .next (encBuildProgram (accept 0x11#8 s)) :=
  exec_ready h

theorem toNat_ofNat_of_lt {n : Nat} (h : n < 2 ^ 64) : (BitVec.ofNat 64 n).toNat = n := by
  rw [BitVec.toNat_ofNat, Nat.mod_eq_of_lt h]

/-- Settles O35: the tables are those of the frequency table, and their exact length fits PAYLOAD_BITS. -/
theorem encBuildCompletes : Obligations.EncBuildCompletes := by
  intro s hready ⟨v, hv⟩ hfits
  have hsome : distinctValues s ≠ 0 := fun h0 => hv ((distinctValues_eq_zero s).mp h0 v)
  obtain ⟨hseqSym, hseqCnt⟩ := encTables_seq s
  obtain ⟨hnode, hroot, hcount⟩ := encTables_tree s
  rw [← encTables] at hfits ⊢
  rw [exec_encBuild hready, encBuildProgram_fits _ hsome hfits]
  exact ⟨_, rfl, rfl, rfl, rfl, encTables_total s, encTables_empty s,
    (toNat_ofNat_of_lt hfits).trans (codedLength_congr rfl rfl), encTables_seqN s, hseqSym, hseqCnt, hnode, hroot,
    hcount, fun _ => rfl⟩

/-- What acceptance sets and completion takes back is BUSY, and before an accepted command it is 0. -/
theorem eq_with_busy_false (hb : s.busy = false) : s = { s with busy := false } := by rw [← hb]

/-- Settles O37: ENC_BUILD's other two ends, that of R154 and that of a length that fits, are in BUILT. -/
theorem encBuildOverflow : Obligations.EncBuildOverflow := by
  intro s u hready hu
  rw [← encTables] at hu
  subst hu
  rw [exec_encBuild hready]
  refine ⟨fun hover => ?_, fun t ht hphase => ?_⟩
  · have hsome : distinctValues s ≠ 0 := fun h0 => by
      have hfreq : ∀ v, freqAt (encTables s) v = 0#64 := fun v =>
        (freqAt_encTables s v).trans ((distinctValues_eq_zero s).mp h0 v)
      rw [codedLength_eq_zero hfreq] at hover
      omega
    have hwrites := encTables_tableWrites s
    rw [encBuildProgram_overflow _ hsome hover]
    generalize encTables s = w at hwrites ⊢
    rw [hwrites]
    conv_rhs => rw [eq_with_busy_false hready.1]
    rfl
  · obtain rfl := Host.Outcome.next.inj ht
    by_contra hfits
    by_cases h0 : distinctValues s = 0
    · rw [encBuildProgram_empty _ h0] at hphase
      cases hphase
    · rw [encBuildProgram_fits _ h0 (by omega)] at hphase
      cases hphase

/-- R154: ENC_BUILD of a table with no count sets EMPTY and builds nothing. -/
theorem exec_encBuild_empty (hready : Ready .encBuild s) (hfreq : ∀ v, freqAt s v = 0#64) :
    exec .encBuild s = .next { s with
      lastOp := 0x11#8, xferIn := 0#64, xferOut := 0#64, seqN := 0#9, statOrig := s.total, empty := true
      payloadBits := 0#64, phase := .built, pos := .idle } := by
  have hnone := (distinctValues_eq_zero s).mpr hfreq
  have hentries : freqEntries s = [] := List.eq_nil_of_length_eq_zero ((freqEntries_length s).trans hnone)
  have hseq : freqSequence s = { s with seqN := 0#9 } := by
    rw [freqSequence, hentries]
    rfl
  rw [exec_encBuild hready, encBuildProgram_empty _ hnone, freqSequence_accept, hseq]
  conv_rhs => rw [eq_with_busy_false hready.1]
  rfl

/-! ### What the builds leave alone -/

/-- A frame that allows what a command that is not accepted may change, and what its program changes when it is, holds
of the command. -/
theorem exec_frame {i : Instr} {frame : State → State → State}
    (hissue : ∀ t s, issueWrites t s = frame (issueWrites t s) s)
    (hprogram : programOf i (accept (opcodeOf i) s) = frame (programOf i (accept (opcodeOf i) s)) s)
    (h : exec i s = .next t) : t = frame t s := by
  rw [exec_issue] at h
  obtain rfl := Host.Outcome.next.inj h
  rcases issue_frame i s with hnot | haccepted
  · rw [hnot]
    exact hissue _ s
  · rw [haccepted]
    exact hprogram

/-- `s` with the registers ENC_BUILD and its acceptance write as in `t` (44_encoder.md R151). -/
def encBuildWrites (t s : State) : State :=
  { s with
    busy := t.busy, ovr := t.ovr, lastOp := t.lastOp, xferIn := t.xferIn, xferOut := t.xferOut, phase := t.phase
    errKind := t.errKind, errDetail := t.errDetail, errInfo := t.errInfo, pos := t.pos
    seqN := t.seqN, seqSym := t.seqSym, seqCnt := t.seqCnt, statOrig := t.statOrig, node := t.node
    root := t.root, nodeCount := t.nodeCount, codeLen := t.codeLen, codeBits := t.codeBits
    payloadBits := t.payloadBits, empty := t.empty }

/-- `s` with the registers DEC_BUILD and its acceptance write as in `t` (45_decoder.md R179). -/
def decBuildWrites (t s : State) : State :=
  { s with
    busy := t.busy, ovr := t.ovr, lastOp := t.lastOp, xferIn := t.xferIn, xferOut := t.xferOut, phase := t.phase
    errKind := t.errKind, errDetail := t.errDetail, errInfo := t.errInfo, pos := t.pos
    node := t.node, root := t.root, nodeCount := t.nodeCount }

theorem encBuildProgram_frame (op : Byte) (s : State) :
    encBuildProgram (accept op s) = encBuildWrites (encBuildProgram (accept op s)) s := by
  by_cases h0 : distinctValues s = 0
  · have hseq : freqSequence (accept op s) = seqWrites (freqSequence (accept op s)) (accept op s) :=
      writeSeq_seqWrites _ 0 _
    rw [encBuildProgram_empty op h0]
    generalize freqSequence (accept op s) = q at hseq ⊢
    rw [hseq]
    rfl
  · have hwrites := encTables_tableWrites s
    rw [encBuildProgram_tables op h0]
    generalize encTables s = w at hwrites ⊢
    rw [hwrites]
    split <;> rfl

theorem decBuildProgram_frame (op : Byte) (s : State) :
    decBuildProgram (accept op s) = decBuildWrites (decBuildProgram (accept op s)) s := by
  unfold decBuildProgram
  split
  · rfl
  · rw [buildTree_treeWrites]
    rfl

/-- Settles O54: each build writes its tables and what every command writes. -/
theorem frameBuilds : Obligations.FrameBuilds :=
  ⟨fun s _ h => exec_frame (i := .encBuild) (frame := encBuildWrites) (fun _ _ => rfl) (encBuildProgram_frame _ s) h,
    fun s _ h => exec_frame (i := .decBuild) (frame := decBuildWrites) (fun _ _ => rfl) (decBuildProgram_frame _ s) h⟩

end Sys2Proof.Machine
end

section
/-! SUPPORT. The header of the compressed file as bytes (44_encoder.md R157; 30_encoding.md R77; 20_memory.md R51). -/
namespace Sys2Proof.Machine
variable {s : State}

/-! ### 64-bit fields -/

@[simp] theorem le64_length (v : Word) : (le64 v).length = 8 := rfl

theorem bytesToNat_le64 (v : Word) : bytesToNat (le64 v) = v.toNat := by
  have := v.isLt
  simp only [le64, bytesToNat, BitVec.extractLsb'_toNat, Nat.shiftRight_eq_div_pow]
  omega

/-- Reading back what LE64 wrote (R51). -/
@[simp] theorem fromLE64_le64 (v : Word) : fromLE64 (le64 v) = v := by
  rw [fromLE64, bytesToNat_le64, BitVec.ofNat_toNat, BitVec.setWidth_eq]

/-! ### Entries of nine bytes -/

/-- Blocks of one length, one after the other: block `i` starts at `m * i`. -/
theorem drop_flatMap_block {α β : Type} {f : α → List β} {m : Nat} (hm : ∀ a, (f a).length = m) (l : List α)
    {i : Nat} (h : i < l.length) : (l.flatMap f).drop (m * i) = f l[i] ++ (l.drop (i + 1)).flatMap f := by
  have hsplit : l.flatMap f = (l.take i).flatMap f ++ (f l[i] ++ (l.drop (i + 1)).flatMap f) := by
    rw [← List.flatMap_cons, ← List.flatMap_append, List.getElem_cons_drop, List.take_append_drop]
  have hlen : ((l.take i).flatMap f).length = m * i := by
    simp [List.length_flatMap, hm, Nat.min_eq_left h.le, Nat.mul_comm]
  rw [hsplit, List.drop_left' hlen]

/-- An entry of the sequence as it stands in the header (R77). -/
def entryBytes (e : Byte × Word) : List Byte := e.1 :: le64 e.2

@[simp] theorem entryBytes_length (e : Byte × Word) : (entryBytes e).length = 9 := rfl

@[simp] theorem entriesOf_length (s : State) : (entriesOf s).length = s.seqN.toNat := by simp [entriesOf]

theorem headerImage_eq (bitLength : Word) (entries : List (Byte × Word)) :
    headerImage bitLength entries =
      le64 bitLength ++ (le64 (BitVec.ofNat 64 entries.length) ++ entries.flatMap entryBytes) :=
  List.append_assoc _ _ _

theorem headerImage_length (bitLength : Word) (entries : List (Byte × Word)) :
    (headerImage bitLength entries).length = 16 + 9 * entries.length := by
  have hentries : (entries.flatMap entryBytes).length = 9 * entries.length := by
    simp [List.length_flatMap, Nat.mul_comm]
  rw [headerImage_eq, List.length_append, List.length_append, hentries, le64_length, le64_length]
  omega

/-- What ENC_HEADER pushes is the header of R77 with the fields as the registers hold them. -/
theorem headerBytes_eq_headerImage (s : State) : headerBytes s = headerImage s.payloadBits (entriesOf s) := by
  have hcount : s.seqN.setWidth 64 = BitVec.ofNat 64 (entriesOf s).length := by
    rw [entriesOf_length]
    exact BitVec.eq_of_toNat_eq (by simp)
  rw [headerBytes, headerImage, hcount, entriesOf, List.flatMap_map]

theorem headerImage_entry (bitLength : Word) {entries : List (Byte × Word)} {i : Nat} (h : i < entries.length) :
    (headerImage bitLength entries).drop (16 + 9 * i) =
      entryBytes entries[i] ++ (entries.drop (i + 1)).flatMap entryBytes := by
  rw [headerImage_eq, ← List.append_assoc, ← List.drop_drop, List.drop_left' (i := 16) rfl,
    drop_flatMap_block entryBytes_length entries h]

/-- Settles O38: the two fields of R77 in front, then one block of nine bytes per entry. -/
theorem headerLayout : Obligations.HeaderLayout := by
  intro s
  rw [headerBytes_eq_headerImage]
  have hentry : ∀ i (hi : i < s.seqN.toNat), (headerImage s.payloadBits (entriesOf s)).drop (16 + 9 * i) =
      entryBytes (seqSymAt s i, seqCntAt s i) ++ ((entriesOf s).drop (i + 1)).flatMap entryBytes := fun i hi => by
    rw [headerImage_entry _ (by simpa using hi)]
    simp [entriesOf]
  refine ⟨by rw [headerImage_length, entriesOf_length], ?_, ?_, fun i hi => ⟨?_, ?_⟩⟩
  · rw [headerImage_eq, List.take_left' (le64_length _), fromLE64_le64]
  · have hseqN := s.seqN.isLt
    rw [headerImage_eq, List.drop_left' (le64_length _), List.take_left' (le64_length _), bytesToNat_le64,
      entriesOf_length, toNat_ofNat_of_lt (by omega)]
  · rw [← List.head?_drop, hentry i hi]
    rfl
  · rw [show 17 + 9 * i = 16 + 9 * i + 1 by omega, ← List.drop_drop, hentry i hi]
    exact (congrArg fromLE64 (List.take_left' (le64_length _))).trans (fromLE64_le64 _)

end Sys2Proof.Machine
end

section
/-! SUPPORT. ENC_HEADER, one push and then a whole header, where it ends and what it leaves alone (44_encoder.md
R156). -/
namespace Sys2Proof.Machine
variable {s t : State}

/-! ### Pushes -/

/-- The sink answers Ok to the next `n` pushes (20_memory.md R54). -/
def SinkTakes (n : Nat) (s : State) : Prop := s.sinkQuota = none ∧ ∀ j, j < n → s.pushes + j ∉ s.sinkFaults

theorem sinkTakes_of_all (h : SinkTakesAll s) (n : Nat) : SinkTakes n s :=
  ⟨h.1, fun j _ hmem => by have := h.2 _ hmem; omega⟩

theorem SinkTakes.answer {n : Nat} (h : SinkTakes (n + 1) s) : sinkAnswer s = some .ok := by
  have hpush : s.pushes ∉ s.sinkFaults := h.2 0 n.succ_pos
  simp [sinkAnswer, h.1, hpush]

theorem sinkAnswer_fault (hquota : s.sinkQuota = none) (h : s.pushes ∈ s.sinkFaults) :
    sinkAnswer s = some .fault := by
  simp [sinkAnswer, hquota, h]

/-- The state after the sink has taken `bs`, byte by byte (R54). -/
def pushed (bs : List Byte) (s : State) : State :=
  { s with
    out := s.out ++ bs, xferOut := s.xferOut + BitVec.ofNat 64 bs.length, pushes := s.pushes + bs.length }

theorem pushed_nil (s : State) : pushed [] s = s := by simp [pushed]

theorem pushed_pushed (bs cs : List Byte) (s : State) : pushed cs (pushed bs s) = pushed (bs ++ cs) s := by
  simp [pushed, BitVec.ofNat_add, BitVec.add_assoc, Nat.add_assoc]

/-- While the transfer counter can count, a byte the sink takes is counted there. -/
theorem pushOut_ok {b : Byte} (hquota : s.sinkQuota = none) (hroom : s.xferOut ≠ BitVec.allOnes 64) :
    pushOut b .ok s = pushed [b] s := by
  have hsame : s.sinkQuota.map (· - 1) = s.sinkQuota := by rw [hquota]; rfl
  simp only [pushOut, countTransfer, drawsAfter, if_neg hroom, hsame]
  rfl

theorem pushOut_fault {b : Byte} (hquota : s.sinkQuota = none) :
    pushOut b .fault s = { s with pushes := s.pushes + 1 } := by
  have hsame : s.sinkQuota.map (· - 1) = s.sinkQuota := by rw [hquota]; rfl
  simp only [pushOut, hsame]

theorem SinkTakes.pushed {bs : List Byte} {n : Nat} (h : SinkTakes (bs.length + n) s) :
    SinkTakes n (pushed bs s) := by
  refine ⟨h.1, fun j hj => ?_⟩
  have hnext := h.2 (bs.length + j) (by omega)
  rwa [← Nat.add_assoc] at hnext

theorem ne_allOnes_of_lt {c : Word} {n : Nat} (h : c.toNat + (n + 1) < 2 ^ 64) : c ≠ BitVec.allOnes 64 := by
  rintro rfl
  rw [BitVec.toNat_allOnes] at h
  omega

/-! ### A whole header -/

/-- In the OutPush of a header byte the core takes the sink's answer (R156). -/
theorem coreStep_headerPush {b : Byte} {rest : List Byte} {r : SinkAnswer} (hb : s.busy = true)
    (hpos : s.pos = .headerPush b rest) (hr : sinkAnswer s = some r) :
    coreStep s = some (headerAnswered r rest (pushOut b r s)) := by
  have hw : awaited s = .push b := by simp [awaited, hb, hpos]
  have hafter : afterPush r (pushOut b r s) = headerAnswered r rest (pushOut b r s) := by
    simp only [afterPush, pushOut_pos, hpos]
  rw [coreStep_push hw hr, hafter]

/-- Where ENC_HEADER stood does not matter to where it goes on. -/
theorem pushHeader_waitAt (bs : List Byte) (p : Position) (s : State) :
    pushHeader bs (waitAt p s) = pushHeader bs s := by
  cases bs <;> rfl

theorem settle_headerPush_ok {b : Byte} {rest : List Byte} {n : Nat} (hb : s.busy = true)
    (hsink : SinkTakes (n + 1) s) (hroom : s.xferOut ≠ BitVec.allOnes 64) :
    settle (pushHeader (b :: rest) s) = settle (pushHeader rest (pushed [b] s)) := by
  have hstep := coreStep_headerPush (s := waitAt (.headerPush b rest) s) (r := .ok) hb rfl hsink.answer
  rw [pushOut_ok (s := waitAt (.headerPush b rest) s) hsink.1 hroom] at hstep
  exact (settle_some hstep).trans (congrArg settle (pushHeader_waitAt rest _ (pushed [b] s)))

/-- ENC_HEADER running on pushes the bytes the sink takes. -/
theorem settle_pushHeader {bs rest : List Byte} (hb : s.busy = true) (hsink : SinkTakes bs.length s)
    (hroom : s.xferOut.toNat + bs.length < 2 ^ 64) :
    settle (pushHeader (bs ++ rest) s) = settle (pushHeader rest (pushed bs s)) := by
  induction bs generalizing s with
  | nil => rw [pushed_nil, List.nil_append]
  | cons b bs ih =>
    rw [List.length_cons] at hsink hroom
    have hcount : s.xferOut ≠ BitVec.allOnes 64 := ne_allOnes_of_lt hroom
    have hnext : (pushed [b] s).xferOut.toNat = s.xferOut.toNat + 1 := toNat_add_one hcount
    have hlater : SinkTakes bs.length (pushed [b] s) := SinkTakes.pushed (Nat.add_comm bs.length 1 ▸ hsink)
    calc settle (pushHeader (b :: bs ++ rest) s)
        = settle (pushHeader (bs ++ rest) (pushed [b] s)) := settle_headerPush_ok hb hsink hcount
      _ = settle (pushHeader rest (pushed bs (pushed [b] s))) := ih hb hlater (by omega)
      _ = settle (pushHeader rest (pushed (b :: bs) s)) := by rw [pushed_pushed]; rfl

/-- A refused header byte ends ENC_HEADER (R156). -/
theorem settle_headerPush_fault {b : Byte} {rest : List Byte} (hb : s.busy = true) (hquota : s.sinkQuota = none)
    (hfault : s.pushes ∈ s.sinkFaults) : settle (pushHeader (b :: rest) s) =
      raise .writeHeader s.xferOut { waitAt (.headerPush b rest) s with pushes := s.pushes + 1 } := by
  have hstep := coreStep_headerPush (s := waitAt (.headerPush b rest) s) (r := .fault) hb rfl
    (sinkAnswer_fault hquota hfault)
  rw [pushOut_fault (s := waitAt (.headerPush b rest) s) hquota] at hstep
  exact (settle_some hstep).trans (settle_idle rfl)

/-- The program of ENC_HEADER of a non-empty file, run on. -/
theorem exec_encHeader (hready : Ready .encHeader s) (hempty : s.empty = false) (heager : s.eager = true) :
    exec .encHeader s =
      .next (settle (pushHeader (headerImage s.payloadBits (entriesOf s)) (accept 0x12#8 s))) := by
  have hstart : startHeader (accept 0x12#8 s) = pushHeader (headerBytes s) (accept 0x12#8 s) :=
    if_neg (show s.empty ≠ true by simp [hempty])
  rw [exec_ready hready, programOf_eq_settle .encHeader (s := accept _ s) heager, ← headerBytes_eq_headerImage]
  exact congrArg _ (congrArg settle hstart)

theorem headerImage_length_of_entries (s : State) :
    (headerImage s.payloadBits (entriesOf s)).length = 16 + 9 * s.seqN.toNat := by
  rw [headerImage_length, entriesOf_length]

/-- Settles O39: the sink takes the header whole, and after its last byte ENC_HEADER completes. -/
theorem encHeaderPushes : Obligations.EncHeaderPushes := by
  intro s hready hempty heager hsink
  have hseqN := s.seqN.isLt
  rw [exec_encHeader hready hempty heager, ← headerImage_length_of_entries]
  have hlen := headerImage_length_of_entries s
  generalize headerImage s.payloadBits (entriesOf s) = image at hlen ⊢
  have hroom : (accept 0x12#8 s).xferOut.toNat + image.length < 2 ^ 64 := by
    rw [accept_xferOut, BitVec.toNat_zero]
    omega
  have hrun := settle_pushHeader (rest := []) rfl (sinkTakes_of_all (s := accept 0x12#8 s) hsink _) hroom
  rw [List.append_nil] at hrun
  rw [hrun, settle_idle rfl]
  conv_rhs => rw [eq_with_busy_false hready.1]
  simp [pushHeader, pushed, completeIn, complete, accept]

/-- Settles O40: the sink takes the bytes before the one it refuses, and the refusal raises WRITE. -/
theorem encHeaderSinkFault : Obligations.EncHeaderSinkFault := by
  intro s k hready hempty heager hquota hk hfault htaken
  have hseqN := s.seqN.isLt
  rw [← headerImage_length_of_entries] at hk
  rw [exec_encHeader hready hempty heager]
  have hlen := headerImage_length_of_entries s
  generalize headerImage s.payloadBits (entriesOf s) = image at hk hlen ⊢
  have hsplit : image = image.take k ++ image[k] :: image.drop (k + 1) := by
    rw [List.getElem_cons_drop, List.take_append_drop]
  have hfront : (image.take k).length = k := List.length_take_of_le hk.le
  generalize image.take k = front at hsplit hfront ⊢
  subst hfront
  have hroom : (accept 0x12#8 s).xferOut.toNat + front.length < 2 ^ 64 := by
    rw [accept_xferOut, BitVec.toNat_zero]
    omega
  rw [hsplit, settle_pushHeader (s := accept 0x12#8 s) rfl ⟨hquota, htaken⟩ hroom,
    settle_headerPush_fault (s := pushed front (accept 0x12#8 s)) rfl hquota hfault]
  conv_rhs => rw [eq_with_busy_false hready.1]
  simp [pushed, waitAt, raise, record, complete, accept, errorKind, errorDetail]

/-! ### The empty file (R154) -/

theorem exec_encHeader_empty (hready : Ready .encHeader s) (hempty : s.empty = true) :
    exec .encHeader s = .next { s with
      lastOp := 0x12#8, xferIn := 0#64, xferOut := 0#64, statHeader := 0#64, phase := .headed, pos := .idle } := by
  have hstart : startHeader (accept 0x12#8 s) = completeIn .headed { accept 0x12#8 s with statHeader := 0#64 } :=
    if_pos hempty
  have hprogram : programOf .encHeader (accept 0x12#8 s) = startHeader (accept 0x12#8 s) :=
    proceed_idle (by rw [hstart]; rfl)
  rw [exec_ready hready, show opcodeOf .encHeader = 0x12#8 from rfl, hprogram, hstart]
  conv_rhs => rw [eq_with_busy_false hready.1]
  rfl

/-! ### What ENC_HEADER leaves alone -/

/-- `s` with the registers ENC_HEADER and its acceptance write as in `t`, and OUT (R156). -/
def encHeaderWrites (t s : State) : State :=
  { s with
    busy := t.busy, ovr := t.ovr, lastOp := t.lastOp, xferIn := t.xferIn, xferOut := t.xferOut, phase := t.phase
    errKind := t.errKind, errDetail := t.errDetail, errInfo := t.errInfo, pos := t.pos
    statHeader := t.statHeader, out := t.out, pushes := t.pushes, sinkQuota := t.sinkQuota, draws := t.draws }

theorem pushOut_encHeaderWrites (b : Byte) (r : SinkAnswer) (s : State) :
    pushOut b r s = encHeaderWrites (pushOut b r s) s := by cases r <;> rfl

theorem pushHeader_encHeaderWrites (bs : List Byte) (s : State) :
    pushHeader bs s = encHeaderWrites (pushHeader bs s) s := by cases bs <;> rfl

theorem headerAnswered_encHeaderWrites (r : SinkAnswer) (rest : List Byte) (s : State) :
    headerAnswered r rest s = encHeaderWrites (headerAnswered r rest s) s := by
  cases r with
  | ok => exact pushHeader_encHeaderWrites rest s
  | fault => rfl

/-- What a step that answers a push does. -/
theorem coreStep_push_cases {b : Byte} (hw : awaited s = .push b) (hstep : coreStep s = some t) :
    ∃ r, sinkAnswer s = some r ∧ t = afterPush r (pushOut b r s) := by
  rcases coreStep_cases hstep with ⟨e, rest, hpop, -, -⟩ | ⟨b', r, hpush, hr, rfl⟩
  · rw [hw] at hpop
    cases hpop
  · rw [hw] at hpush
    cases hpush
    exact ⟨r, hr, rfl⟩

theorem headerPush_of_commandOf (h : commandOf s.pos = some .encHeader) : ∃ b rest, s.pos = .headerPush b rest := by
  cases hpos : s.pos with
  | headerPush b rest => exact ⟨b, rest, rfl⟩
  | _ => rw [hpos] at h; cases h

theorem coreStep_encHeaderWrites (s t : State) (hi : commandOf s.pos = some .encHeader) (hstep : coreStep s = some t) :
    t = encHeaderWrites t s := by
  obtain ⟨b, rest, hpos⟩ := headerPush_of_commandOf hi
  have hw : awaited s = .push b := by simp [awaited, coreStep_busy hstep, hpos]
  obtain ⟨r, hr, -⟩ := coreStep_push_cases hw hstep
  rw [coreStep_headerPush (coreStep_busy hstep) hpos hr] at hstep
  obtain rfl := Option.some.inj hstep
  generalize hu : pushOut b r s = u
  have hpush : u = encHeaderWrites u s := hu ▸ pushOut_encHeaderWrites b r s
  calc headerAnswered r rest u
      = encHeaderWrites (headerAnswered r rest u) u := headerAnswered_encHeaderWrites r rest u
    _ = encHeaderWrites (headerAnswered r rest u) (encHeaderWrites u s) := by rw [← hpush]
    _ = encHeaderWrites (headerAnswered r rest u) s := rfl

theorem programOf_encHeader_frame (s : State) :
    programOf .encHeader (accept 0x12#8 s) = encHeaderWrites (programOf .encHeader (accept 0x12#8 s)) s := by
  rw [programOf_eq_proceed]
  change proceed (startHeader (accept 0x12#8 s)) = encHeaderWrites (proceed (startHeader (accept 0x12#8 s))) s
  by_cases hempty : s.empty = true
  · have hstart : startHeader (accept 0x12#8 s) = completeIn .headed { accept 0x12#8 s with statHeader := 0#64 } :=
      if_pos hempty
    rw [hstart, proceed_idle rfl]
    rfl
  · have hstart : startHeader (accept 0x12#8 s) = pushHeader (headerBytes s) (accept 0x12#8 s) := if_neg hempty
    rw [hstart]
    exact proceed_frame (i := .encHeader) (frame := encHeaderWrites) (fun _ _ _ => rfl) coreStep_encHeaderWrites rfl rfl

/-- Settles O55: acceptance, each push and each answer stay within the frame. -/
theorem frameEncHeader : Obligations.FrameEncHeader := fun s _ h =>
  exec_frame (i := .encHeader) (frame := encHeaderWrites) (fun _ _ => rfl) (programOf_encHeader_frame s) h

end Sys2Proof.Machine
end

section
/-! SUPPORT. ENC_EMIT at its interaction points: what each does, its error exits, and what the command leaves alone
(44_encoder.md R158, R160; 41_bitstream.md R114, R116). -/
namespace Sys2Proof.Machine
variable {s t : State}

/-! ### The interaction points -/

/-- In ENC_EMIT's InPop the core takes the head of IN (R158). -/
theorem coreStep_emitPop {e : InElem} {rest : List InElem} (hb : s.busy = true) (hpos : s.pos = .emitPop)
    (hin : s.inCh = e :: rest) : coreStep s = some (emitElem e (popIn e rest s)) := by
  have hw : awaited s = .pop := by simp [awaited, hb, hpos]
  have hafter : afterPop e (popIn e rest s) = emitElem e (popIn e rest s) := by simp only [afterPop, popIn_pos, hpos]
  rw [coreStep_pop hw hin, hafter]

/-- In the OutPush of a full byte the core takes the sink's answer, and WriteBit goes on with it (R114). -/
theorem coreStep_emitPush {bits : List Bool} {r : SinkAnswer} (hb : s.busy = true) (hpos : s.pos = .emitPush bits)
    (hr : sinkAnswer s = some r) : coreStep s = some (emitAnswered r bits (pushOut s.obuf r s)) := by
  have hw : awaited s = .push s.obuf := by simp [awaited, hb, hpos]
  have hafter : afterPush r (pushOut s.obuf r s) = emitAnswered r bits (pushOut s.obuf r s) := by
    simp only [afterPush, pushOut_pos, hpos]
  rw [coreStep_push hw hr, hafter]

/-- In the OutPush of the final Close the core takes the sink's answer (R116). -/
theorem coreStep_emitClose {r : SinkAnswer} (hb : s.busy = true) (hpos : s.pos = .emitClose)
    (hr : sinkAnswer s = some r) : coreStep s = some (closeAnswered r (pushOut s.obuf r s)) := by
  have hw : awaited s = .push s.obuf := by simp [awaited, hb, hpos]
  have hafter : afterPush r (pushOut s.obuf r s) = closeAnswered r (pushOut s.obuf r s) := by
    simp only [afterPush, pushOut_pos, hpos]
  rw [coreStep_push hw hr, hafter]

/-- In the OutPush of AbortEmit's Close the core takes the sink's answer, whatever it is (R160). -/
theorem coreStep_abortClose_answered {r : SinkAnswer} (hb : s.busy = true) (hpos : s.pos = .abortClose)
    (hr : sinkAnswer s = some r) : coreStep s = some (abortAnswered (pushOut s.obuf r s)) := by
  have hw : awaited s = .push s.obuf := by simp [awaited, hb, hpos]
  have hafter : afterPush r (pushOut s.obuf r s) = abortAnswered (pushOut s.obuf r s) := by
    simp only [afterPush, pushOut_pos, hpos]
  rw [coreStep_push hw hr, hafter]

/-! ### AbortEmit (R160) -/

/-- Each cause of R158 makes ENC_EMIT abort with the error it names. -/
theorem emitElem_abortCause {e : InElem} {rest : List InElem} {kind detail : Byte} {info : Word}
    (h : AbortCause s e kind detail info) :
    ∃ c, kind = errorKind c ∧ detail = errorDetail c ∧
      emitElem e (popIn e rest s) = abortEmit c info (popIn e rest s) := by
  have hlookup : ∀ v, lookupCode (popIn e rest s) v = lookupCode s v := fun v => by cases e <;> rfl
  rcases h with ⟨v, rfl, hnone, rfl, rfl, rfl⟩ | ⟨v, p, rfl, hsome, hlong, rfl, rfl, rfl⟩ | ⟨rfl, rfl, rfl, rfl⟩
  · refine ⟨.noCodeword, rfl, rfl, ?_⟩
    simp only [emitElem, hlookup, hnone]
  · refine ⟨.excessBits, rfl, rfl, ?_⟩
    have hover : (popIn (.byte v) rest s).emitBits.toNat + p.length >
        (popIn (.byte v) rest s).payloadBits.toNat := by simpa using hlong
    simp only [emitElem, hlookup, hsome, if_pos hover]
  · exact ⟨.readEmitPass, rfl, rfl, rfl⟩

theorem abortEmit_empty {c : ErrorCause} {info : Word} (h : s.ocnt = 0#3) : abortEmit c info s = raise c info s :=
  if_pos h

theorem abortEmit_partial {c : ErrorCause} {info : Word} (h : s.ocnt ≠ 0#3) :
    abortEmit c info s = waitAt .abortClose (record c info s) := if_neg h

/-- Settles O42: the cause decides what is recorded, and the fill of OBUF whether a Close follows. -/
theorem encEmitAborts : Obligations.EncEmitAborts := by
  intro s e rest kind detail info hb hpos hin hcause
  obtain ⟨c, rfl, rfl, habort⟩ := emitElem_abortCause (rest := rest) hcause
  refine ⟨_, coreStep_emitPop hb hpos hin, ?_⟩
  rw [habort]
  by_cases hocnt : s.ocnt = 0#3
  · rw [abortEmit_empty (by simpa using hocnt)]
    simp [hocnt]
  · rw [abortEmit_partial (by simpa using hocnt)]
    refine ⟨by simp, by simp, by simp, by simp, by simp, by simp, by simp, fun h => absurd h hocnt, fun _ => ?_⟩
    refine ⟨by simp [hb], by simp [awaited, hb], fun r hr => ?_⟩
    refine ⟨_, coreStep_abortClose_answered (by simp [hb]) rfl hr, ?_⟩
    cases r <;> simp [abortAnswered, pushOut]

/-! ### The end (R116, R158) -/

theorem emitFinish_short (h : s.emitBits ≠ s.payloadBits) : emitFinish s = raise .shortBits s.emitBits s := if_neg h

theorem emitFinish_done (h : s.emitBits = s.payloadBits) :
    emitFinish s = completeIn .encDone { s with statPayload := s.xferOut } := if_pos h

theorem emitElem_end_partial (h : s.ocnt ≠ 0#3) : emitElem .endOfFile s = waitAt .emitClose s := if_neg h

theorem emitElem_end_empty (h : s.ocnt = 0#3) : emitElem .endOfFile s = emitFinish s := if_pos h

/-- A refused byte of the payload, full or closing, ends ENC_EMIT with the buffer empty (R114, R116). -/
theorem coreStep_refused_payload (hb : s.busy = true) (hpos : s.pos = .emitClose ∨ ∃ bits, s.pos = .emitPush bits)
    (hr : sinkAnswer s = some .fault) :
    coreStep s = some (raise .writePayload s.xferOut (emptyPacker (pushOut s.obuf .fault s))) := by
  rcases hpos with hpos | ⟨bits, hpos⟩
  · exact coreStep_emitClose hb hpos hr
  · exact coreStep_emitPush hb hpos hr

/-- Settles O43, clause by clause. -/
theorem encEmitEnds : Obligations.EncEmitEnds := by
  refine ⟨fun s rest hb hpos hin hocnt => ?_, fun s rest hb hpos hin hocnt hshort => ?_, fun s hb hpos hr => ?_,
    fun s hb hpos hr => ⟨_, coreStep_refused_payload hb hpos hr, rfl, rfl, rfl, rfl, rfl, rfl, rfl, rfl, rfl⟩⟩
  · rw [coreStep_emitPop hb hpos hin, emitElem_end_partial (by simpa using hocnt)]
    exact ⟨_, rfl, by simp [awaited, hb], rfl, rfl, rfl, rfl, rfl, rfl⟩
  · rw [coreStep_emitPop hb hpos hin, emitElem_end_empty (by simpa using hocnt),
      emitFinish_short (by simpa using hshort)]
    rfl
  · refine ⟨_, coreStep_emitClose hb hpos hr, ?_⟩
    rw [closeAnswered]
    by_cases hbits : s.emitBits = s.payloadBits
    · rw [emitFinish_done (by simpa using hbits)]
      exact ⟨rfl, rfl, rfl, rfl, rfl, rfl, fun h => absurd hbits h, fun _ => ⟨rfl, rfl⟩⟩
    · rw [emitFinish_short (by simpa using hbits)]
      exact ⟨rfl, rfl, rfl, rfl, rfl, rfl, fun _ => ⟨rfl, rfl, rfl, rfl, rfl⟩, fun h => absurd h hbits⟩

/-! ### The empty file (R154) -/

/-- The program of ENC_EMIT, run on. -/
theorem exec_encEmit (hready : Ready .encEmit s) (heager : s.eager = true) :
    exec .encEmit s = .next (settle (waitAt .emitPop (openPacker (accept 0x13#8 s)))) := by
  rw [exec_ready hready, programOf_eq_settle .encEmit (s := accept _ s) heager]
  rfl

theorem exec_encEmit_empty {rest : List InElem} (hready : Ready .encEmit s) (heager : s.eager = true)
    (hbits : s.payloadBits = 0#64) (hin : s.inCh = .endOfFile :: rest) :
    exec .encEmit s = .next { s with
      lastOp := 0x13#8, xferIn := 0#64, xferOut := 0#64, obuf := 0#8, ocnt := 0#3, emitBits := 0#64
      statPayload := 0#64, phase := .encDone, inCh := rest, pos := .idle } := by
  have hstep := coreStep_emitPop (s := waitAt .emitPop (openPacker (accept 0x13#8 s))) rfl rfl hin
  rw [emitElem_end_empty rfl, emitFinish_done hbits.symm] at hstep
  rw [exec_encEmit hready heager, settle_some hstep, settle_idle rfl]
  conv_rhs => rw [eq_with_busy_false hready.1]
  rfl

/-- Settles O34: the three commands of an empty file, each by its own rule. -/
theorem emptyEncode : Obligations.EmptyEncode :=
  ⟨fun _ => exec_encBuild_empty, fun _ => exec_encHeader_empty, fun _ _ => exec_encEmit_empty⟩

/-! ### What ENC_EMIT leaves alone -/

/-- `s` with the registers ENC_EMIT and its acceptance write as in `t`, IN and OUT (R158). -/
def encEmitWrites (t s : State) : State :=
  { s with
    busy := t.busy, ovr := t.ovr, lastOp := t.lastOp, xferIn := t.xferIn, xferOut := t.xferOut, phase := t.phase
    errKind := t.errKind, errDetail := t.errDetail, errInfo := t.errInfo, pos := t.pos
    obuf := t.obuf, ocnt := t.ocnt, emitBits := t.emitBits, statPayload := t.statPayload
    inCh := t.inCh, out := t.out, pushes := t.pushes, sinkQuota := t.sinkQuota, draws := t.draws }

theorem popIn_encEmitWrites (e : InElem) (rest : List InElem) (s : State) :
    popIn e rest s = encEmitWrites (popIn e rest s) s := by cases e <;> rfl

theorem pushOut_encEmitWrites (b : Byte) (r : SinkAnswer) (s : State) :
    pushOut b r s = encEmitWrites (pushOut b r s) s := by cases r <;> rfl

theorem writeBits_encEmitWrites (bits : List Bool) (s : State) :
    writeBits bits s = encEmitWrites (writeBits bits s) s := by
  induction bits generalizing s with
  | nil => rfl
  | cons b bits ih =>
    simp only [writeBits]
    split
    · rfl
    · exact ih _

theorem abortEmit_encEmitWrites (c : ErrorCause) (info : Word) (s : State) :
    abortEmit c info s = encEmitWrites (abortEmit c info s) s := by
  simp only [abortEmit]
  split <;> rfl

theorem emitFinish_encEmitWrites (s : State) : emitFinish s = encEmitWrites (emitFinish s) s := by
  unfold emitFinish
  split <;> rfl

theorem emitElem_encEmitWrites (e : InElem) (s : State) : emitElem e s = encEmitWrites (emitElem e s) s := by
  cases e with
  | byte v =>
    simp only [emitElem]
    split
    · exact abortEmit_encEmitWrites _ _ s
    · split
      · exact abortEmit_encEmitWrites _ _ s
      · exact writeBits_encEmitWrites _ s
  | endOfFile =>
    simp only [emitElem]
    split
    · exact emitFinish_encEmitWrites s
    · rfl
  | fault => exact abortEmit_encEmitWrites _ _ s

theorem afterPop_encEmitWrites (e : InElem) (h : commandOf s.pos = some .encEmit) :
    afterPop e s = encEmitWrites (afterPop e s) s := by
  cases hpos : s.pos with simp only [afterPop, hpos]
  | emitPop => exact emitElem_encEmitWrites e s
  | emitPush | emitClose | abortClose => rfl
  | _ => rw [hpos] at h; cases h

theorem afterPush_encEmitWrites (r : SinkAnswer) (h : commandOf s.pos = some .encEmit) :
    afterPush r s = encEmitWrites (afterPush r s) s := by
  cases hpos : s.pos with simp only [afterPush, hpos]
  | emitPush bits =>
    cases r with
    | ok => exact writeBits_encEmitWrites bits (emptyPacker s)
    | fault => rfl
  | emitClose =>
    cases r with
    | ok => exact emitFinish_encEmitWrites (emptyPacker s)
    | fault => rfl
  | emitPop | abortClose => rfl
  | _ => rw [hpos] at h; cases h

theorem coreStep_encEmitWrites (s t : State) (hi : commandOf s.pos = some .encEmit) (hstep : coreStep s = some t) :
    t = encEmitWrites t s := by
  have habsorb : ∀ u v, u = encEmitWrites u s → v = encEmitWrites v u → v = encEmitWrites v s := fun u v hu hv =>
    calc v = encEmitWrites v u := hv
      _ = encEmitWrites v (encEmitWrites u s) := by rw [← hu]
      _ = encEmitWrites v s := rfl
  rcases coreStep_cases hstep with ⟨e, rest, -, -, rfl⟩ | ⟨b, r, -, -, rfl⟩
  · exact habsorb _ _ (popIn_encEmitWrites e rest s) (afterPop_encEmitWrites e (by rwa [popIn_pos]))
  · exact habsorb _ _ (pushOut_encEmitWrites b r s) (afterPush_encEmitWrites r (by rwa [pushOut_pos]))

theorem programOf_encEmit_frame (s : State) :
    programOf .encEmit (accept 0x13#8 s) = encEmitWrites (programOf .encEmit (accept 0x13#8 s)) s :=
  proceed_frame (i := .encEmit) (frame := encEmitWrites) (s := startEmit (accept 0x13#8 s)) (fun _ _ _ => rfl)
    coreStep_encEmitWrites rfl rfl

/-- Settles O56: acceptance, each pop, each push and each answer stay within the frame. -/
theorem frameEncEmit : Obligations.FrameEncEmit := fun s _ h =>
  exec_frame (i := .encEmit) (frame := encEmitWrites) (fun _ _ => rfl) (programOf_encEmit_frame s) h

end Sys2Proof.Machine
end

section
/-! SUPPORT. Bit sequences packed into bytes, and the packer's buffer (20_memory.md R52; 41_bitstream.md R113, R114). -/
namespace Sys2Proof.Machine

/-- The byte that holds at most eight bits, first bit least significant (R52). -/
def packedByte (q : List Bool) : Byte := BitVec.ofNat 8 (bitsValue q)

theorem bitsValue_eq_pathBits (q : List Bool) : bitsValue q = pathBits q := by
  induction q with
  | nil => rfl
  | cons b q ih => rw [pathBits, ← ih]; rfl

theorem getLsbD_packedByte (q : List Bool) {i : Nat} (hi : i < 8) : (packedByte q).getLsbD i = q.getD i false := by
  rw [packedByte, BitVec.getLsbD_ofNat, bitsValue_eq_pathBits, testBit_pathBits, decide_eq_true hi, Bool.true_and]

theorem getLsbD_withBit (buf : Byte) (n : BitVec 3) (b : Bool) {i : Nat} (hi : i < 8) :
    (withBit buf n b).getLsbD i = if i = n.toNat then b else buf.getLsbD i := by
  have hmask : (1#8 <<< n.toNat).getLsbD i = decide (i = n.toNat) := by
    rw [BitVec.getLsbD_shiftLeft, BitVec.getLsbD_one]
    have := n.isLt
    grind
  unfold withBit
  split <;> simp only [BitVec.getLsbD_or, BitVec.getLsbD_and, BitVec.getLsbD_not, hmask, hi] <;> split <;> simp_all

/-- `OBUF[OCNT] <- b` is one more bit in the buffer (R114). -/
theorem withBit_packedByte {q : List Bool} {n : BitVec 3} (hn : n.toNat = q.length) (b : Bool) :
    withBit (packedByte q) n b = packedByte (q ++ [b]) := by
  refine BitVec.eq_of_getLsbD_eq fun i hi => ?_
  rw [getLsbD_withBit _ _ _ hi, getLsbD_packedByte _ hi, getLsbD_packedByte _ hi, hn]
  rcases Nat.lt_trichotomy i q.length with h | rfl | h
  · rw [if_neg h.ne, List.getD_append _ _ _ _ h]
  · rw [if_pos rfl, List.getD_append_right _ _ _ _ le_rfl, Nat.sub_self, List.getD_cons_zero]
  · rw [if_neg h.ne', List.getD_eq_default _ _ h.le, List.getD_eq_default _ _ (by simp; omega)]

/-! ### Whole bytes and the rest -/

/-- The bits that fill whole bytes. -/
def wholeBytes (p : List Bool) : List Bool := p.take (8 * (p.length / 8))

/-- The bits of the last byte, if it is not full. -/
def partialByte (p : List Bool) : List Bool := p.drop (8 * (p.length / 8))

theorem wholeBytes_append_partialByte (p : List Bool) : wholeBytes p ++ partialByte p = p := List.take_append_drop _ p

theorem wholeBytes_length (p : List Bool) : (wholeBytes p).length = 8 * (p.length / 8) :=
  List.length_take_of_le (by omega)

theorem partialByte_length (p : List Bool) : (partialByte p).length = p.length % 8 := by
  rw [partialByte, List.length_drop]; omega

/-- A bit that does not fill the last byte is part of it. -/
theorem snoc_partial {p : List Bool} (h : p.length % 8 ≠ 7) (b : Bool) :
    wholeBytes (p ++ [b]) = wholeBytes p ∧ partialByte (p ++ [b]) = partialByte p ++ [b] := by
  have hcount : (p ++ [b]).length / 8 = p.length / 8 := by
    rw [List.length_append, List.length_singleton]; omega
  have hle : 8 * (p.length / 8) ≤ p.length := by omega
  rw [wholeBytes, partialByte, hcount]
  exact ⟨List.take_append_of_le_length hle, List.drop_append_of_le_length hle⟩

/-- A bit that fills the last byte leaves whole bytes alone. -/
theorem snoc_full {p : List Bool} (h : p.length % 8 = 7) (b : Bool) :
    wholeBytes (p ++ [b]) = wholeBytes p ++ (partialByte p ++ [b]) ∧ partialByte (p ++ [b]) = [] := by
  have hcount : 8 * ((p ++ [b]).length / 8) = (p ++ [b]).length := by
    rw [List.length_append, List.length_singleton]; omega
  rw [← List.append_assoc, wholeBytes_append_partialByte, wholeBytes, partialByte, hcount]
  exact ⟨List.take_length, List.drop_length⟩

/-! ### Packing (R52) -/

/-- The bits after whole bytes make the next byte. -/
theorem packBits_append {p q : List Bool} (hp : p.length % 8 = 0) (h1 : 1 ≤ q.length) (h8 : q.length ≤ 8) :
    packBits (p ++ q) = packBits p ++ [packedByte q] := by
  obtain ⟨m, hm⟩ : ∃ m, p.length = 8 * m := ⟨p.length / 8, by omega⟩
  have hcount : ((p ++ q).length + 7) / 8 = m + 1 := by rw [List.length_append]; omega
  have hcount' : (p.length + 7) / 8 = m := by omega
  have hfront : ∀ k ∈ List.range m, ((p ++ q).drop (8 * k)).take 8 = (p.drop (8 * k)).take 8 := fun k hk => by
    have := List.mem_range.mp hk
    rw [List.drop_append_of_le_length (by omega), List.take_append_of_le_length (by rw [List.length_drop]; omega)]
  rw [packBits, packBits, hcount, hcount', List.range_succ, List.map_append]
  congr 1
  · exact List.map_congr_left fun k hk => by rw [hfront k hk]
  · rw [List.map_singleton, ← hm, List.drop_left, List.take_of_length_le h8, packedByte]

theorem packBits_nil : packBits [] = [] := rfl

/-- The packed bytes are the whole ones and, if there is one, the partial one (R113). -/
theorem packBits_eq (p : List Bool) : packBits p =
    packBits (wholeBytes p) ++ if p.length % 8 = 0 then [] else [packedByte (partialByte p)] := by
  have hlen := partialByte_length p
  split
  · next h =>
    have hnone : partialByte p = [] := List.eq_nil_of_length_eq_zero (hlen.trans h)
    have hall : wholeBytes p = p := by simpa [hnone] using wholeBytes_append_partialByte p
    rw [hall, List.append_nil]
  · next h =>
    rw [← packBits_append (by rw [wholeBytes_length]; omega) (by omega) (by omega), wholeBytes_append_partialByte]

end Sys2Proof.Machine
end

section
/-! SUPPORT. ENC_EMIT's loop: a bit through WriteBit, a codeword, the bytes of the second scan, and the End
(44_encoder.md R158; 41_bitstream.md R114 to R116). -/
namespace Sys2Proof.Machine
variable {s : State}

/-! ### The packer with some bits written -/

/-- The state in which ENC_EMIT has written `bits` since it opened the packer: the whole bytes pushed, the rest in OBUF
(R113, R114). -/
def emitted (bits : List Bool) (s : State) : State :=
  { s with
    emitBits := BitVec.ofNat 64 bits.length
    obuf := packedByte (partialByte bits), ocnt := BitVec.ofNat 3 bits.length
    out := s.out ++ packBits (wholeBytes bits), xferOut := BitVec.ofNat 64 (bits.length / 8)
    pushes := s.pushes + bits.length / 8 }

theorem emitted_ocnt (bits : List Bool) (s : State) : (emitted bits s).ocnt.toNat = bits.length % 8 :=
  BitVec.toNat_ofNat _ _

theorem emitted_ocnt_eq_zero (bits : List Bool) (s : State) : (emitted bits s).ocnt = 0#3 ↔ bits.length % 8 = 0 := by
  rw [← BitVec.toNat_inj, emitted_ocnt]; rfl

theorem emitted_ocnt_eq_seven (bits : List Bool) (s : State) : (emitted bits s).ocnt = 7#3 ↔ bits.length % 8 = 7 := by
  rw [← BitVec.toNat_inj, emitted_ocnt]; rfl

theorem SinkTakesAll.pushed (h : SinkTakesAll s) (bs : List Byte) : SinkTakesAll (pushed bs s) :=
  ⟨h.1, fun k hk => Nat.lt_add_right _ (h.2 k hk)⟩

theorem SinkTakesAll.emitted (h : SinkTakesAll s) (bits : List Bool) : SinkTakesAll (emitted bits s) :=
  ⟨h.1, fun k hk => Nat.lt_add_right _ (h.2 k hk)⟩

theorem SinkTakesAll.answer (h : SinkTakesAll s) : sinkAnswer s = some .ok := (sinkTakes_of_all h 1).answer

/-! ### WriteBit (R114) -/

/-- The bit `b` counted and put into OBUF (R114). -/
def writtenBit (b : Bool) (s : State) : State :=
  { s with emitBits := s.emitBits + 1, obuf := withBit s.obuf s.ocnt b }

theorem writeBits_full {b : Bool} {bits : List Bool} (h : s.ocnt = 7#3) :
    writeBits (b :: bits) s = waitAt (.emitPush bits) (writtenBit b s) := if_pos h

theorem writeBits_partial {b : Bool} {bits : List Bool} (h : s.ocnt ≠ 7#3) :
    writeBits (b :: bits) s = writeBits bits { writtenBit b s with ocnt := s.ocnt + 1 } := if_neg h

/-- Where ENC_EMIT stood does not matter to where it goes on. -/
theorem writeBits_waitAt (bits : List Bool) (p : Position) (s : State) :
    writeBits bits (waitAt p s) = writeBits bits s := by
  induction bits generalizing s with
  | nil => rfl
  | cons b bits ih =>
    by_cases h : s.ocnt = 7#3
    · rw [writeBits_full h, writeBits_full (s := waitAt p s) h]
      rfl
    · rw [writeBits_partial h, writeBits_partial (s := waitAt p s) h]
      exact ih { writtenBit b s with ocnt := s.ocnt + 1 }

theorem withBit_emitted (bits : List Bool) (b : Bool) (s : State) :
    withBit (emitted bits s).obuf (emitted bits s).ocnt b = packedByte (partialByte bits ++ [b]) :=
  withBit_packedByte ((emitted_ocnt bits s).trans (partialByte_length bits).symm) b

theorem ofNat_length_snoc {w : Nat} (bits : List Bool) (b : Bool) :
    BitVec.ofNat w bits.length + 1#w = BitVec.ofNat w (bits ++ [b]).length := by
  rw [List.length_append, List.length_singleton, BitVec.ofNat_add]

/-- A bit that does not fill OBUF. -/
theorem writeBits_emitted_partial {bits : List Bool} (h : bits.length % 8 ≠ 7) (b : Bool) (p : List Bool) (s : State) :
    writeBits (b :: p) (emitted bits s) = writeBits p (emitted (bits ++ [b]) s) := by
  obtain ⟨hwhole, hpartial⟩ := snoc_partial h b
  have hbytes : (bits ++ [b]).length / 8 = bits.length / 8 := by
    rw [List.length_append, List.length_singleton]; omega
  have hocnt : (emitted bits s).ocnt ≠ 7#3 := fun hfull => h ((emitted_ocnt_eq_seven bits s).mp hfull)
  have hbit : ({ writtenBit b (emitted bits s) with ocnt := (emitted bits s).ocnt + 1 } : State) =
      emitted (bits ++ [b]) s := by
    simp only [writtenBit, withBit_emitted]
    simp only [emitted, hwhole, hpartial, hbytes, ← ofNat_length_snoc bits b]
    rfl
  rw [writeBits_partial hocnt, hbit]

/-- A bit that fills OBUF, once the sink has taken its byte. -/
theorem writtenBit_pushed {bits : List Bool} (h : bits.length % 8 = 7) (b : Bool) (s : State) :
    emptyPacker (pushed [(writtenBit b (emitted bits s)).obuf] (writtenBit b (emitted bits s))) =
      emitted (bits ++ [b]) s := by
  obtain ⟨hwhole, hpartial⟩ := snoc_full h b
  have hlen := partialByte_length bits
  have hbytes : (bits ++ [b]).length / 8 = bits.length / 8 + 1 := by
    rw [List.length_append, List.length_singleton]; omega
  have hpacked : packBits (wholeBytes (bits ++ [b])) =
      packBits (wholeBytes bits) ++ [packedByte (partialByte bits ++ [b])] := by
    rw [hwhole, packBits_append (by rw [wholeBytes_length]; omega) (by simp) (by simp; omega)]
  have hocnt : BitVec.ofNat 3 (bits ++ [b]).length = 0#3 := by
    refine BitVec.eq_of_toNat_eq ?_
    rw [BitVec.toNat_ofNat, List.length_append, List.length_singleton, BitVec.toNat_zero]
    omega
  have hobuf : (writtenBit b (emitted bits s)).obuf = packedByte (partialByte bits ++ [b]) := withBit_emitted bits b s
  rw [hobuf]
  simp only [writtenBit, emptyPacker, pushed, emitted, hocnt, hpartial, hpacked, hbytes,
    ← ofNat_length_snoc bits b, BitVec.ofNat_add, List.append_assoc, Nat.add_assoc]
  rfl

/-- The sink takes a full byte, and the rest of the codeword follows (R114). -/
theorem settle_emitPush_ok {bits : List Bool} (hb : s.busy = true) (hsink : SinkTakesAll s)
    (hroom : s.xferOut ≠ BitVec.allOnes 64) :
    settle (waitAt (.emitPush bits) s) = settle (writeBits bits (emptyPacker (pushed [s.obuf] s))) := by
  have hstep := coreStep_emitPush (s := waitAt (.emitPush bits) s) (r := .ok) hb rfl hsink.answer
  rw [pushOut_ok (s := waitAt (.emitPush bits) s) hsink.1 hroom] at hstep
  exact (settle_some hstep).trans
    (congrArg settle (writeBits_waitAt bits (.emitPush bits) (emptyPacker (pushed [s.obuf] s))))

/-- A bit that fills OBUF, whose byte the sink takes. -/
theorem settle_writeBits_full {bits : List Bool} (hb : s.busy = true) (hsink : SinkTakesAll s)
    (h : bits.length % 8 = 7) (hroom : bits.length < 2 ^ 64) (b : Bool) (p : List Bool) :
    settle (writeBits (b :: p) (emitted bits s)) = settle (writeBits p (emitted (bits ++ [b]) s)) := by
  have hocnt : (emitted bits s).ocnt = 7#3 := (emitted_ocnt_eq_seven bits s).mpr h
  have hcount : (emitted bits s).xferOut ≠ BitVec.allOnes 64 := by
    have hxfer : (emitted bits s).xferOut.toNat = bits.length / 8 := toNat_ofNat_of_lt (by omega)
    exact ne_allOnes_of_lt (n := 0) (by omega)
  rw [writeBits_full hocnt, ← writtenBit_pushed h b s]
  exact settle_emitPush_ok (s := writtenBit b (emitted bits s)) hb (hsink.emitted bits) hcount

/-- A whole codeword (R115). -/
theorem settle_writeBits {bits p : List Bool} (hb : s.busy = true) (hsink : SinkTakesAll s)
    (hroom : bits.length + p.length < 2 ^ 64) :
    settle (writeBits p (emitted bits s)) = settle (waitAt .emitPop (emitted (bits ++ p) s)) := by
  induction p generalizing bits with
  | nil => rw [List.append_nil, writeBits]
  | cons b p ih =>
    rw [List.length_cons] at hroom
    have hbit : settle (writeBits (b :: p) (emitted bits s)) = settle (writeBits p (emitted (bits ++ [b]) s)) := by
      by_cases h : bits.length % 8 = 7
      · exact settle_writeBits_full hb hsink h (by omega) b p
      · exact congrArg settle (writeBits_emitted_partial h b p s)
    rw [hbit, ih (by rw [List.length_append, List.length_singleton]; omega), List.append_assoc]
    rfl

/-! ### The second scan (R158) -/

/-- The state after `n` Bytes have been popped and `rest` is left in IN (20_memory.md R53). -/
def taken (n : Nat) (rest : List InElem) (s : State) : State :=
  { s with inCh := rest, xferIn := s.xferIn + BitVec.ofNat 64 n }

theorem taken_zero (s : State) : taken 0 s.inCh s = s := by simp [taken]

theorem taken_taken (m n : Nat) (rest rest' : List InElem) (s : State) :
    taken n rest' (taken m rest s) = taken (m + n) rest' s := by
  simp [taken, BitVec.ofNat_add, BitVec.add_assoc]

theorem taken_one_toNat {rest : List InElem} (h : s.xferIn ≠ BitVec.allOnes 64) :
    (taken 1 rest s).xferIn.toNat = s.xferIn.toNat + 1 := toNat_add_one h

theorem codeword_ne_nil {v : Byte} {p : List Bool} (h : lookupCode s v = some p) : p ≠ [] := by
  unfold lookupCode at h
  split at h
  · cases h
  · next hlen =>
    cases h
    have : (codeLenAt s v).toNat ≠ 0 := fun h0 => hlen (BitVec.eq_of_toNat_eq h0)
    simpa using this

theorem codewordsOf_cons {v : Byte} {p : List Bool} (h : lookupCode s v = some p) (bytes : List Byte) :
    codewordsOf s (v :: bytes) = p ++ codewordsOf s bytes := by
  rw [codewordsOf, List.flatMap_cons, h]
  rfl

/-- Every byte adds at least one bit (R155). -/
theorem length_le_codewordsOf {bytes : List Byte} (h : ∀ b ∈ bytes, lookupCode s b ≠ none) :
    bytes.length ≤ (codewordsOf s bytes).length := by
  induction bytes with
  | nil => exact Nat.zero_le _
  | cons v bytes ih =>
    obtain ⟨p, hp⟩ := Option.ne_none_iff_exists'.mp (h v List.mem_cons_self)
    have hpos := List.length_pos_of_ne_nil (codeword_ne_nil hp)
    have hrest := ih fun b hb => h b (List.mem_cons_of_mem v hb)
    rw [codewordsOf_cons hp, List.length_append, List.length_cons]
    omega

theorem emitElem_codeword {v : Byte} {p : List Bool} (hp : lookupCode s v = some p)
    (hfits : s.emitBits.toNat + p.length ≤ s.payloadBits.toNat) : emitElem (.byte v) s = writeBits p s := by
  simp only [emitElem, hp, if_neg (Nat.not_lt.mpr hfits)]

/-- One Byte of the second scan, and its codeword. -/
theorem settle_emitPop_byte {bits p : List Bool} {v : Byte} {rest : List InElem} (hb : s.busy = true)
    (hsink : SinkTakesAll s) (hin : s.inCh = .byte v :: rest) (hroom : s.xferIn ≠ BitVec.allOnes 64)
    (hp : lookupCode s v = some p) (hfits : bits.length + p.length ≤ s.payloadBits.toNat) :
    settle (waitAt .emitPop (emitted bits s)) = settle (waitAt .emitPop (emitted (bits ++ p) (taken 1 rest s))) := by
  have hlong := s.payloadBits.isLt
  have hpop : popIn (.byte v) rest (waitAt .emitPop (emitted bits s)) =
      waitAt .emitPop (emitted bits (taken 1 rest s)) := popIn_byte hroom
  have hcount : (BitVec.ofNat 64 bits.length).toNat + p.length ≤ s.payloadBits.toNat := by
    rwa [toNat_ofNat_of_lt (by omega)]
  have hword : emitElem (.byte v) (waitAt .emitPop (emitted bits (taken 1 rest s))) =
      writeBits p (waitAt .emitPop (emitted bits (taken 1 rest s))) := emitElem_codeword hp hcount
  have hstep := coreStep_emitPop (s := waitAt .emitPop (emitted bits s)) hb rfl hin
  rw [hpop, hword, writeBits_waitAt] at hstep
  exact (settle_some hstep).trans (settle_writeBits (s := taken 1 rest s) hb hsink (by omega))

/-- The Bytes of the second scan, and their codewords. -/
theorem settle_emitPop_file {bits : List Bool} {bytes : List Byte} {rest : List InElem} (hb : s.busy = true)
    (hsink : SinkTakesAll s) (hin : s.inCh = fileOf bytes ++ rest) (hroom : s.xferIn.toNat + bytes.length < 2 ^ 64)
    (hcodes : ∀ b ∈ bytes, lookupCode s b ≠ none)
    (hfits : bits.length + (codewordsOf s bytes).length ≤ s.payloadBits.toNat) :
    settle (waitAt .emitPop (emitted bits s)) =
      settle (waitAt .emitPop (emitted (bits ++ codewordsOf s bytes) (taken bytes.length rest s))) := by
  induction bytes generalizing s bits with
  | nil =>
    obtain rfl : s.inCh = rest := hin
    rw [codewordsOf, List.flatMap_nil, List.append_nil, List.length_nil, taken_zero]
  | cons v bytes ih =>
    obtain ⟨p, hp⟩ := Option.ne_none_iff_exists'.mp (hcodes v List.mem_cons_self)
    rw [codewordsOf_cons hp, List.length_append] at hfits
    rw [List.length_cons] at hroom
    have hcount : s.xferIn ≠ BitVec.allOnes 64 := ne_allOnes_of_lt hroom
    have hnext := taken_one_toNat (rest := fileOf bytes ++ rest) hcount
    have hrest : (bits ++ p).length + (codewordsOf s bytes).length ≤ s.payloadBits.toNat := by
      rw [List.length_append]; omega
    calc settle (waitAt .emitPop (emitted bits s))
        = settle (waitAt .emitPop (emitted (bits ++ p) (taken 1 (fileOf bytes ++ rest) s))) :=
          settle_emitPop_byte hb hsink hin hcount hp (by omega)
      _ = settle (waitAt .emitPop (emitted (bits ++ p ++ codewordsOf s bytes)
            (taken bytes.length rest (taken 1 (fileOf bytes ++ rest) s)))) :=
          ih (s := taken 1 (fileOf bytes ++ rest) s) hb hsink rfl (by omega)
            (fun b hmem => hcodes b (List.mem_cons_of_mem v hmem)) hrest
      _ = settle (waitAt .emitPop (emitted (bits ++ codewordsOf s (v :: bytes))
            (taken (v :: bytes).length rest s))) := by
          rw [taken_taken, List.append_assoc, codewordsOf_cons hp, Nat.add_comm 1, List.length_cons]

/-! ### The End (R116, R158) -/

/-- The state in which ENC_EMIT has written the payload `bits`, closed the packer and completed. -/
def emitDone (bits : List Bool) (s : State) : State :=
  completeIn .encDone { s with
    emitBits := BitVec.ofNat 64 bits.length, obuf := 0#8, ocnt := 0#3, out := s.out ++ packBits bits
    xferOut := BitVec.ofNat 64 (bytesFor bits.length), pushes := s.pushes + bytesFor bits.length
    statPayload := BitVec.ofNat 64 (bytesFor bits.length) }

theorem settle_emitClose_ok (hb : s.busy = true) (hsink : SinkTakesAll s) (hroom : s.xferOut ≠ BitVec.allOnes 64)
    (hdone : s.emitBits = s.payloadBits) : settle (waitAt .emitClose s) =
      completeIn .encDone { emptyPacker (pushed [s.obuf] s) with statPayload := (pushed [s.obuf] s).xferOut } := by
  have hstep := coreStep_emitClose (s := waitAt .emitClose s) (r := .ok) hb rfl hsink.answer
  have hfinish := emitFinish_done (s := emptyPacker (pushed [s.obuf] (waitAt .emitClose s))) hdone
  rw [pushOut_ok (s := waitAt .emitClose s) hsink.1 hroom] at hstep
  exact (settle_some hstep).trans ((congrArg settle hfinish).trans (settle_idle rfl))

/-- At End the partial byte, if there is one, is pushed, and the payload is complete. -/
theorem settle_emitElem_end {bits : List Bool} (hb : s.busy = true) (hsink : SinkTakesAll s)
    (hbits : s.payloadBits = BitVec.ofNat 64 bits.length) (hroom : bits.length < 2 ^ 64) :
    settle (emitElem .endOfFile (emitted bits s)) = emitDone bits s := by
  have hpacked := packBits_eq bits
  by_cases h : bits.length % 8 = 0
  · have hocnt := (emitted_ocnt_eq_zero bits s).mpr h
    have hzero : BitVec.ofNat 3 bits.length = 0#3 := hocnt
    have hbytes : bytesFor bits.length = bits.length / 8 := by rw [bytesFor]; omega
    have hnone : partialByte bits = [] := List.eq_nil_of_length_eq_zero ((partialByte_length bits).trans h)
    rw [if_pos h, List.append_nil] at hpacked
    rw [emitElem_end_empty hocnt, emitFinish_done hbits.symm, settle_idle rfl]
    simp only [emitDone, hbytes, hpacked, emitted, hnone, hzero]
    rfl
  · have hocnt : (emitted bits s).ocnt ≠ 0#3 := fun h0 => h ((emitted_ocnt_eq_zero bits s).mp h0)
    have hbytes : bytesFor bits.length = bits.length / 8 + 1 := by rw [bytesFor]; omega
    have hcount : (emitted bits s).xferOut ≠ BitVec.allOnes 64 := by
      have hxfer : (emitted bits s).xferOut.toNat = bits.length / 8 := toNat_ofNat_of_lt (by omega)
      exact ne_allOnes_of_lt (n := 0) (by omega)
    rw [if_neg h] at hpacked
    rw [emitElem_end_partial hocnt, settle_emitClose_ok (s := emitted bits s) hb (hsink.emitted bits) hcount hbits.symm]
    simp only [emitDone, hbytes, hpacked, BitVec.ofNat_add, ← List.append_assoc, ← Nat.add_assoc]
    rfl

theorem settle_emitPop_end {bits : List Bool} {rest : List InElem} (hb : s.busy = true) (hsink : SinkTakesAll s)
    (hin : s.inCh = .endOfFile :: rest) (hbits : s.payloadBits = BitVec.ofNat 64 bits.length)
    (hroom : bits.length < 2 ^ 64) :
    settle (waitAt .emitPop (emitted bits s)) = emitDone bits { s with inCh := rest, pos := .emitPop } :=
  (settle_some (coreStep_emitPop (s := waitAt .emitPop (emitted bits s)) hb rfl hin)).trans
    (settle_emitElem_end (s := { s with inCh := rest, pos := .emitPop }) hb hsink hbits hroom)

theorem openPacker_eq_emitted (h : s.xferOut = 0#64) : openPacker s = emitted [] s := by
  simp [openPacker, emitted, wholeBytes, partialByte, packBits_nil, packedByte, bitsValue, ← h]

/-- The program of ENC_EMIT over a second scan that fits, run on: from the opened packer the loop emits the codewords of
the scan, and the End closes it. -/
theorem exec_encEmit_scan {bytes : List Byte} {rest : List InElem} (hready : Ready .encEmit s)
    (heager : s.eager = true) (hsink : SinkTakesAll s) (hin : s.inCh = fileOf bytes ++ .endOfFile :: rest)
    (hcodes : ∀ b ∈ bytes, lookupCode s b ≠ none) (hlen : s.payloadBits.toNat = (codewordsOf s bytes).length) :
    exec .encEmit s = .next (emitDone (codewordsOf s bytes)
      { taken bytes.length rest (accept 0x13#8 s) with pos := .emitPop }) := by
  have hbits := s.payloadBits.isLt
  have hbytes := length_le_codewordsOf hcodes
  have hpayload : s.payloadBits = BitVec.ofNat 64 (codewordsOf s bytes).length := by
    rw [← hlen, BitVec.ofNat_toNat, BitVec.setWidth_eq]
  have hroom : (accept 0x13#8 s).xferIn.toNat + bytes.length < 2 ^ 64 := by
    rw [accept_xferIn, BitVec.toNat_zero]
    omega
  have hfits : ([] : List Bool).length + (codewordsOf s bytes).length ≤ s.payloadBits.toNat := by
    rw [List.length_nil]; omega
  have hscan := settle_emitPop_file (s := accept 0x13#8 s) (bits := []) rfl hsink hin hroom hcodes hfits
  have hend := settle_emitPop_end (s := taken bytes.length (.endOfFile :: rest) (accept 0x13#8 s))
    (bits := codewordsOf s bytes) rfl hsink rfl hpayload (by omega)
  rw [exec_encEmit hready heager, openPacker_eq_emitted rfl]
  exact congrArg Host.Outcome.next (hscan.trans hend)

/-- Settles O41, register by register. -/
theorem encEmitPacks : Obligations.EncEmitPacks := by
  intro s bytes rest hready heager hsink hin hcodes hlen
  rw [exec_encEmit_scan hready heager hsink hin hcodes hlen]
  generalize codewordsOf s bytes = bits at hlen ⊢
  conv_rhs => rw [eq_with_busy_false hready.1]
  simp [emitDone, ← hlen, taken, accept, completeIn, complete]

end Sys2Proof.Machine
end

section
/-! SUPPORT. DEC_HEADER over a whole header: a field of eight bytes, an entry, all entries, and the program
(45_decoder.md R173, R174, R176). -/
namespace Sys2Proof.Machine
variable {s : State}

/-! ### A field of eight bytes (R173) -/

/-- At the positions `P` the core collects the eight bytes of a field, and goes on with `done` when it has them. -/
def ReadsField (P : List Byte → Position) (done : List Byte → State → State) : Prop :=
  ∀ (got : List Byte) (v : Byte) (rest : List InElem) (s : State), s.busy = true → s.inCh = .byte v :: rest →
    s.xferIn ≠ BitVec.allOnes 64 →
    coreStep (waitAt (P got) s) = some
      (if got.length < 7 then waitAt (P (got ++ [v])) (taken 1 rest s) else done (got ++ [v]) (taken 1 rest s))

/-- The bytes of a field that come before its last. -/
theorem ReadsField.settle_bytes {P : List Byte → Position} {done : List Byte → State → State}
    (h : ReadsField P done) {got bs : List Byte} {rest : List InElem} (hb : s.busy = true)
    (hin : s.inCh = fileOf bs ++ rest) (hroom : s.xferIn.toNat + bs.length < 2 ^ 64)
    (hlen : got.length + bs.length ≤ 7) :
    settle (waitAt (P got) s) = settle (waitAt (P (got ++ bs)) (taken bs.length rest s)) := by
  induction bs generalizing got s with
  | nil =>
    obtain rfl : s.inCh = rest := hin
    rw [List.append_nil, List.length_nil, taken_zero]
  | cons v bs ih =>
    rw [List.length_cons] at hroom hlen
    have hcount : s.xferIn ≠ BitVec.allOnes 64 := ne_allOnes_of_lt hroom
    have hnext := taken_one_toNat (rest := fileOf bs ++ rest) hcount
    have hstep := h got v (fileOf bs ++ rest) s hb hin hcount
    rw [if_pos (by omega)] at hstep
    calc settle (waitAt (P got) s)
        = settle (waitAt (P (got ++ [v])) (taken 1 (fileOf bs ++ rest) s)) := settle_some hstep
      _ = settle (waitAt (P (got ++ [v] ++ bs)) (taken bs.length rest (taken 1 (fileOf bs ++ rest) s))) :=
          ih (s := taken 1 (fileOf bs ++ rest) s) hb rfl (by omega)
            (by rw [List.length_append, List.length_singleton]; omega)
      _ = settle (waitAt (P (got ++ v :: bs)) (taken (v :: bs).length rest s)) := by
          rw [taken_taken, List.append_assoc, Nat.add_comm 1]
          rfl

/-- A whole field. -/
theorem ReadsField.settle_field {P : List Byte → Position} {done : List Byte → State → State}
    (h : ReadsField P done) {bs : List Byte} {rest : List InElem} (hb : s.busy = true)
    (hin : s.inCh = fileOf bs ++ rest) (hroom : s.xferIn.toNat + 8 < 2 ^ 64) (hlen : bs.length = 8) :
    settle (waitAt (P []) s) = settle (done bs (taken 8 rest s)) := by
  obtain ⟨front, v, rfl⟩ : ∃ front v, bs = front ++ [v] :=
    ⟨_, _, (List.dropLast_concat_getLast (List.ne_nil_of_length_pos (by omega))).symm⟩
  have hfront : front.length = 7 := by
    rw [List.length_append, List.length_singleton] at hlen; omega
  have hsplit : s.inCh = fileOf front ++ .byte v :: rest := by
    rw [hin, fileOf, fileOf, List.map_append, List.append_assoc]; rfl
  have hcount : (taken front.length (.byte v :: rest) s).xferIn ≠ BitVec.allOnes 64 := by
    refine ne_allOnes_of_lt (n := 0) ?_
    have : (s.xferIn + BitVec.ofNat 64 7).toNat = s.xferIn.toNat + 7 := by bv_omega
    rw [taken, hfront]
    show (s.xferIn + BitVec.ofNat 64 7).toNat + _ < _
    omega
  have hstep := h front v rest (taken front.length (.byte v :: rest) s) hb rfl hcount
  rw [if_neg (by omega), taken_taken, hfront] at hstep
  calc settle (waitAt (P []) s)
      = settle (waitAt (P front) (taken front.length (.byte v :: rest) s)) :=
        h.settle_bytes hb hsplit (by omega) (by rw [List.length_nil]; omega)
    _ = settle (done (front ++ [v]) (taken 8 rest s)) := settle_some (hfront ▸ hstep)

/-! ### The fields of the header (R174) -/

theorem popIn_byte_waitAt {v : Byte} {rest : List InElem} {p : Position} (h : s.xferIn ≠ BitVec.allOnes 64) :
    popIn (.byte v) rest (waitAt p s) = waitAt p (taken 1 rest s) := popIn_byte h

/-- DEC_HEADER goes on with `payload_bit_length`, then asks for frequency_count. -/
def lenDone (bs : List Byte) (s : State) : State := waitAt (.decCount []) { s with payloadBits := fromLE64 bs }

theorem decLenByte_eq (got : List Byte) (v : Byte) (s : State) : decLenByte got v s =
    if got.length < 7 then waitAt (.decLen (got ++ [v])) s else lenDone (got ++ [v]) s := rfl

theorem readsField_decLen : ReadsField .decLen lenDone := by
  intro got v rest s hb hin hroom
  have hw : awaited (waitAt (.decLen got) s) = .pop := by simp [awaited, hb]
  rw [coreStep_pop hw hin, popIn_byte_waitAt hroom]
  have hafter : afterPop (.byte v) (waitAt (.decLen got) (taken 1 rest s)) =
      decLenByte got v (waitAt (.decLen got) (taken 1 rest s)) := by cases got <;> rfl
  rw [hafter, decLenByte_eq]
  rfl

theorem decCountDone_waitAt (n : Nat) (p : Position) (s : State) :
    decCountDone n (waitAt p s) = decCountDone n s := by
  unfold decCountDone
  split <;> rfl

theorem readsField_decCount : ReadsField .decCount fun bs => decCountDone (bytesToNat bs) := by
  intro got v rest s hb hin hroom
  have hw : awaited (waitAt (.decCount got) s) = .pop := by simp [awaited, hb]
  rw [coreStep_pop hw hin, popIn_byte_waitAt hroom]
  beta_reduce
  rw [← decCountDone_waitAt _ (.decCount got)]
  rfl

theorem decEntryDone_waitAt (i : Nat) (sym : Byte) (c : Word) (p : Position) (s : State) :
    decEntryDone i sym c (waitAt p s) = decEntryDone i sym c s := by
  have hseqN : (setSeqEntry i sym c (waitAt p s)).seqN = (setSeqEntry i sym c s).seqN := rfl
  simp only [decEntryDone, hseqN]
  split <;> rfl

theorem readsField_decCnt (i : Nat) (sym : Byte) :
    ReadsField (.decCnt i sym) fun bs => decEntryDone i sym (fromLE64 bs) := by
  intro got v rest s hb hin hroom
  have hw : awaited (waitAt (.decCnt i sym got) s) = .pop := by simp [awaited, hb]
  rw [coreStep_pop hw hin, popIn_byte_waitAt hroom]
  beta_reduce
  rw [← decEntryDone_waitAt _ _ _ (.decCnt i sym got)]
  rfl

/-! ### The entries (R174, R176) -/

/-- One entry: its byte value, then its count. -/
theorem settle_decEntry {i : Nat} {e : Byte × Word} {rest : List InElem} (hb : s.busy = true)
    (hin : s.inCh = fileOf (entryBytes e) ++ rest) (hroom : s.xferIn.toNat + 9 < 2 ^ 64) :
    settle (waitAt (.decSym i) s) = settle (decEntryDone i e.1 e.2 (taken 9 rest s)) := by
  have hcount : s.xferIn ≠ BitVec.allOnes 64 := ne_allOnes_of_lt (n := 8) hroom
  have hw : awaited (waitAt (.decSym i) s) = .pop := by simp [awaited, hb]
  have hstep : coreStep (waitAt (.decSym i) s) =
      some (waitAt (.decCnt i e.1 []) (taken 1 (fileOf (le64 e.2) ++ rest) s)) := by
    rw [coreStep_pop hw hin, popIn_byte_waitAt hcount]
    rfl
  have hnext := taken_one_toNat (rest := fileOf (le64 e.2) ++ rest) hcount
  have hfield := (readsField_decCnt i e.1).settle_field (s := taken 1 (fileOf (le64 e.2) ++ rest) s) hb rfl (by omega)
    (le64_length e.2)
  rw [fromLE64_le64, taken_taken] at hfield
  exact (settle_some hstep).trans hfield

/-- After an entry that is not the last DEC_HEADER asks for the next. -/
theorem decEntryDone_more {i : Nat} {sym : Byte} {c : Word} (h : i + 1 < s.seqN.toNat) :
    decEntryDone i sym c s = waitAt (.decSym (i + 1)) (setSeqEntry i sym c s) := if_pos h

theorem decEntryDone_last {i : Nat} {sym : Byte} {c : Word} (h : s.seqN = BitVec.ofNat 9 (i + 1))
    (h256 : i + 1 ≤ 256) : decEntryDone i sym c s = decHeaderFinish (writeSeq [(sym, c)] i s) := by
  have hlast : ¬ i + 1 < s.seqN.toNat := by
    rw [h, BitVec.toNat_ofNat]; omega
  have hfinish : decEntryDone i sym c s = decHeaderFinish (setSeqEntry i sym c s) := if_neg hlast
  have hwrite : writeSeq [(sym, c)] i s = { setSeqEntry i sym c s with seqN := BitVec.ofNat 9 (i + 1) } := rfl
  rw [hfinish, hwrite, ← h]
  rfl

/-- The entries from number `i` on, to the end of the header. -/
theorem settle_decEntries {i : Nat} {e : Byte × Word} {es : List (Byte × Word)} {rest : List InElem}
    (hb : s.busy = true) (hin : s.inCh = fileOf ((e :: es).flatMap entryBytes) ++ rest)
    (hroom : s.xferIn.toNat + 9 * (es.length + 1) < 2 ^ 64) (hseqN : s.seqN = BitVec.ofNat 9 (i + (es.length + 1)))
    (h256 : i + (es.length + 1) ≤ 256) :
    settle (waitAt (.decSym i) s) = decHeaderFinish (writeSeq (e :: es) i (taken (9 * (es.length + 1)) rest s)) := by
  induction es generalizing i e s with
  | nil =>
    have hin' : s.inCh = fileOf (entryBytes e) ++ rest := hin
    rw [settle_decEntry hb hin' hroom, decEntryDone_last (s := taken 9 rest s) hseqN h256, settle_idle rfl]
    rfl
  | cons e' es ih =>
    rw [List.length_cons] at hroom hseqN h256
    generalize hnext : fileOf ((e' :: es).flatMap entryBytes) ++ rest = next
    have hin' : s.inCh = fileOf (entryBytes e) ++ next := by
      rw [hin, ← hnext, List.flatMap_cons, fileOf, List.map_append, List.append_assoc]
      rfl
    have hmore : i + 1 < (taken 9 next s).seqN.toNat := by
      rw [show (taken 9 next s).seqN = s.seqN from rfl, hseqN, BitVec.toNat_ofNat]; omega
    have htaken : (taken 9 next s).xferIn.toNat = s.xferIn.toNat + 9 := by
      show (s.xferIn + BitVec.ofNat 64 9).toNat = _
      bv_omega
    have hlater := ih (i := i + 1) (e := e') (s := setSeqEntry i e.1 e.2 (taken 9 next s)) hb hnext.symm
      (by rw [setSeqEntry_xferIn]; omega) (hseqN.trans (congrArg _ (by omega))) (by omega)
    have hwrites : taken (9 * (es.length + 1)) rest (setSeqEntry i e.1 e.2 (taken 9 next s)) =
        setSeqEntry i e.1 e.2 (taken (9 * (es.length + 1 + 1)) rest s) := by
      rw [show 9 * (es.length + 1 + 1) = 9 + 9 * (es.length + 1) by omega, ← taken_taken 9 _ next]
      rfl
    rw [settle_decEntry hb hin' (by omega), decEntryDone_more hmore, hlater, hwrites]
    rfl

/-! ### The program -/

theorem decCountDone_ok {n : Nat} (h1 : 1 ≤ n) (h256 : n ≤ 256) :
    decCountDone n s = waitAt (.decSym 0) { s with seqN := BitVec.ofNat 9 n } :=
  if_neg fun h => by
    have hmax : Config.maxLeaves = 256 := rfl
    omega

/-- The two fields in front of the entries (R173, R174). -/
theorem settle_decFront {bitLength : Word} {n : Nat} {rest : List InElem} (hb : s.busy = true)
    (hin : s.inCh = fileOf (le64 bitLength) ++ (fileOf (le64 (BitVec.ofNat 64 n)) ++ rest))
    (hroom : s.xferIn.toNat + 16 < 2 ^ 64) (h1 : 1 ≤ n) (h256 : n ≤ 256) :
    settle (waitAt (.decLen []) s) = settle (waitAt (.decSym 0)
      { taken 16 rest s with payloadBits := bitLength, seqN := BitVec.ofNat 9 n }) := by
  generalize hcount : fileOf (le64 (BitVec.ofNat 64 n)) ++ rest = countIn at hin
  have htaken : (taken 8 countIn s).xferIn.toNat = s.xferIn.toNat + 8 := by
    show (s.xferIn + BitVec.ofNat 64 8).toNat = _
    bv_omega
  have hlen := readsField_decLen.settle_field hb hin (by omega) (le64_length bitLength)
  have hnum := readsField_decCount.settle_field (s := { taken 8 countIn s with payloadBits := bitLength }) hb
    hcount.symm (show (taken 8 countIn s).xferIn.toNat + 8 < 2 ^ 64 by omega) (le64_length (BitVec.ofNat 64 n))
  rw [lenDone, fromLE64_le64] at hlen
  rw [bytesToNat_le64, toNat_ofNat_of_lt (by omega), decCountDone_ok h1 h256] at hnum
  calc settle (waitAt (.decLen []) s)
      = settle (waitAt (.decCount []) { taken 8 countIn s with payloadBits := bitLength }) := hlen
    _ = settle (waitAt (.decSym 0)
          { taken 8 rest (taken 8 countIn s) with payloadBits := bitLength, seqN := BitVec.ofNat 9 n }) := hnum
    _ = settle (waitAt (.decSym 0) { taken 16 rest s with payloadBits := bitLength, seqN := BitVec.ofNat 9 n }) := by
        rw [taken_taken]

/-- The state in which DEC_HEADER has read a header of R77 from the front of IN, before it completes. -/
def headerRead (bitLength : Word) (entries : List (Byte × Word)) (rest : List InElem) (s : State) : State :=
  writeSeq entries 0 { taken (16 + 9 * entries.length) rest s with
    payloadBits := bitLength, seqN := BitVec.ofNat 9 entries.length }

/-- A whole header with 1 to 256 entries (R176). -/
theorem settle_decHeader {bitLength : Word} {entries : List (Byte × Word)} {rest : List InElem} (hb : s.busy = true)
    (hin : s.inCh = fileOf (headerImage bitLength entries) ++ rest) (hx : s.xferIn = 0#64)
    (h1 : 1 ≤ entries.length) (h256 : entries.length ≤ 256) :
    settle (waitAt (.decLen []) s) = decHeaderFinish (headerRead bitLength entries rest s) := by
  obtain ⟨e, es, rfl⟩ := List.exists_cons_of_length_pos h1
  generalize hentries : fileOf ((e :: es).flatMap entryBytes) ++ rest = entriesIn
  have hin' : s.inCh = fileOf (le64 bitLength) ++ (fileOf (le64 (BitVec.ofNat 64 (e :: es).length)) ++ entriesIn) := by
    rw [hin, headerImage_eq, ← hentries, fileOf, List.map_append, List.map_append, List.append_assoc, List.append_assoc]
    rfl
  have hx0 : s.xferIn.toNat = 0 := congrArg BitVec.toNat hx
  have hfront := settle_decFront hb hin' (by omega) h1 h256
  generalize hu : ({ taken 16 entriesIn s with
    payloadBits := bitLength, seqN := BitVec.ofNat 9 (e :: es).length } : State) = u at hfront
  have hux : u.xferIn.toNat = 16 := by
    rw [← hu]
    show (s.xferIn + BitVec.ofNat 64 16).toNat = 16
    rw [hx]
    rfl
  have hread : taken (9 * (es.length + 1)) rest u =
      { taken (16 + 9 * (e :: es).length) rest s with
        payloadBits := bitLength, seqN := BitVec.ofNat 9 (e :: es).length } := by
    rw [← hu, List.length_cons, ← taken_taken 16 (9 * (es.length + 1)) entriesIn]
    rfl
  rw [List.length_cons] at h256
  have hlater := settle_decEntries (s := u) (i := 0) (e := e) (es := es) (rest := rest) (hu ▸ hb)
    (by rw [← hu, hentries]; rfl) (by omega) (by rw [← hu, Nat.zero_add]; rfl) (by omega)
  rw [hfront, hlater, hread, headerRead]

/-- DEC_HEADER of a header with 1 to 256 entries, run on, reads it to its end and completes (R176, R177). -/
theorem exec_decHeader {bitLength : Word} {entries : List (Byte × Word)} {rest : List InElem}
    (hready : Ready .decHeader s) (heager : s.eager = true) (h1 : 1 ≤ entries.length) (h256 : entries.length ≤ 256)
    (hin : s.inCh = fileOf (headerImage bitLength entries) ++ rest) :
    exec .decHeader s =
      .next (decHeaderFinish (headerRead bitLength entries rest (implicitClear (accept 0x20#8 s)))) := by
  rw [exec_ready hready, programOf_eq_settle .decHeader (s := accept _ s) heager]
  exact congrArg Host.Outcome.next (settle_decHeader (s := implicitClear (accept 0x20#8 s)) rfl hin rfl h1 h256)

end Sys2Proof.Machine
end

section
/-! SUPPORT. DEC_PAYLOAD's loop: the refill, one bit, a root-to-leaf path, and a whole payload (45_decoder.md R181 to
R187; 41_bitstream.md R118). -/
namespace Sys2Proof.Machine

section
variable {s : State} {b : Bool} {bits : List Bool} {c : NodeId}

/-! ### One turn of the loop (R181, R183) -/

theorem payloadResume_done (h : s.bitsLeft = 0#64) : payloadResume s = payloadEnd s := by
  unfold payloadResume
  cases unreadBits s <;> exact if_pos h

theorem payloadResume_exhausted (h : s.bitsLeft ≠ 0#64) (hbits : unreadBits s = []) :
    payloadResume s = waitAt .payloadPop s := by
  rw [payloadResume, hbits]
  exact if_neg h

theorem payloadLoop_bit (h : s.bitsLeft ≠ 0#64) (hgo : go s s.cur b = some c) :
    payloadLoop (b :: bits) s =
      if (nodeAt s c).type = .leaf then
        waitAt (.payloadPush (nodeAt s c).sym) { s with ipos := s.ipos + 1, bitsLeft := s.bitsLeft - 1 }
      else payloadLoop bits { s with ipos := s.ipos + 1, bitsLeft := s.bitsLeft - 1, cur := c } := by
  have hgo' : go (advanceUnpacker s) (advanceUnpacker s).cur b = some c := hgo
  simp only [payloadLoop, if_neg h, hgo']
  rfl

/-- A bit that leads to a LEAF makes the core offer its byte value (R183). -/
theorem payloadResume_leaf (h : s.bitsLeft ≠ 0#64) (hbits : unreadBits s = b :: bits) (hgo : go s s.cur b = some c)
    (hleaf : (nodeAt s c).type = .leaf) : payloadResume s =
      waitAt (.payloadPush (nodeAt s c).sym) { s with ipos := s.ipos + 1, bitsLeft := s.bitsLeft - 1 } := by
  rw [payloadResume, hbits, payloadLoop_bit h hgo, if_pos hleaf]

/-- A bit that leads to an INTERNAL node moves CUR there (R183). -/
theorem payloadResume_inner (h : s.bitsLeft ≠ 0#64) (hbits : unreadBits s = b :: bits) (hgo : go s s.cur b = some c)
    (hinner : (nodeAt s c).type ≠ .leaf) : payloadResume s =
      payloadResume { s with ipos := s.ipos + 1, bitsLeft := s.bitsLeft - 1, cur := c } := by
  rw [payloadResume, hbits, payloadLoop_bit h hgo, if_neg hinner, payloadResume,
    advance_unread hbits { s with ipos := s.ipos + 1, bitsLeft := s.bitsLeft - 1, cur := c } rfl rfl]

/-- Where DEC_PAYLOAD stood does not matter to where it goes on. -/
theorem payloadLoop_waitAt (bits : List Bool) (p : Position) (s : State) :
    payloadLoop bits (waitAt p s) = payloadLoop bits s := by
  have hend : ∀ u : State, payloadEnd (waitAt p u) = payloadEnd u := fun u => by
    unfold payloadEnd
    split
    · next h => rw [if_pos (show u.cur = u.root from h)]; rfl
    · next h => rw [if_neg (show u.cur ≠ u.root from h)]; rfl
  induction bits generalizing s with
  | nil =>
    simp only [payloadLoop, waitAt_bitsLeft, hend]
    rfl
  | cons b bits ih =>
    simp only [payloadLoop, waitAt_bitsLeft, hend]
    congr 1
    have hgo : go (advanceUnpacker (waitAt p s)) (advanceUnpacker (waitAt p s)).cur b =
      go (advanceUnpacker s) (advanceUnpacker s).cur b := rfl
    rw [hgo]
    cases go (advanceUnpacker s) (advanceUnpacker s).cur b with
    | none => rfl
    | some c => exact congrArg (ite _ _) (ih { advanceUnpacker s with bitsLeft := s.bitsLeft - 1, cur := c })

theorem payloadResume_waitAt (p : Position) (s : State) : payloadResume (waitAt p s) = payloadResume s :=
  payloadLoop_waitAt _ p s

/-! ### The two interaction points -/

/-- The unpacker takes the next byte of the payload (R118). -/
theorem settle_payloadPop_byte {v : Byte} {rest : List InElem} (hb : s.busy = true) (hin : s.inCh = .byte v :: rest)
    (hroom : s.xferIn ≠ BitVec.allOnes 64) :
    settle (waitAt .payloadPop s) = settle (payloadResume (refillUnpacker v (taken 1 rest s))) := by
  have hstep := coreStep_payloadPop (s := waitAt .payloadPop s) hb rfl hin
  rw [popIn_byte_waitAt hroom] at hstep
  exact (settle_some hstep).trans
    (congrArg settle (payloadResume_waitAt .payloadPop (refillUnpacker v (taken 1 rest s))))

/-- The sink takes a decoded byte, and the walk starts again at ROOT (R183). -/
theorem settle_payloadPush_ok {sym : Byte} (hb : s.busy = true) (hsink : SinkTakesAll s)
    (hroom : s.xferOut ≠ BitVec.allOnes 64) :
    settle (waitAt (.payloadPush sym) s) = settle (payloadResume { pushed [sym] s with cur := s.root }) := by
  have hstep := coreStep_payloadPush (s := waitAt (.payloadPush sym) s) (r := .ok) hb rfl hsink.answer
  rw [pushOut_ok (s := waitAt (.payloadPush sym) s) hsink.1 hroom] at hstep
  exact (settle_some hstep).trans
    (congrArg settle (payloadResume_waitAt (.payloadPush sym) { pushed [sym] s with cur := s.root }))

end

/-! ### The bits of a payload -/

section
variable {s : State} {payload : List Byte} {rest : List InElem}

/-- Bit `k` of the payload (20_memory.md R52). -/
def payloadBit (payload : List Byte) (k : Nat) : Option Bool := payload[k / 8]?.map fun v => v.getLsbD (k % 8)

/-- The bits `p` stand in the payload from bit `k` on. -/
def BitsAt (payload : List Byte) (k : Nat) (p : List Bool) : Prop :=
  ∀ j b, p[j]? = some b → payloadBit payload (k + j) = some b

theorem BitsAt.head {k : Nat} {b : Bool} {p : List Bool} (h : BitsAt payload k (b :: p)) :
    payloadBit payload k = some b := h 0 b rfl

theorem BitsAt.append {k : Nat} {p q : List Bool} (h : BitsAt payload k (p ++ q)) :
    BitsAt payload k p ∧ BitsAt payload (k + p.length) q := by
  refine ⟨fun j b hj => h j b ?_, fun j b hj => ?_⟩
  · rw [List.getElem?_append_left (List.getElem?_eq_some_iff.mp hj).1, hj]
  · rw [Nat.add_assoc]
    exact h _ b (by rw [List.getElem?_append_right (Nat.le_add_right _ _), Nat.add_sub_cancel_left, hj])

theorem BitsAt.tail {k : Nat} {b : Bool} {p : List Bool} (h : BitsAt payload k (b :: p)) :
    BitsAt payload (k + 1) p := (BitsAt.append (p := [b]) h).2

/-- DEC_PAYLOAD has read `k` bits of the payload, pushed `outs` and stands at node `c` (R118, R181). -/
def walkAt (payload : List Byte) (rest : List InElem) (k : Nat) (outs : List Byte) (c : NodeId) (s : State) : State :=
  { s with
    inCh := fileOf (payload.drop (bytesFor k)) ++ rest, xferIn := BitVec.ofNat 64 (bytesFor k)
    ibuf := (0#8 :: payload).getD (bytesFor k) 0#8, ipos := BitVec.ofNat 4 (8 - (8 * bytesFor k - k))
    bitsLeft := s.payloadBits - BitVec.ofNat 64 k, cur := c
    out := s.out ++ outs, xferOut := BitVec.ofNat 64 outs.length, pushes := s.pushes + outs.length }

/-- The same with bit `k` in IBUF, at IPOS (R118). -/
def bitReady (payload : List Byte) (rest : List InElem) (k : Nat) (outs : List Byte) (c : NodeId) (s : State) : State :=
  { walkAt payload rest k outs c s with
    inCh := fileOf (payload.drop (k / 8 + 1)) ++ rest, xferIn := BitVec.ofNat 64 (k / 8 + 1)
    ibuf := payload.getD (k / 8) 0#8, ipos := BitVec.ofNat 4 (k % 8) }

theorem bitReady_unread {k : Nat} {b : Bool} (hbit : payloadBit payload k = some b) (outs : List Byte) (c : NodeId) :
    ∃ bits, unreadBits (bitReady payload rest k outs c s) = b :: bits := by
  have hpos : (BitVec.ofNat 4 (k % 8)).toNat = k % 8 := by rw [BitVec.toNat_ofNat]; omega
  have hb : (payload.getD (k / 8) 0#8).getLsbD (k % 8) = b := by
    obtain ⟨v, hv, rfl⟩ := Option.map_eq_some_iff.mp hbit
    rw [List.getD_eq_getElem?_getD, hv, Option.getD_some]
  have hunread : unreadBits (bitReady payload rest k outs c s) =
      ((List.range 8).drop (BitVec.ofNat 4 (k % 8)).toNat).map fun i => (payload.getD (k / 8) 0#8).getLsbD i := rfl
  rw [hunread, hpos, List.drop_eq_getElem_cons (by rw [List.length_range]; omega), List.map_cons,
    List.getElem_range, hb]
  exact ⟨_, rfl⟩

theorem bitReady_advance (k : Nat) (outs : List Byte) (c c' : NodeId) (s : State) :
    ({ bitReady payload rest k outs c s with
      ipos := (bitReady payload rest k outs c s).ipos + 1
      bitsLeft := (bitReady payload rest k outs c s).bitsLeft - 1, cur := c' } : State) =
      walkAt payload rest (k + 1) outs c' s := by
  have hbytes : bytesFor (k + 1) = k / 8 + 1 := by rw [bytesFor]; omega
  have hpos : 8 - (8 * (k / 8 + 1) - (k + 1)) = k % 8 + 1 := by omega
  have hleft : s.payloadBits - BitVec.ofNat 64 k - 1 = s.payloadBits - (BitVec.ofNat 64 k + 1#64) := by bv_omega
  simp only [bitReady, walkAt, hbytes, hpos, List.getD_cons_succ, hleft, BitVec.ofNat_add]
  rfl

/-- BITS_LEFT counts the bits of the payload that are not yet read (R181). -/
theorem bitsLeft_ne_zero {k : Nat} (hk : k < s.payloadBits.toNat) : s.payloadBits - BitVec.ofNat 64 k ≠ 0#64 := by
  have hlong := s.payloadBits.isLt
  have hcount : (BitVec.ofNat 64 k).toNat = k := toNat_ofNat_of_lt (by omega)
  intro hzero
  bv_omega

/-- The unpacker gets the bit ready: it has it, or it takes the next byte (R118). -/
theorem settle_bitReady {k : Nat} {outs : List Byte} {c : NodeId} {b : Bool} (hb : s.busy = true)
    (hbit : payloadBit payload k = some b) (hk : k < s.payloadBits.toNat) :
    settle (payloadResume (walkAt payload rest k outs c s)) =
      settle (payloadResume (bitReady payload rest k outs c s)) := by
  have hlong := s.payloadBits.isLt
  by_cases h : k % 8 = 0
  · have hbytes : bytesFor k = k / 8 := by rw [bytesFor]; omega
    obtain ⟨v, hv, -⟩ := Option.map_eq_some_iff.mp hbit
    obtain ⟨hlt, hget⟩ := List.getElem?_eq_some_iff.mp hv
    have hnone : unreadBits (walkAt payload rest k outs c s) = [] := by
      refine List.eq_nil_of_length_eq_zero ?_
      rw [unreadBits_length]
      show 8 - (BitVec.ofNat 4 (8 - (8 * bytesFor k - k))).toNat = 0
      rw [hbytes, show 8 - (8 * (k / 8) - k) = 8 by omega]
      rfl
    have hin : (walkAt payload rest k outs c s).inCh = .byte v :: (fileOf (payload.drop (k / 8 + 1)) ++ rest) := by
      show fileOf (payload.drop (bytesFor k)) ++ rest = _
      rw [hbytes, List.drop_eq_getElem_cons hlt, hget]
      rfl
    have hroom : (walkAt payload rest k outs c s).xferIn ≠ BitVec.allOnes 64 := by
      have hx : (walkAt payload rest k outs c s).xferIn.toNat = bytesFor k := toNat_ofNat_of_lt (by omega)
      exact ne_allOnes_of_lt (n := 0) (by omega)
    rw [payloadResume_exhausted (bitsLeft_ne_zero hk) hnone,
      settle_payloadPop_byte (s := walkAt payload rest k outs c s) hb hin hroom]
    congr 2
    simp only [refillUnpacker, taken, bitReady, walkAt, hbytes, h, List.getD_eq_getElem?_getD, hv, BitVec.ofNat_add]
    rfl
  · have hbytes : bytesFor k = k / 8 + 1 := by rw [bytesFor]; omega
    have hsame : walkAt payload rest k outs c s = bitReady payload rest k outs c s := by
      have hpos : 8 - (8 * (k / 8 + 1) - k) = k % 8 := by omega
      simp only [bitReady, walkAt, hbytes, hpos, List.getD_cons_succ]
    rw [hsame]

/-- One bit, to an INTERNAL node. -/
theorem settle_walk_inner {k : Nat} {outs : List Byte} {c c' : NodeId} {b : Bool} (hb : s.busy = true)
    (hbit : payloadBit payload k = some b) (hk : k < s.payloadBits.toNat) (hgo : go s c b = some c')
    (hinner : (nodeAt s c').type ≠ .leaf) :
    settle (payloadResume (walkAt payload rest k outs c s)) =
      settle (payloadResume (walkAt payload rest (k + 1) outs c' s)) := by
  obtain ⟨bits, hbits⟩ := bitReady_unread (s := s) (rest := rest) hbit outs c
  have hstep : payloadResume (bitReady payload rest k outs c s) = payloadResume _ :=
    payloadResume_inner (bitsLeft_ne_zero hk) hbits hgo hinner
  rw [settle_bitReady hb hbit hk, hstep, bitReady_advance]

/-- One bit, to a LEAF, whose byte value the sink takes. -/
theorem settle_walk_leaf {k : Nat} {outs : List Byte} {c c' : NodeId} {b : Bool} (hb : s.busy = true)
    (hsink : SinkTakesAll s) (hbit : payloadBit payload k = some b) (hk : k < s.payloadBits.toNat)
    (houts : outs.length ≤ k) (hgo : go s c b = some c') (hleaf : (nodeAt s c').type = .leaf) :
    settle (payloadResume (walkAt payload rest k outs c s)) =
      settle (payloadResume (walkAt payload rest (k + 1) (outs ++ [(nodeAt s c').sym]) s.root s)) := by
  have hlong := s.payloadBits.isLt
  obtain ⟨bits, hbits⟩ := bitReady_unread (s := s) (rest := rest) hbit outs c
  have hroom : (walkAt payload rest (k + 1) outs c s).xferOut ≠ BitVec.allOnes 64 := by
    have hx : (walkAt payload rest (k + 1) outs c s).xferOut.toNat = outs.length := toNat_ofNat_of_lt (by omega)
    exact ne_allOnes_of_lt (n := 0) (by omega)
  have hall : SinkTakesAll (walkAt payload rest (k + 1) outs c s) :=
    ⟨hsink.1, fun j hj => Nat.lt_add_right _ (hsink.2 j hj)⟩
  have hpushed : ({ pushed [(nodeAt s c').sym] (walkAt payload rest (k + 1) outs c s) with cur := s.root } : State) =
      walkAt payload rest (k + 1) (outs ++ [(nodeAt s c').sym]) s.root s := by
    simp only [pushed, walkAt, List.length_append, BitVec.ofNat_add, List.append_assoc, Nat.add_assoc]
  have hresume : payloadResume (bitReady payload rest k outs c s) =
      waitAt (.payloadPush (nodeAt s c').sym) (walkAt payload rest (k + 1) outs c s) := by
    rw [← bitReady_advance k outs c c s]
    exact payloadResume_leaf (bitsLeft_ne_zero hk) hbits hgo hleaf
  rw [settle_bitReady hb hbit hk, hresume,
    settle_payloadPush_ok (s := walkAt payload rest (k + 1) outs c s) hb hall hroom, ← hpushed]
  rfl

/-- A path to a leaf: the bits are read, the leaf's value is pushed, and the walk is back at ROOT (R183). -/
theorem settle_path {p : List Bool} {k : Nat} {outs : List Byte} {c : NodeId} {v : Byte} (hb : s.busy = true)
    (hsink : SinkTakesAll s) (hpath : LeadsFrom s c p v) (hne : p ≠ []) (hbits : BitsAt payload k p)
    (hk : k + p.length ≤ s.payloadBits.toNat) (houts : outs.length ≤ k) :
    settle (payloadResume (walkAt payload rest k outs c s)) =
      settle (payloadResume (walkAt payload rest (k + p.length) (outs ++ [v]) s.root s)) := by
  induction p generalizing k c with
  | nil => exact absurd rfl hne
  | cons b p ih =>
    rw [List.length_cons] at hk
    obtain ⟨e, hend, -⟩ := id hpath
    obtain ⟨c', hgo, -⟩ := descend_cons_eq_some hend
    have hrest := (leadsFrom_cons hgo).mp hpath
    by_cases hleaf : (nodeAt s c').type = .leaf
    · obtain ⟨rfl, rfl⟩ := (leadsFrom_leaf hleaf).mp hrest
      exact settle_walk_leaf hb hsink hbits.head (by omega) houts hgo hleaf
    · have hmore : p ≠ [] := by
        rintro rfl
        obtain ⟨e, he, htype, -⟩ := hrest
        cases he
        exact hleaf htype
      rw [settle_walk_inner hb hbits.head (by omega) hgo hleaf,
        ih hrest hmore hbits.tail (by omega) (by omega), List.length_cons, Nat.add_assoc, Nat.add_comm 1]

/-- A sequence of paths: the leaves' values are pushed in order (R181). -/
theorem settle_paths {steps : List (List Bool × Byte)} {k : Nat} {outs : List Byte} (hb : s.busy = true)
    (hsink : SinkTakesAll s) (hpaths : ∀ w ∈ steps, w.1 ≠ [] ∧ LeadsTo s w.1 w.2)
    (hbits : BitsAt payload k (steps.flatMap Prod.fst))
    (hk : k + (steps.flatMap Prod.fst).length ≤ s.payloadBits.toNat) (houts : outs.length ≤ k) :
    settle (payloadResume (walkAt payload rest k outs s.root s)) =
      settle (payloadResume (walkAt payload rest (k + (steps.flatMap Prod.fst).length)
        (outs ++ steps.map Prod.snd) s.root s)) := by
  induction steps generalizing k outs with
  | nil => rw [List.flatMap_nil, List.length_nil, Nat.add_zero, List.map_nil, List.append_nil]
  | cons w steps ih =>
    obtain ⟨hne, hpath⟩ := hpaths w List.mem_cons_self
    have hpos := List.length_pos_of_ne_nil hne
    rw [List.flatMap_cons] at hbits
    rw [List.flatMap_cons, List.length_append] at hk
    obtain ⟨hfirst, hrest⟩ := hbits.append
    rw [settle_path hb hsink (leadsFrom_root.mpr hpath) hne hfirst (by omega) houts,
      ih (fun x hx => hpaths x (List.mem_cons_of_mem w hx)) hrest (by omega)
        (by rw [List.length_append, List.length_singleton]; omega),
      List.flatMap_cons, List.length_append, List.map_cons, List.append_assoc, Nat.add_assoc]
    rfl

/-- The declared length is consumed at ROOT (R181, R186). -/
theorem payloadResume_complete {outs : List Byte} :
    payloadResume (walkAt payload rest s.payloadBits.toNat outs s.root s) = completeIn .decDone
      { walkAt payload rest s.payloadBits.toNat outs s.root s with
        statPayload := BitVec.ofNat 64 (bytesFor s.payloadBits.toNat), statOrig := BitVec.ofNat 64 outs.length } := by
  have hleft : (walkAt payload rest s.payloadBits.toNat outs s.root s).bitsLeft = 0#64 := by
    show s.payloadBits - BitVec.ofNat 64 s.payloadBits.toNat = 0#64
    rw [BitVec.ofNat_toNat, BitVec.setWidth_eq, BitVec.sub_self]
  rw [payloadResume_done hleft, payloadEnd]
  exact if_pos rfl

/-! ### The program -/

theorem go_congr {t : State} {k : NodeId} (h : nodeAt t k = nodeAt s k) (b : Bool) : go t k b = go s k b := by
  rw [go, go, h]

/-- Paths are read from the arena alone. -/
theorem descend_of_node {t : State} (h : t.node = s.node) (k : NodeId) (p : List Bool) :
    descend t k p = descend s k p := by
  induction p generalizing k with
  | nil => rfl
  | cons b p ih =>
    have hgo : go t k b = go s k b := go_congr (by rw [nodeAt, nodeAt, h]) b
    simp only [descend, hgo, ih]

theorem leadsTo_of_tree {t : State} {p : List Bool} {v : Byte} (hnode : t.node = s.node) (hroot : t.root = s.root) :
    LeadsTo t p v ↔ LeadsTo s p v := by
  simp only [LeadsTo, descend_of_node hnode, hroot, nodeAt, hnode]

/-- DEC_PAYLOAD of a payload that is a sequence of paths, run on (R181). -/
theorem exec_decPayload {steps : List (List Bool × Byte)} (hready : Ready .decPayload s) (hempty : s.empty = false)
    (heager : s.eager = true) (hsink : SinkTakesAll s) (hpaths : ∀ w ∈ steps, w.1 ≠ [] ∧ LeadsTo s w.1 w.2)
    (hlen : s.payloadBits.toNat = (steps.flatMap Prod.fst).length)
    (hbits : BitsAt payload 0 (steps.flatMap Prod.fst)) (hin : s.inCh = fileOf payload ++ rest) :
    exec .decPayload s = .next (completeIn .decDone
      { walkAt payload rest s.payloadBits.toNat (steps.map Prod.snd) s.root (accept 0x22#8 s) with
        statPayload := BitVec.ofNat 64 (bytesFor s.payloadBits.toNat)
        statOrig := BitVec.ofNat 64 (steps.map Prod.snd).length }) := by
  have hstart : startPayload (accept 0x22#8 s) =
      payloadResume (walkAt payload rest 0 [] s.root (accept 0x22#8 s)) := by
    rw [startPayload, if_neg (by simp [hempty])]
    congr 1
    simp [walkAt, openUnpacker, bytesFor, accept, hin]
  have hpaths' : ∀ w ∈ steps, w.1 ≠ [] ∧ LeadsTo (accept 0x22#8 s) w.1 w.2 := fun w hw =>
    ⟨(hpaths w hw).1, (leadsTo_of_tree (s := s) (t := accept 0x22#8 s) rfl rfl).mpr (hpaths w hw).2⟩
  have hwalk := settle_paths (s := accept 0x22#8 s) (payload := payload) (rest := rest) (outs := []) rfl hsink hpaths'
    hbits (by rw [Nat.zero_add]; exact hlen.ge) le_rfl
  rw [Nat.zero_add, ← hlen, List.nil_append] at hwalk
  have hdone := payloadResume_complete (s := accept 0x22#8 s) (payload := payload) (rest := rest)
    (outs := steps.map Prod.snd)
  rw [exec_ready hready, programOf_eq_settle .decPayload (s := accept _ s) heager]
  refine congrArg Host.Outcome.next ?_
  calc settle (startPayload (accept 0x22#8 s))
      = settle (payloadResume (walkAt payload rest 0 [] s.root (accept 0x22#8 s))) := congrArg settle hstart
    _ = settle (payloadResume (walkAt payload rest s.payloadBits.toNat (steps.map Prod.snd) s.root
          (accept 0x22#8 s))) := hwalk
    _ = _ := (congrArg settle hdone).trans (settle_idle rfl)

end

end Sys2Proof.Machine
end

section
/-! SUPPORT. The round trip's encoder (44_encoder.md R165): the length of what it will push, and the compressed file. -/
namespace Sys2Proof.Machine
variable {s t : State} {bytes : List Byte}

/-! ### The payload's length (R152) -/

/-- Counting each value's share is summing over the file. -/
theorem sum_mul_count (f : Byte → Nat) (bytes : List Byte) :
    (byteValues.map fun v => f v * bytes.count v).sum = (bytes.map f).sum := by
  have hsub : bytes.toFinset ⊆ byteValues.toFinset := fun v _ => List.mem_toFinset.mpr (mem_byteValues v)
  have hout : ∀ v ∈ byteValues.toFinset, v ∉ bytes.toFinset → bytes.count v • f v = 0 := fun v _ hv => by
    rw [List.count_eq_zero_of_not_mem (mt List.mem_toFinset.mpr hv), zero_smul]
  calc (byteValues.map fun v => f v * bytes.count v).sum
      = ∑ v ∈ byteValues.toFinset, f v * bytes.count v := (List.sum_toFinset _ byteValues_nodup).symm
    _ = ∑ v ∈ byteValues.toFinset, bytes.count v • f v := Finset.sum_congr rfl fun v _ => Nat.mul_comm _ _
    _ = ∑ v ∈ bytes.toFinset, bytes.count v • f v := (Finset.sum_subset hsub hout).symm
    _ = (bytes.map f).sum := (Finset.sum_list_map_count bytes f).symm

theorem codeword_length_eq (s : State) (v : Byte) : ((lookupCode s v).getD []).length = (codeLenAt s v).toNat := by
  unfold lookupCode
  split
  · next h => rw [h]; rfl
  · simp

theorem codewordsOf_length (s : State) (bytes : List Byte) :
    (codewordsOf s bytes).length = (bytes.map fun v => (codeLenAt s v).toNat).sum := by
  simp only [codewordsOf, List.length_flatMap, codeword_length_eq]

/-- When the counters count a file, the coded length is the length of the file's codewords. -/
theorem codedLength_of_counts (hlen : bytes.length < 2 ^ 64)
    (hfreq : ∀ v, freqAt s v = BitVec.ofNat 64 (bytes.count v)) : codedLength s = (codewordsOf s bytes).length := by
  have hcount : ∀ v, (freqAt s v).toNat = bytes.count v := fun v => by
    rw [hfreq, toNat_ofNat_of_lt (List.count_le_length.trans_lt hlen)]
  simp only [codedLength, hcount, codewordsOf_length]
  exact sum_mul_count (fun v => (codeLenAt s v).toNat) bytes

theorem count_ne_zero (hlen : bytes.length < 2 ^ 64) {v : Byte} (hv : v ∈ bytes) :
    BitVec.ofNat 64 (bytes.count v) ≠ 0#64 := fun hzero => by
  have hcount := congrArg BitVec.toNat hzero
  rw [toNat_ofNat_of_lt (List.count_le_length.trans_lt hlen)] at hcount
  exact (List.count_pos_iff.mpr hv).ne' hcount

/-! ### The compressed file (R77, R81) -/

/-- The compressed file that the registers of `s` and the file `bytes` make: header, then packed codewords. -/
def compressed (s : State) (bytes : List Byte) : List Byte :=
  headerImage s.payloadBits (entriesOf s) ++ packBits (codewordsOf s bytes)

/-- From BUILT the encoder pushes the compressed file of a second scan that fits (R156, R158). -/
theorem encode_built {rest : List InElem} (hready : Ready .encHeader s) (hempty : s.empty = false)
    (heager : s.eager = true) (hsink : SinkTakesAll s) (hin : s.inCh = fileOf bytes ++ .endOfFile :: rest)
    (hcodes : ∀ v ∈ bytes, lookupCode s v ≠ none) (hlen : s.payloadBits.toNat = (codewordsOf s bytes).length) :
    ∃ c d, exec .encHeader s = .next c ∧ exec .encEmit c = .next d ∧ d.phase = .encDone ∧ d.inCh = rest ∧
      d.out = s.out ++ compressed s bytes := by
  have hheader := encHeaderPushes s hready hempty heager hsink
  generalize hc : ({ s with
    lastOp := 0x12#8, xferIn := 0#64, xferOut := BitVec.ofNat 64 (16 + 9 * s.seqN.toNat)
    out := s.out ++ headerImage s.payloadBits (entriesOf s)
    pushes := s.pushes + (16 + 9 * s.seqN.toNat)
    statHeader := BitVec.ofNat 64 (16 + 9 * s.seqN.toNat), phase := .headed, pos := .idle } : State) = c at hheader
  have hlookup : ∀ v, lookupCode c v = lookupCode s v := fun v => by rw [← hc]; rfl
  have hwords : codewordsOf c bytes = codewordsOf s bytes := by simp only [codewordsOf, hlookup]
  have hemit := encEmitPacks c bytes rest (by rw [← hc]; exact ⟨hready.1, List.mem_singleton.mpr rfl⟩)
    (by rw [← hc]; exact heager) (by rw [← hc]; exact ⟨hsink.1, fun k hk => Nat.lt_add_right _ (hsink.2 k hk)⟩)
    (by rw [← hc]; exact hin) (fun v hv => hlookup v ▸ hcodes v hv) (by rw [hwords, ← hlen, ← hc])
  refine ⟨c, _, hheader, hemit, rfl, rfl, ?_⟩
  rw [hwords, ← hc, compressed, ← List.append_assoc]

/-- ENC_BUILD of the counters of a file, when it ends in BUILT: every byte of the file has a codeword, which is its path
in the tree of the sequence, and PAYLOAD_BITS is their length (R147, R151, R152). -/
structure EncBuilt (b : State) (bytes : List Byte) : Prop where
  seqN_pos : 1 ≤ b.seqN.toNat
  seqN_le : b.seqN.toNat ≤ 256
  codes : ∀ v ∈ bytes, lookupCode b v ≠ none
  paths : ∀ v p, lookupCode b v = some p → LeadsTo (buildTree b.seqN.toNat b) p v
  length : b.payloadBits.toNat = (codewordsOf b bytes).length

end Sys2Proof.Machine
end

section
/-! SUPPORT. The round trip's tree (43_tree.md R130): what the sequence determines of it, and what the decoder makes of
a header and of the paths after it. -/
namespace Sys2Proof.Machine
variable {n : Nat} {s t : State} {k : NodeId} {p : List Bool} {v : Byte}

/-! ### Paths in trees that agree -/

theorem TreeOver.leadsFrom_agree (h : TreeOver n s)
    (hnode : ∀ k : NodeId, k.toNat ≤ s.root.toNat → nodeAt t k = nodeAt s k) (hk : k.toNat ≤ s.root.toNat)
    (hp : LeadsFrom s k p v) : LeadsFrom t k p v := by
  induction p generalizing k with
  | nil =>
    obtain ⟨c, hc, hleaf⟩ := hp
    cases hc
    exact ⟨k, rfl, by rw [hnode k hk]; exact hleaf⟩
  | cons b p ih =>
    obtain ⟨c, hgo, -⟩ := descend_cons_eq_some hp.choose_spec.1
    have hlt := (h.go_lt hk hgo).2
    exact (leadsFrom_cons ((go_congr (hnode k hk) b).trans hgo)).mpr (ih (by omega) ((leadsFrom_cons hgo).mp hp))

theorem buildTree_root_lt (s : State) (h1 : 1 ≤ n) (h256 : n ≤ 256) :
    (buildTree n s).root.toNat < (buildTree n s).nodeCount.toNat := by
  rcases h1.eq_or_lt with rfl | h2
  · rw [(buildTree_one_root s).1, (buildTree_one_root s).2]
    decide
  · obtain ⟨hcount, hroot⟩ := buildTree_root s h2 h256
    omega

/-- Two sequences with the same entries have the same paths (R130). -/
theorem leadsTo_of_entries (h1 : 1 ≤ n) (h256 : n ≤ 256) (hseq : ∀ i, i < n → seqEntryAt s i = seqEntryAt t i)
    (hp : LeadsTo (buildTree n s) p v) : LeadsTo (buildTree n t) p v := by
  obtain ⟨hroot, -, hnode⟩ := treeAgreement s t n h1 h256 fun i hi => Prod.mk.inj (hseq i hi)
  have hlt := buildTree_root_lt s h1 h256
  rw [← leadsFrom_root, ← hroot]
  exact (buildTree_treeOver s h1 h256).leadsFrom_agree (fun k hk => (hnode k.toNat (by omega)).symm) le_rfl hp

/-! ### The decoder's three commands -/

theorem taken_implicitClear (op : Byte) (m : Nat) (rest : List InElem) (s : State) :
    taken m rest (implicitClear (accept op s)) =
      { implicitClear (accept op s) with inCh := rest, xferIn := BitVec.ofNat 64 m } := by
  rw [taken, show (implicitClear (accept op s)).xferIn = 0#64 from rfl, BitVec.zero_add]

/-- DEC_HEADER of a header with 1 to 256 entries: PAYLOAD_BITS and the sequence are the header's, the other registers
are at reset but for the statistics (R176, R177). -/
theorem decHeader_parses {bitLength : Word} {entries : List (Byte × Word)} {rest : List InElem}
    (hready : Ready .decHeader s) (heager : s.eager = true) (h1 : 1 ≤ entries.length) (h256 : entries.length ≤ 256)
    (hin : s.inCh = fileOf (headerImage bitLength entries) ++ rest) :
    ∃ e, exec .decHeader s = .next e ∧
      e = { State.reset with
        lastOp := 0x20#8, phase := .decHeaded, payloadBits := bitLength, seqN := BitVec.ofNat 9 entries.length
        seqSym := e.seqSym, seqCnt := e.seqCnt, statHeader := BitVec.ofNat 64 (16 + 9 * entries.length)
        xferIn := BitVec.ofNat 64 (16 + 9 * entries.length)
        inCh := rest, out := s.out, pushes := s.pushes, sinkFaults := s.sinkFaults, sinkQuota := s.sinkQuota
        script := s.script, reads := s.reads, draws := s.draws, eager := s.eager } ∧
      ∀ i, seqEntryAt e i = entries.getD i (0#8, 0#64) := by
  refine ⟨_, exec_decHeader hready heager h1 h256 hin, ?_, fun i => ?_⟩
  · rw [headerRead, taken_implicitClear, writeSeq_seqWrites, seqWrites, writeSeq_seqN, Nat.zero_add]
    rfl
  · have hentry := seqEntryAt_writeSeq entries 0 ({ taken (16 + 9 * entries.length) rest
      (implicitClear (accept 0x20#8 s)) with payloadBits := bitLength, seqN := BitVec.ofNat 9 entries.length })
      (by omega) i
    rw [if_pos (Nat.zero_le i), Nat.sub_zero] at hentry
    exact hentry.trans (congrArg _ (Prod.ext (bankAt_fill_same 256 i 0#8) (bankAt_fill_same 256 i 0#64)))

/-- DEC_BUILD of a non-empty file (R179). -/
theorem exec_decBuild (hready : Ready .decBuild s) (hempty : s.empty = false) :
    exec .decBuild s = .next (completeIn .decBuilt (accept 0x21#8 (buildTree s.seqN.toNat s))) := by
  have hprogram : decBuildProgram (accept 0x21#8 s) =
      completeIn .decBuilt (buildTree s.seqN.toNat (accept 0x21#8 s)) := by
    have hnot : (accept 0x21#8 s).empty ≠ true := by simp [hempty, accept]
    rw [decBuildProgram, if_neg hnot]
    rfl
  rw [← buildTree_accept, ← hprogram]
  exact exec_ready hready

/-- The decoder gives back the values of a sequence of paths in the tree of `b`, from a file with the sequence of `b` in
its header (R165). -/
theorem decode_paths {b u : State} {steps : List (List Bool × Byte)} {payload : List Byte} {rest : List InElem}
    (h1 : 1 ≤ b.seqN.toNat) (h256 : b.seqN.toNat ≤ 256)
    (hpaths : ∀ w ∈ steps, w.1 ≠ [] ∧ LeadsTo (buildTree b.seqN.toNat b) w.1 w.2)
    (hlen : b.payloadBits.toNat = (steps.flatMap Prod.fst).length)
    (hbits : BitsAt payload 0 (steps.flatMap Prod.fst)) (hready : Ready .decHeader u) (heager : u.eager = true)
    (hsink : SinkTakesAll u)
    (hin : u.inCh = fileOf (headerImage b.payloadBits (entriesOf b)) ++ (fileOf payload ++ rest)) :
    ∃ e f g, exec .decHeader u = .next e ∧ exec .decBuild e = .next f ∧ exec .decPayload f = .next g ∧
      g.phase = .decDone ∧ g.out = u.out ++ steps.map Prod.snd ∧ g.statOrig = BitVec.ofNat 64 steps.length := by
  obtain ⟨e, hheader, he, hentries⟩ := decHeader_parses hready heager (by simpa using h1) (by simpa using h256) hin
  have hseqN : e.seqN = b.seqN := by
    rw [he, entriesOf_length]
    simp
  have hsame : ∀ i, i < b.seqN.toNat → seqEntryAt b i = seqEntryAt e i := fun i hi => by
    rw [hentries, entriesOf, List.getD_eq_getElem _ _ (by simpa using hi), List.getElem_map, List.getElem_range]
    rfl
  have hbuild := exec_decBuild (s := e) (by rw [he]; exact ⟨rfl, List.mem_singleton.mpr rfl⟩) (congrArg State.empty he)
  have htree := buildTree_treeWrites e.seqN.toNat e
  rw [hseqN] at hbuild htree
  generalize hr : buildTree b.seqN.toNat e = r at hbuild htree
  generalize hf : completeIn .decBuilt (accept 0x21#8 r) = f at hbuild
  have hpathsF : ∀ w ∈ steps, w.1 ≠ [] ∧ LeadsTo f w.1 w.2 := fun w hw =>
    ⟨(hpaths w hw).1, (leadsTo_of_tree (s := r) (by rw [← hf]; rfl) (by rw [← hf]; rfl)).mpr
      (hr ▸ leadsTo_of_entries h1 h256 hsame (hpaths w hw).2)⟩
  rw [htree, he] at hf
  have hpayload := exec_decPayload (s := f) (payload := payload) (rest := rest)
    (by rw [← hf]; exact ⟨rfl, List.mem_singleton.mpr rfl⟩) (by rw [← hf]; rfl) (by rw [← hf]; exact heager)
    (by rw [← hf]; exact hsink) hpathsF (by rw [← hf]; exact hlen) hbits (by rw [← hf]; rfl)
  refine ⟨e, f, _, hheader, hbuild, hpayload, rfl, ?_, ?_⟩
  · rw [← hf]
    rfl
  · rw [List.length_map]
    rfl

end Sys2Proof.Machine
end

section
/-! SUPPORT. What the encoder compresses the decoder gives back (44_encoder.md R165). -/
namespace Sys2Proof.Machine
variable {s a b u : State} {bytes : List Byte} {rest : List InElem}

/-! ### The packed bits -/

/-- Bit `j` of a bit sequence is bit `j mod 8` of byte `j div 8` of what it is packed into (20_memory.md R52). -/
theorem bitsAt_packBits (p : List Bool) : BitsAt (packBits p) 0 p := by
  intro j b hj
  obtain ⟨hlt, hget⟩ := List.getElem?_eq_some_iff.mp hj
  have hbyte : (packBits p)[j / 8]? = some (packedByte ((p.drop (8 * (j / 8))).take 8)) := by
    rw [packBits, List.getElem?_map, List.getElem?_range (by omega)]
    rfl
  have hbit : ((p.drop (8 * (j / 8))).take 8)[j % 8]? = some b := by
    rw [List.getElem?_take_of_lt (by omega), List.getElem?_drop, show 8 * (j / 8) + j % 8 = j by omega, hj]
  rw [Nat.zero_add, payloadBit, hbyte, Option.map_some, getLsbD_packedByte _ (by omega),
    List.getD_eq_getElem?_getD, hbit, Option.getD_some]

/-- The codewords of a file and the byte values they stand for. -/
def codedSteps (s : State) (bytes : List Byte) : List (List Bool × Byte) :=
  bytes.map fun v => ((lookupCode s v).getD [], v)

@[simp] theorem codedSteps_bits (s : State) (bytes : List Byte) :
    (codedSteps s bytes).flatMap Prod.fst = codewordsOf s bytes := by
  simp [codedSteps, codewordsOf, List.flatMap_map]

@[simp] theorem codedSteps_values (s : State) (bytes : List Byte) : (codedSteps s bytes).map Prod.snd = bytes := by
  simp [codedSteps, Function.comp_def]

@[simp] theorem codedSteps_length (s : State) (bytes : List Byte) : (codedSteps s bytes).length = bytes.length :=
  List.length_map _

/-! ### A file with a byte -/

/-- The decoder gives back what the built tables compress. -/
theorem decode_compressed (h : EncBuilt b bytes) (hready : Ready .decHeader u) (heager : u.eager = true)
    (hsink : SinkTakesAll u) (hin : u.inCh = fileOf (compressed b bytes) ++ .endOfFile :: rest) :
    ∃ e f g, exec .decHeader u = .next e ∧ exec .decBuild e = .next f ∧ exec .decPayload f = .next g ∧
      g.phase = .decDone ∧ g.out = u.out ++ bytes ∧ g.statOrig = BitVec.ofNat 64 bytes.length := by
  have hpaths : ∀ w ∈ codedSteps b bytes, w.1 ≠ [] ∧ LeadsTo (buildTree b.seqN.toNat b) w.1 w.2 := by
    intro w hw
    obtain ⟨v, hv, rfl⟩ := List.mem_map.mp hw
    obtain ⟨p, hp⟩ := Option.ne_none_iff_exists'.mp (h.codes v hv)
    rw [hp]
    exact ⟨codeword_ne_nil hp, h.paths v p hp⟩
  have hin' : u.inCh = fileOf (headerImage b.payloadBits (entriesOf b)) ++
      (fileOf (packBits (codewordsOf b bytes)) ++ .endOfFile :: rest) := by
    rw [hin, compressed, fileOf, List.map_append, List.append_assoc]
    rfl
  have hback := decode_paths (steps := codedSteps b bytes) (payload := packBits (codewordsOf b bytes)) h.seqN_pos
    h.seqN_le hpaths (by rw [codedSteps_bits, h.length]) (by rw [codedSteps_bits]; exact bitsAt_packBits _) hready
    heager hsink hin'
  rwa [codedSteps_values, codedSteps_length] at hback

/-- ENC_BUILD of the counters of a file with a byte, when it ends in BUILT (R151). -/
theorem exec_encBuild_built (hready : Ready .encBuild a) (hlen : bytes.length < 2 ^ 64) (hne : bytes ≠ [])
    (hfreq : ∀ v, freqAt a v = BitVec.ofNat 64 (bytes.count v)) (hexec : exec .encBuild a = .next b)
    (hbuilt : b.phase = .built) : EncBuilt b bytes ∧ b.busy = false ∧ b.empty = a.empty := by
  have hoccurs : ∀ v ∈ bytes, freqAt a v ≠ 0#64 := fun v hv => hfreq v ▸ count_ne_zero hlen hv
  obtain ⟨v, hv⟩ := List.exists_mem_of_ne_nil bytes hne
  have hsome : distinctValues a ≠ 0 := fun h0 => hoccurs v hv ((distinctValues_eq_zero a).mp h0 v)
  have hfits : codedLength (encTables a) < 2 ^ 64 := by
    by_contra hover
    rw [exec_encBuild hready, encBuildProgram_overflow _ hsome (by omega)] at hexec
    cases hexec
    cases hbuilt
  rw [encTables] at hfits
  obtain ⟨t, ht, -, hbusy, -, -, hempty, hbits, hseqN, hsym, hcnt, -, -, -, hlookup⟩ :=
    encBuildCompletes a hready ⟨v, hoccurs v hv⟩ hfits
  obtain rfl := Host.Outcome.next.inj (hexec.symm.trans ht)
  have hcounters : b.freq = a.freq := by rw [frameBuilds.1 a b hexec]
  have hfreqB : ∀ v, freqAt b v = freqAt a v := fun v => by rw [freqAt, hcounters, freqAt]
  have h1 : 1 ≤ distinctValues a := Nat.pos_of_ne_zero hsome
  have h256 : distinctValues a ≤ 256 := freqEntries_length a ▸ freqEntries_length_le a
  refine ⟨⟨hseqN ▸ h1, hseqN ▸ h256, fun w hw => ?_, fun w p hp => ?_, ?_⟩, hbusy, hempty⟩
  · rw [lookupCode_ne_none, tableComplete a b hready hexec (hseqN ▸ h1) w, hfreqB]
    exact hoccurs w hw
  · rw [hlookup] at hp
    have hpath := leadsTo_buildTable.mp ((tableIsPaths (freqSequence a) _ h1 h256).1 w p hp).1
    rw [hseqN]
    refine leadsTo_of_entries h1 h256 (fun i _ => ?_) hpath
    simp only [seqEntryAt, seqSymAt, seqCntAt, hsym, hcnt]
  · rw [hbits]
    exact codedLength_of_counts hlen fun v => (hfreqB v).trans (hfreq v)

/-! ### The empty file (R154, R171) -/

/-- The encoder's last three commands on an empty file push nothing. -/
theorem encode_empty (hready : Ready .encBuild s) (heager : s.eager = true) (hfreq : ∀ v, freqAt s v = 0#64)
    (hin : s.inCh = .endOfFile :: rest) (hbuild : exec .encBuild s = .next b) :
    ∃ c d, exec .encHeader b = .next c ∧ exec .encEmit c = .next d ∧ d.phase = .encDone ∧ d.inCh = rest ∧
      d.out = s.out := by
  rw [exec_encBuild_empty hready hfreq] at hbuild
  cases hbuild
  exact ⟨_, _, exec_encHeader_empty ⟨hready.1, List.mem_singleton.mpr rfl⟩ rfl,
    exec_encEmit_empty ⟨hready.1, List.mem_singleton.mpr rfl⟩ heager rfl hin, rfl, rfl, rfl⟩

theorem exec_decHeader_empty (hready : Ready .decHeader s) (heager : s.eager = true)
    (hin : s.inCh = .endOfFile :: rest) :
    exec .decHeader s = .next (emptyFile { implicitClear (accept 0x20#8 s) with inCh := rest }) := by
  have hstep : coreStep (startDecHeader (accept 0x20#8 s)) =
      some (emptyFile { implicitClear (accept 0x20#8 s) with inCh := rest }) :=
    coreStep_pop (s := startDecHeader (accept 0x20#8 s)) rfl hin
  rw [exec_ready hready, programOf_eq_settle .decHeader (s := accept _ s) heager]
  exact congrArg Host.Outcome.next ((settle_some hstep).trans (settle_idle rfl))

theorem exec_decBuild_empty (hready : Ready .decBuild s) (hempty : s.empty = true) :
    exec .decBuild s = .next (completeIn .decBuilt (accept 0x21#8 s)) := by
  have hprogram : decBuildProgram (accept 0x21#8 s) = completeIn .decBuilt (accept 0x21#8 s) :=
    congrArg (completeIn .decBuilt) (if_pos hempty)
  rw [← hprogram]
  exact exec_ready hready

theorem exec_decPayload_empty (hready : Ready .decPayload s) (hempty : s.empty = true) :
    exec .decPayload s = .next (completeIn .decDone
      { accept 0x22#8 s with statOrig := 0#64, statPayload := 0#64 }) := by
  have hstart : startPayload (accept 0x22#8 s) =
      completeIn .decDone { accept 0x22#8 s with statOrig := 0#64, statPayload := 0#64 } := if_pos hempty
  have hprogram : programOf .decPayload (accept 0x22#8 s) = startPayload (accept 0x22#8 s) :=
    proceed_idle (by rw [hstart]; rfl)
  rw [exec_ready hready, show opcodeOf .decPayload = 0x22#8 from rfl, hprogram, hstart]

/-- The decoder gives back the empty file from an empty compressed file. -/
theorem decode_empty (hready : Ready .decHeader u) (heager : u.eager = true) (hin : u.inCh = .endOfFile :: rest) :
    ∃ e f g, exec .decHeader u = .next e ∧ exec .decBuild e = .next f ∧ exec .decPayload f = .next g ∧
      g.phase = .decDone ∧ g.out = u.out ∧ g.statOrig = 0#64 :=
  ⟨_, _, _, exec_decHeader_empty hready heager hin, exec_decBuild_empty ⟨rfl, List.mem_singleton.mpr rfl⟩ rfl,
    exec_decPayload_empty ⟨rfl, List.mem_singleton.mpr rfl⟩ rfl, rfl, rfl, rfl⟩

/-! ### The round trip (R165) -/

/-- Settles O52. The image is empty for an empty file; else it is a header and the packed codewords, which are paths in
the encoder's tree, and the decoder rebuilds that tree from the header's entries. -/
theorem roundTrip : Obligations.RoundTrip := by
  intro s a b bytes rest hready heager hsink hlen hin hcount hbuild hbuilt
  obtain ⟨t, ht, ha, hfreq⟩ := encCountCounts s bytes (fileOf bytes ++ .endOfFile :: rest) hready heager hin hlen
  obtain rfl := Host.Outcome.next.inj (hcount.symm.trans ht)
  have hreadyA : Ready .encBuild a := by rw [ha]; exact ⟨rfl, List.mem_singleton.mpr rfl⟩
  have heagerA : a.eager = true := by rw [ha]; exact heager
  have hinA : a.inCh = fileOf bytes ++ .endOfFile :: rest := by rw [ha]
  have houtA : a.out = s.out := by rw [ha]
  by_cases hne : bytes = []
  · subst hne
    obtain ⟨c, d, hheader, hemit, hphase, hrest, hout⟩ := encode_empty hreadyA heagerA hfreq hinA hbuild
    refine ⟨c, d, [], hheader, hemit, hphase, hrest, by rw [hout, houtA, List.append_nil], ?_⟩
    intro u rest' hreadyU heagerU _ hinU
    rw [List.append_nil]
    exact decode_empty hreadyU heagerU hinU
  · obtain ⟨htables, hbusy, hempty⟩ := exec_encBuild_built hreadyA hlen hne hfreq hbuild hbuilt
    have hframe := frameBuilds.1 a b hbuild
    obtain ⟨c, d, hheader, hemit, hphase, hrest, hout⟩ :=
      encode_built (s := b) ⟨hbusy, List.mem_singleton.mpr hbuilt⟩ (by rw [hempty, ha]; rfl)
        (by rw [hframe]; exact heagerA) (by rw [hframe, ha]; exact hsink) (by rw [hframe]; exact hinA) htables.codes
        htables.length
    have houtB : b.out = s.out := by rw [hframe]; exact houtA
    exact ⟨c, d, compressed b bytes, hheader, hemit, hphase, hrest, by rw [hout, houtB],
      fun _ _ hreadyU heagerU hsinkU hinU => decode_compressed htables hreadyU heagerU hsinkU hinU⟩

end Sys2Proof.Machine
end

section
/-! SUPPORT. DEC_HEADER on a header that is whole, that ends or fails before its last byte, or whose frequency_count is
out of range (45_decoder.md R168, R172 to R177). -/
namespace Sys2Proof.Machine
variable {s : State} {e : InElem} {rest : List InElem}

/-! ### The start -/

/-- DEC_HEADER, run on, starts from cleared registers at the first byte of the header (R176). -/
theorem exec_decHeader_settle (hready : Ready .decHeader s) (heager : s.eager = true) :
    exec .decHeader s = .next (settle (waitAt (.decLen []) (implicitClear (accept 0x20#8 s)))) := by
  rw [exec_ready hready, programOf_eq_settle .decHeader (s := accept _ s) heager]
  rfl

/-! ### A header byte that does not come (R172) -/

/-- HdrByte on End or Fault writes the error record, with the bytes before it as ERR_INFO, and ends the command. -/
theorem hdrFailed_eq (he : e = .endOfFile ∨ e = .fault) (s : State) : hdrFailed e s =
    { s with
      errKind := 4#8, errDetail := if e = .endOfFile then 1#8 else 2#8, errInfo := s.xferIn
      phase := .error, busy := false, pos := .idle } := by
  rcases he with rfl | rfl <;> rfl

/-- At every position of DEC_HEADER an End or a Fault ends it as HdrByte does; at its first byte only a Fault does, for
an End there is the empty file. -/
theorem afterPop_hdrFailed {p : Position} (hp : commandOf p = some .decHeader) (he : e = .endOfFile ∨ e = .fault)
    (hfirst : p = .decLen [] → e = .fault ∧ s.xferIn = 0#64) : afterPop e (waitAt p s) = hdrFailed e s := by
  cases p with
  | decLen got =>
    cases got with
    | nil =>
      obtain ⟨rfl, hx⟩ := hfirst rfl
      rw [hdrFailed, hx]
      rfl
    | cons g got => rcases he with rfl | rfl <;> rfl
  | decCount | decSym | decCnt => rcases he with rfl | rfl <;> rfl
  | _ => cases hp

theorem settle_hdrFailed {p : Position} (hp : commandOf p = some .decHeader) (hb : s.busy = true)
    (hin : s.inCh = e :: rest) (he : e = .endOfFile ∨ e = .fault)
    (hfirst : p = .decLen [] → e = .fault ∧ s.xferIn = 0#64) :
    settle (waitAt p s) = hdrFailed e { s with inCh := rest } := by
  have hw : awaited (waitAt p s) = .pop := by
    cases p with
    | decLen | decCount | decSym | decCnt => simp [awaited, hb]
    | _ => cases hp
  have hpop : popIn e rest (waitAt p s) = waitAt p { s with inCh := rest } := by rcases he with rfl | rfl <;> rfl
  have hstep : coreStep (waitAt p s) = some (hdrFailed e { s with inCh := rest }) := by
    rw [coreStep_pop hw hin, hpop, afterPop_hdrFailed (s := { s with inCh := rest }) hp he hfirst]
  rw [settle_some hstep, settle_idle (by rw [hdrFailed_eq he])]

/-- A field that ends or fails before its eighth byte. -/
theorem ReadsField.settle_cut {P : List Byte → Position} {done : List Byte → State → State} (h : ReadsField P done)
    (hP : ∀ got, commandOf (P got) = some .decHeader) {bs : List Byte} (hb : s.busy = true)
    (hin : s.inCh = fileOf bs ++ e :: rest) (hroom : s.xferIn.toNat + bs.length < 2 ^ 64) (hlen : bs.length ≤ 7)
    (he : e = .endOfFile ∨ e = .fault)
    (hfirst : P bs = .decLen [] → e = .fault ∧ (taken bs.length (e :: rest) s).xferIn = 0#64) :
    settle (waitAt (P []) s) = hdrFailed e (taken bs.length rest s) :=
  calc settle (waitAt (P []) s)
      = settle (waitAt (P bs) (taken bs.length (e :: rest) s)) :=
        h.settle_bytes (got := []) hb hin hroom (by rw [List.length_nil]; omega)
    _ = hdrFailed e (taken bs.length rest s) :=
        settle_hdrFailed (s := taken bs.length (e :: rest) s) (hP bs) hb rfl he hfirst

/-! ### The two fields in front (R173, R174) -/

theorem taken_toNat {n : Nat} (h : s.xferIn.toNat + n < 2 ^ 64) :
    (taken n rest s).xferIn.toNat = s.xferIn.toNat + n := by
  show (s.xferIn + BitVec.ofNat 64 n).toNat = _
  rw [BitVec.toNat_add, toNat_ofNat_of_lt (by omega), Nat.mod_eq_of_lt h]

/-- DEC_HEADER reads `payload_bit_length`. -/
theorem settle_decLen {bs : List Byte} (hb : s.busy = true) (hin : s.inCh = fileOf bs ++ rest) (hx : s.xferIn = 0#64)
    (hlen : bs.length = 8) :
    settle (waitAt (.decLen []) s) =
      settle (waitAt (.decCount []) { taken 8 rest s with payloadBits := fromLE64 bs }) :=
  readsField_decLen.settle_field hb hin (by rw [hx]; decide) hlen

/-- R168: a count of 0 or above 256 is refused. -/
theorem decCountDone_range {count : Word} (h : count.toNat = 0 ∨ 256 < count.toNat) :
    decCountDone count.toNat s = raise .countRange count s := by
  have hraise : decCountDone count.toNat s = raise .countRange (BitVec.ofNat 64 count.toNat) s := if_pos h
  rw [hraise, BitVec.ofNat_toNat, BitVec.setWidth_eq]

/-- DEC_HEADER reads both fields in front, whatever the count. -/
theorem settle_decFields {bitLength count : Word} (hb : s.busy = true)
    (hin : s.inCh = fileOf (le64 bitLength ++ le64 count) ++ rest) (hx : s.xferIn = 0#64) :
    settle (waitAt (.decLen []) s) =
      settle (decCountDone count.toNat { taken 16 rest s with payloadBits := bitLength }) := by
  have hin' : s.inCh = fileOf (le64 bitLength) ++ (fileOf (le64 count) ++ rest) := by
    rw [hin, fileOf, List.map_append, List.append_assoc]
    rfl
  generalize hnext : fileOf (le64 count) ++ rest = next at hin'
  have hx0 : s.xferIn.toNat = 0 := congrArg BitVec.toNat hx
  have htaken := taken_toNat (s := s) (n := 8) (rest := next) (by omega)
  have hcount := readsField_decCount.settle_field (s := { taken 8 next s with payloadBits := bitLength }) hb
    hnext.symm (show (taken 8 next s).xferIn.toNat + 8 < 2 ^ 64 by omega) (le64_length count)
  calc settle (waitAt (.decLen []) s)
      = settle (waitAt (.decCount []) { taken 8 next s with payloadBits := bitLength }) := by
        rw [settle_decLen hb hin' hx (le64_length bitLength), fromLE64_le64]
    _ = settle (decCountDone count.toNat { taken 8 rest (taken 8 next s) with payloadBits := bitLength }) := by
        rw [hcount, bytesToNat_le64]
        rfl
    _ = settle (decCountDone count.toNat { taken 16 rest s with payloadBits := bitLength }) := by rw [taken_taken]

/-- A header that ends or fails inside its first two fields: PAYLOAD_BITS is held once its eight bytes are there. -/
theorem settle_cutFields {bytes : List Byte} (hb : s.busy = true) (hin : s.inCh = fileOf bytes ++ e :: rest)
    (hx : s.xferIn = 0#64) (hbits : s.payloadBits = 0#64) (h15 : bytes.length ≤ 15)
    (he : e = .endOfFile ∧ 1 ≤ bytes.length ∨ e = .fault) :
    settle (waitAt (.decLen []) s) = hdrFailed e
      { taken bytes.length rest s with
        payloadBits := if 8 ≤ bytes.length then fromLE64 (bytes.take 8) else 0#64 } := by
  have hx0 : s.xferIn.toNat = 0 := congrArg BitVec.toNat hx
  have he' : e = .endOfFile ∨ e = .fault := he.imp_left And.left
  by_cases h8 : 8 ≤ bytes.length
  · generalize hnext : fileOf (bytes.drop 8) ++ e :: rest = next
    have hin' : s.inCh = fileOf (bytes.take 8) ++ next := by
      rw [hin, ← hnext, ← List.append_assoc, fileOf, fileOf, fileOf, ← List.map_append, List.take_append_drop]
    have htaken := taken_toNat (s := s) (n := 8) (rest := next) (by omega)
    have hrest : bytes.length = 8 + (bytes.drop 8).length := by rw [List.length_drop]; omega
    have hcount := readsField_decCount.settle_cut (fun _ => rfl)
      (s := { taken 8 next s with payloadBits := fromLE64 (bytes.take 8) }) hb hnext.symm
      (show (taken 8 next s).xferIn.toNat + _ < 2 ^ 64 by omega) (by omega) he' nofun
    rw [settle_decLen hb hin' hx (List.length_take_of_le h8), hcount, if_pos h8, hrest, ← taken_taken 8 _ next]
    rfl
  · have hfirst : Position.decLen bytes = .decLen [] →
        e = .fault ∧ (taken bytes.length (e :: rest) s).xferIn = 0#64 := fun hnil => by
      obtain rfl : bytes = [] := Position.decLen.inj hnil
      exact ⟨he.resolve_left fun h => absurd h.2 (by decide), by rw [taken, hx]; rfl⟩
    rw [readsField_decLen.settle_cut (fun _ => rfl) hb hin (by omega) (by omega) he' hfirst, if_neg h8, ← hbits]
    rfl

/-! ### A cut among the entries (R174, R176) -/

/-- The entries `es` are stored from position `i` on; SEQ_N is left as it is. -/
def entriesStored (es : List (Byte × Word)) (i : Nat) (s : State) : State := { writeSeq es i s with seqN := s.seqN }

theorem entriesStored_cons (x : Byte × Word) (es : List (Byte × Word)) (i : Nat) (s : State) :
    entriesStored (x :: es) i s = entriesStored es (i + 1) (setSeqEntry i x.1 x.2 s) := rfl

theorem entriesStored_eq (es : List (Byte × Word)) (i : Nat) (s : State) : entriesStored es i s =
    { s with seqSym := (entriesStored es i s).seqSym, seqCnt := (entriesStored es i s).seqCnt } := by
  rw [entriesStored, writeSeq_seqWrites]
  rfl

/-- Over cleared entries the stored ones stand in front of zeros. -/
theorem seqEntryAt_entriesStored {es : List (Byte × Word)} (h : es.length ≤ 256)
    (hclear : ∀ i, seqEntryAt s i = (0#8, 0#64)) (i : Nat) :
    seqEntryAt (entriesStored es 0 s) i = es.getD i (0#8, 0#64) := by
  have hentry := seqEntryAt_writeSeq es 0 s (by omega) i
  rwa [if_pos (Nat.zero_le i), Nat.sub_zero, hclear] at hentry

/-- DEC_HEADER takes the byte value of an entry. -/
theorem settle_decSym_byte {i : Nat} {v : Byte} (hb : s.busy = true) (hin : s.inCh = .byte v :: rest)
    (hroom : s.xferIn ≠ BitVec.allOnes 64) :
    settle (waitAt (.decSym i) s) = settle (waitAt (.decCnt i v []) (taken 1 rest s)) := by
  have hw : awaited (waitAt (.decSym i) s) = .pop := by simp [awaited, hb]
  have hstep : coreStep (waitAt (.decSym i) s) = some (waitAt (.decCnt i v []) (taken 1 rest s)) := by
    rw [coreStep_pop hw hin, popIn_byte_waitAt hroom]
    rfl
  exact settle_some hstep

/-- An entry that ends or fails before its ninth byte stores nothing. -/
theorem settle_cutEntry {i r : Nat} {x : Byte × Word} (hb : s.busy = true)
    (hin : s.inCh = fileOf ((entryBytes x).take r) ++ e :: rest) (hroom : s.xferIn.toNat + 9 < 2 ^ 64) (hr : r < 9)
    (he : e = .endOfFile ∨ e = .fault) : settle (waitAt (.decSym i) s) = hdrFailed e (taken r rest s) := by
  cases r with
  | zero =>
    have hnone : { s with inCh := rest } = taken 0 rest s := by simp [taken]
    exact (settle_hdrFailed (s := s) (p := .decSym i) rfl hb hin he nofun).trans (congrArg (hdrFailed e) hnone)
  | succ r =>
    have hcount : s.xferIn ≠ BitVec.allOnes 64 := ne_allOnes_of_lt (n := 8) hroom
    generalize hnext : fileOf ((le64 x.2).take r) ++ e :: rest = next
    have htaken := taken_one_toNat (rest := next) hcount
    have hlen : ((le64 x.2).take r).length = r := List.length_take_of_le (by rw [le64_length]; omega)
    have hcnt := (readsField_decCnt i x.1).settle_cut (fun _ => rfl) (s := taken 1 next s) hb hnext.symm (by omega)
      (by omega) he nofun
    rw [settle_decSym_byte (rest := next) hb (by rw [hin, ← hnext]; rfl) hcount, hcnt, hlen, taken_taken,
      Nat.add_comm 1]

/-- Whole entries are stored, and the entry after them ends or fails before its ninth byte. -/
theorem settle_cutEntries {i r : Nat} {es : List (Byte × Word)} {x : Byte × Word} (hb : s.busy = true)
    (hin : s.inCh = fileOf (es.flatMap entryBytes ++ (entryBytes x).take r) ++ e :: rest)
    (hroom : s.xferIn.toNat + 9 * (es.length + 1) < 2 ^ 64) (hmore : i + es.length < s.seqN.toNat) (hr : r < 9)
    (he : e = .endOfFile ∨ e = .fault) :
    settle (waitAt (.decSym i) s) = hdrFailed e (entriesStored es i (taken (9 * es.length + r) rest s)) := by
  induction es generalizing i s with
  | nil =>
    rw [settle_cutEntry hb hin hroom hr he, List.length_nil, Nat.mul_zero, Nat.zero_add]
    rfl
  | cons y es ih =>
    rw [List.length_cons] at hroom hmore
    generalize hnext : fileOf (es.flatMap entryBytes ++ (entryBytes x).take r) ++ e :: rest = next
    have hin' : s.inCh = fileOf (entryBytes y) ++ next := by
      rw [hin, ← hnext, List.flatMap_cons]
      simp only [fileOf, List.map_append, List.append_assoc]
    have hone := decEntryDone_more (s := taken 9 next s) (sym := y.1) (c := y.2)
      (show i + 1 < s.seqN.toNat by omega)
    have htaken := taken_toNat (s := s) (n := 9) (rest := next) (by omega)
    have hlater := ih (i := i + 1) (s := setSeqEntry i y.1 y.2 (taken 9 next s)) hb hnext.symm
      (by rw [setSeqEntry_xferIn]; omega) (show i + 1 + es.length < s.seqN.toNat by omega)
    have hcount : 9 * (es.length + 1) + r = 9 + (9 * es.length + r) := by omega
    rw [settle_decEntry hb hin' (by omega), hone, hlater, entriesStored_cons, List.length_cons, hcount,
      ← taken_taken 9 _ next]
    rfl

/-- The first bytes of a header, cut `r` bytes into entry `i`. -/
theorem headerImage_take (bitLength : Word) {entries : List (Byte × Word)} {i r : Nat} (hi : i < entries.length)
    (hr : r < 9) : (headerImage bitLength entries).take (16 + (9 * i + r)) =
      le64 bitLength ++ le64 (BitVec.ofNat 64 entries.length) ++
        ((entries.take i).flatMap entryBytes ++ (entryBytes entries[i]).take r) := by
  have hfront : (le64 bitLength ++ le64 (BitVec.ofNat 64 entries.length)).length = 16 := rfl
  have hwhole : ((entries.take i).flatMap entryBytes).length = 9 * i := by
    simp [List.length_flatMap, Nat.min_eq_left hi.le, Nat.mul_comm]
  have hsplit : entries.flatMap entryBytes =
      (entries.take i).flatMap entryBytes ++ (entryBytes entries[i] ++ (entries.drop (i + 1)).flatMap entryBytes) := by
    rw [← List.flatMap_cons, ← List.flatMap_append, List.getElem_cons_drop, List.take_append_drop]
  rw [headerImage_eq, ← List.append_assoc, hsplit, ← hfront, List.take_length_add_append, ← hwhole,
    List.take_length_add_append, List.take_append_of_le_length (by rw [entryBytes_length]; omega)]

/-- A header that ends or fails `r` bytes into entry `i`: the fields in front and the entries before it are held. -/
theorem settle_cutHeader {bitLength : Word} {entries : List (Byte × Word)} {i r : Nat} (hb : s.busy = true)
    (hin : s.inCh = fileOf ((headerImage bitLength entries).take (16 + (9 * i + r))) ++ e :: rest)
    (hx : s.xferIn = 0#64) (h256 : entries.length ≤ 256) (hi : i < entries.length) (hr : r < 9)
    (he : e = .endOfFile ∨ e = .fault) :
    settle (waitAt (.decLen []) s) = hdrFailed e
      (entriesStored (entries.take i) 0 { taken (16 + (9 * i + r)) rest s with
        payloadBits := bitLength, seqN := BitVec.ofNat 9 entries.length }) := by
  have hlen : (entries.take i).length = i := List.length_take_of_le hi.le
  generalize hnext : fileOf ((entries.take i).flatMap entryBytes ++ (entryBytes entries[i]).take r) ++ e :: rest = next
  have hin' : s.inCh = fileOf (le64 bitLength ++ le64 (BitVec.ofNat 64 entries.length)) ++ next := by
    rw [hin, headerImage_take bitLength hi hr, ← hnext]
    simp only [fileOf, List.map_append, List.append_assoc]
  have hfront := settle_decFields hb hin' hx
  rw [toNat_ofNat_of_lt (by omega), decCountDone_ok (by omega) h256] at hfront
  have hx0 : s.xferIn.toNat = 0 := congrArg BitVec.toNat hx
  have htaken := taken_toNat (s := s) (n := 16) (rest := next) (by omega)
  have hseqN : (BitVec.ofNat 9 entries.length).toNat = entries.length := by rw [BitVec.toNat_ofNat]; omega
  have hentries := settle_cutEntries (i := 0) (s := { taken 16 next s with
      payloadBits := bitLength, seqN := BitVec.ofNat 9 entries.length }) hb hnext.symm
    (show (taken 16 next s).xferIn.toNat + _ < 2 ^ 64 by omega)
    (show _ < (BitVec.ofNat 9 entries.length).toNat by omega) hr he
  rw [hfront, hentries, hlen, ← taken_taken 16 (9 * i + r) next]
  rfl

/-! ### The statements -/

/-- Settles O45: the parsed registers, and the stored entries in front of zeros. -/
theorem decHeaderParses : Obligations.DecHeaderParses := by
  intro s bitLength entries rest hready heager h1 h256 hin
  obtain ⟨t, hexec, ht, hentries⟩ := decHeader_parses hready heager h1 h256 hin
  refine ⟨t, hexec, ht, fun i x hx => ?_, fun i hi => ?_⟩
  · exact Prod.mk.inj ((hentries i).trans (by rw [List.getD_eq_getElem?_getD, hx, Option.getD_some]))
  · exact Prod.mk.inj ((hentries i).trans (List.getD_eq_default _ _ hi))

theorem seqEntryAt_implicitClear (s : State) (i : Nat) : seqEntryAt (implicitClear s) i = (0#8, 0#64) :=
  Prod.ext (bankAt_fill_same 256 i 0#8) (bankAt_fill_same 256 i 0#64)

/-- Settles O46: a cut in the first two fields stores no entry; a later one stores the entries before it. -/
theorem decHeaderCutShort : Obligations.DecHeaderCutShort := by
  refine ⟨fun s bytes e rest hready heager h15 hin he => ?_,
    fun s bitLength entries m e rest hready heager h1 h256 h16 hm hin he => ?_⟩
  · have hcut := settle_cutFields (s := implicitClear (accept 0x20#8 s)) rfl hin rfl rfl h15 he
    rw [taken_implicitClear, hdrFailed_eq (he.imp_left And.left)] at hcut
    exact ⟨_, (exec_decHeader_settle hready heager).trans (congrArg Host.Outcome.next hcut), rfl, rfl, rfl, rfl, rfl,
      rfl, rfl, rfl, rfl, fun i => Prod.mk.inj (seqEntryAt_implicitClear (accept 0x20#8 s) i)⟩
  · obtain ⟨i, r, hr, rfl⟩ : ∃ i r, r < 9 ∧ m = 16 + (9 * i + r) :=
      ⟨(m - 16) / 9, (m - 16) % 9, by omega, by omega⟩
    have hcut := settle_cutHeader (s := implicitClear (accept 0x20#8 s)) rfl hin rfl h256 (by omega) hr he
    rw [taken_implicitClear, entriesStored_eq, hdrFailed_eq he] at hcut
    have hentries := seqEntryAt_entriesStored (es := entries.take i) (s := { implicitClear (accept 0x20#8 s) with
      inCh := rest, xferIn := BitVec.ofNat 64 (16 + (9 * i + r)), payloadBits := bitLength
      seqN := BitVec.ofNat 9 entries.length }) ((List.length_take_le i entries).trans (by omega))
      (seqEntryAt_implicitClear (accept 0x20#8 s))
    refine ⟨_, (exec_decHeader_settle hready heager).trans (congrArg Host.Outcome.next hcut), rfl, rfl, rfl, rfl, rfl,
      rfl, rfl, rfl, rfl, rfl, fun j x hx hj => Prod.mk.inj ((hentries j).trans ?_),
      fun j hj => Prod.mk.inj ((hentries j).trans (List.getD_eq_default _ _ ?_))⟩
    · rw [List.getD_eq_getElem?_getD, List.getElem?_take_of_lt (by omega), hx, Option.getD_some]
    · rw [List.length_take]
      omega

/-- Settles O47: the count is tested when its eighth byte is there, before an entry is asked for. -/
theorem decHeaderCountRange : Obligations.DecHeaderCountRange := by
  intro s bitLength count rest hready heager hrange hin
  have hfields := settle_decFields (s := implicitClear (accept 0x20#8 s)) rfl hin rfl
  rw [decCountDone_range hrange, settle_idle (s := raise _ _ _) rfl] at hfields
  exact ⟨_, (exec_decHeader_settle hready heager).trans (congrArg Host.Outcome.next hfields), rfl, rfl, rfl, rfl, rfl,
    rfl, rfl, rfl⟩

end Sys2Proof.Machine
end

section
/-! SUPPORT. The decoder on an empty compressed file, and DEC_BUILD of a non-empty one (45_decoder.md R171, R179). -/
namespace Sys2Proof.Machine

/-- Settles O44: the three commands on an empty file, each by its own rule. -/
theorem emptyDecode : Obligations.EmptyDecode := by
  refine ⟨fun s rest hready heager hin => exec_decHeader_empty hready heager hin, fun s hready hempty => ?_,
    fun s hready hempty => ?_⟩
  · rw [exec_decBuild_empty hready hempty]
    conv_rhs => rw [eq_with_busy_false hready.1]
    rfl
  · rw [exec_decPayload_empty hready hempty]
    conv_rhs => rw [eq_with_busy_false hready.1]
    rfl

/-- Settles O48: the build writes the tree alone, over which acceptance and completion write the rest. -/
theorem decBuildCompletes : Obligations.DecBuildCompletes := by
  intro s hready hempty
  have htree := buildTree_treeWrites s.seqN.toNat s
  rw [exec_decBuild hready hempty]
  generalize buildTree s.seqN.toNat s = t at htree ⊢
  rw [htree]
  conv_rhs => rw [eq_with_busy_false hready.1]
  rfl

end Sys2Proof.Machine
end

section
/-! SUPPORT. DEC_PAYLOAD: a whole payload, the errors of a path, and what the command leaves alone (45_decoder.md R181
to R187). -/
namespace Sys2Proof.Machine
variable {s : State}

/-- Settles O49: the walk ends at ROOT with the declared length consumed, which leaves no byte of the payload. -/
theorem decPayloadDecodes : Obligations.DecPayloadDecodes := by
  intro s steps payload rest hready hempty heager hsink hpaths hlen hbytes hbits hin
  have hbits' : BitsAt payload 0 (steps.flatMap Prod.fst) := fun j b hj => by
    rw [Nat.zero_add]
    exact hbits j b hj
  refine ⟨_, exec_decPayload hready hempty heager hsink hpaths hlen hbits' hin, ?_⟩
  have hdrop : payload.drop (bytesFor s.payloadBits.toNat) = [] := List.drop_eq_nil_of_le hbytes.le
  have hleft : s.payloadBits - BitVec.ofNat 64 s.payloadBits.toNat = 0#64 := by
    rw [BitVec.ofNat_toNat, BitVec.setWidth_eq, BitVec.sub_self]
  simp only [walkAt, accept_payloadBits, accept_out, accept_pushes, hdrop, hleft, List.length_map]
  conv_rhs => rw [eq_with_busy_false hready.1]
  rfl

/-! ### The errors of a path (R183, R184, R186) -/

/-- A bit that has no child ends the command, after ReadBit has delivered it and before BITS_LEFT counts it. -/
theorem payloadResume_deadEnd {b : Bool} {bits : List Bool} (h : s.bitsLeft ≠ 0#64) (hbits : unreadBits s = b :: bits)
    (hgo : go s s.cur b = none) :
    payloadResume s = raise .deadEnd (s.payloadBits - s.bitsLeft) (advanceUnpacker s) := by
  have hgo' : go (advanceUnpacker s) (advanceUnpacker s).cur b = none := hgo
  rw [payloadResume, hbits]
  simp only [payloadLoop, if_neg h, hgo']
  rfl

/-- A declared length that ends away from ROOT ends the command. -/
theorem payloadResume_notAtRoot (h : s.bitsLeft = 0#64) (hcur : s.cur ≠ s.root) :
    payloadResume s = raise .notAtRoot (s.cur.setWidth 64) s :=
  (payloadResume_done h).trans (if_neg hcur)

theorem unreadBits_refillUnpacker (v : Byte) (s : State) :
    ∃ bits, unreadBits (refillUnpacker v s) = v.getLsbD 0 :: bits := ⟨_, rfl⟩

/-- Settles O51: the walk's own steps, and the two interaction points it goes on from. -/
theorem decPayloadPathErrors : Obligations.DecPayloadPathErrors := by
  refine ⟨fun s v rest hb hpos hin hleft hgo => ?_, fun s b bits => payloadResume_deadEnd,
    fun s b bits c => payloadResume_inner, fun s => payloadResume_notAtRoot,
    fun s v rest => coreStep_payloadPop, fun s sym => coreStep_payloadPush⟩
  obtain ⟨bits, hbits⟩ := unreadBits_refillUnpacker v (popIn (.byte v) rest s)
  have hdead : payloadElem (.byte v) (popIn (.byte v) rest s) = _ :=
    payloadResume_deadEnd (s := refillUnpacker v (popIn (.byte v) rest s)) hleft hbits hgo
  rw [coreStep_payloadPop hb hpos hin, hdead]
  exact ⟨_, rfl, rfl, rfl, rfl, rfl, rfl, rfl, rfl, rfl, rfl, rfl⟩

/-! ### What DEC_PAYLOAD leaves alone -/

/-- `s` with the registers DEC_PAYLOAD and its acceptance write as in `t`, IN and OUT (R181). -/
def decPayloadWrites (t s : State) : State :=
  { s with
    busy := t.busy, ovr := t.ovr, lastOp := t.lastOp, xferIn := t.xferIn, xferOut := t.xferOut, phase := t.phase
    errKind := t.errKind, errDetail := t.errDetail, errInfo := t.errInfo, pos := t.pos
    ibuf := t.ibuf, ipos := t.ipos, cur := t.cur, bitsLeft := t.bitsLeft
    statOrig := t.statOrig, statPayload := t.statPayload
    inCh := t.inCh, out := t.out, pushes := t.pushes, sinkQuota := t.sinkQuota, draws := t.draws }

theorem popIn_decPayloadWrites (e : InElem) (rest : List InElem) (s : State) :
    popIn e rest s = decPayloadWrites (popIn e rest s) s := by cases e <;> rfl

theorem pushOut_decPayloadWrites (b : Byte) (r : SinkAnswer) (s : State) :
    pushOut b r s = decPayloadWrites (pushOut b r s) s := by cases r <;> rfl

theorem payloadEnd_decPayloadWrites (s : State) : payloadEnd s = decPayloadWrites (payloadEnd s) s := by
  unfold payloadEnd
  split <;> rfl

theorem payloadLoop_decPayloadWrites (bits : List Bool) (s : State) :
    payloadLoop bits s = decPayloadWrites (payloadLoop bits s) s := by
  induction bits generalizing s with
  | nil =>
    simp only [payloadLoop]
    split
    · exact payloadEnd_decPayloadWrites s
    · rfl
  | cons b bits ih =>
    simp only [payloadLoop]
    split
    · exact payloadEnd_decPayloadWrites s
    · split
      · rfl
      · split
        · rfl
        · exact ih _

theorem payloadElem_decPayloadWrites (e : InElem) (s : State) :
    payloadElem e s = decPayloadWrites (payloadElem e s) s := by
  cases e with
  | byte v => exact payloadLoop_decPayloadWrites _ (refillUnpacker v s)
  | endOfFile | fault => rfl

theorem payloadAnswered_decPayloadWrites (r : SinkAnswer) (s : State) :
    payloadAnswered r s = decPayloadWrites (payloadAnswered r s) s := by
  cases r with
  | ok => exact payloadLoop_decPayloadWrites _ { s with cur := s.root }
  | fault => rfl

theorem afterPop_decPayloadWrites (e : InElem) (h : commandOf s.pos = some .decPayload) :
    afterPop e s = decPayloadWrites (afterPop e s) s := by
  cases hpos : s.pos with simp only [afterPop, hpos]
  | payloadPop => exact payloadElem_decPayloadWrites e s
  | payloadPush => rfl
  | _ => rw [hpos] at h; cases h

theorem afterPush_decPayloadWrites (r : SinkAnswer) (h : commandOf s.pos = some .decPayload) :
    afterPush r s = decPayloadWrites (afterPush r s) s := by
  cases hpos : s.pos with simp only [afterPush, hpos]
  | payloadPush => exact payloadAnswered_decPayloadWrites r s
  | payloadPop => rfl
  | _ => rw [hpos] at h; cases h

theorem coreStep_decPayloadWrites (s t : State) (hi : commandOf s.pos = some .decPayload)
    (hstep : coreStep s = some t) : t = decPayloadWrites t s := by
  have habsorb : ∀ u v, u = decPayloadWrites u s → v = decPayloadWrites v u → v = decPayloadWrites v s :=
    fun u v hu hv =>
      calc v = decPayloadWrites v u := hv
        _ = decPayloadWrites v (decPayloadWrites u s) := by rw [← hu]
        _ = decPayloadWrites v s := rfl
  rcases coreStep_cases hstep with ⟨e, rest, -, -, rfl⟩ | ⟨b, r, -, -, rfl⟩
  · exact habsorb _ _ (popIn_decPayloadWrites e rest s) (afterPop_decPayloadWrites e (by rwa [popIn_pos]))
  · exact habsorb _ _ (pushOut_decPayloadWrites b r s) (afterPush_decPayloadWrites r (by rwa [pushOut_pos]))

theorem startPayload_decPayloadWrites (op : Byte) (s : State) :
    startPayload (accept op s) = decPayloadWrites (startPayload (accept op s)) s := by
  unfold startPayload
  split
  · rfl
  · exact payloadLoop_decPayloadWrites _ { openUnpacker (accept op s) with cur := s.root, bitsLeft := s.payloadBits }

/-- Where no program runs there is nothing to run on. -/
theorem proceed_of_pos_idle (h : s.pos = .idle) : proceed s = s := by
  have hnone : coreStep s = none := by simp [coreStep, awaited, h]
  unfold proceed
  split
  · exact settle_none hnone
  · rfl

/-- At its first stop DEC_PAYLOAD has ended already, or it waits and goes on step by step. -/
theorem programOf_decPayload_frame (s : State) :
    programOf .decPayload (accept 0x22#8 s) = decPayloadWrites (programOf .decPayload (accept 0x22#8 s)) s := by
  have hfirst := startPayload_decPayloadWrites 0x22#8 s
  rcases (startPayload_stops (accept 0x22#8 s)).command with hidle | hcommand
  · have hprogram : programOf .decPayload (accept 0x22#8 s) = startPayload (accept 0x22#8 s) :=
      proceed_of_pos_idle hidle
    rw [hprogram]
    exact hfirst
  · exact proceed_frame (i := .decPayload) (frame := decPayloadWrites) (fun _ _ _ => rfl)
      coreStep_decPayloadWrites hcommand hfirst

/-- Settles O57: acceptance, each pop, each push and each answer stay within the frame. -/
theorem frameDecPayload : Obligations.FrameDecPayload := fun s _ h =>
  exec_frame (i := .decPayload) (frame := decPayloadWrites) (fun _ _ => rfl) (programOf_decPayload_frame s) h

end Sys2Proof.Machine
end

section
/-! SUPPORT. The error record: what writes it (60_exceptions.md R205, R206), and that the first error stays until CLEAR
or a reset (R207, R210). -/
namespace Sys2Proof.Machine
variable {i : Instr} {s t : State}

/-- Settles O15: Record and the completion after it write the named fields, and the twenty code pairs are the table's,
entry by entry. -/
theorem raiseRecords : Obligations.RaiseRecords := ⟨fun _ _ _ => ⟨rfl, rfl⟩, by decide⟩

/-! ### The first error wins (R207) -/

/-- From `s` to `t` the core stays in ERROR, with the record it has. -/
def KeepsError (s t : State) : Prop :=
  t.phase = .error ∧ t.errKind = s.errKind ∧ t.errDetail = s.errDetail ∧ t.errInfo = s.errInfo

theorem KeepsError.refl (he : s.phase = .error) : KeepsError s s := ⟨he, rfl, rfl, rfl⟩

theorem keepsError_of_control (hc : control t = control s) (he : s.phase = .error) : KeepsError s t := by
  simp only [control, Control.mk.injEq] at hc
  obtain ⟨-, hphase, -, hkind, hdetail, hinfo, -, -⟩ := hc
  exact ⟨hphase.trans he, hkind, hdetail, hinfo⟩

/-- In ERROR the core itself has nothing to do but AbortEmit's Close, which completes and records nothing (R160). -/
theorem coreStep_keepsError (he : s.phase = .error) (hrun : s.busy = false ∨ s.pos = .abortClose)
    (hstep : coreStep s = some t) : KeepsError s t := by
  rcases hrun with hb | hpos
  · exact absurd (coreStep_busy hstep) (by simp [hb])
  · obtain ⟨u, hu, rfl⟩ := coreStep_abortClose hstep hpos
    have hkept : KeepsError s u := keepsError_of_control hu.control he
    exact hkept

/-- Of the two commands that ERROR admits NOP keeps the error, so only an accepted CLEAR does not (40_control.md R103). -/
theorem issue_keepsError (he : s.phase = .error) :
    KeepsError s (issue i (programOf i) s) ∨ s.busy = false ∧ i = .clear := by
  rcases issue_cases i (programOf i) s with ⟨-, hi⟩ | ⟨-, -, -, hi⟩ | ⟨-, hne, -, -⟩ | ⟨hb, hl, hi⟩
  · rw [hi]
    exact .inl (.refl he)
  · rw [hi]
    exact .inl (.refl he)
  · exact absurd he hne
  · rcases (runsInError_iff i).mp (legal_in_error (he ▸ hl)) with rfl | rfl
    · have hnop : KeepsError s (complete (accept (opcodeOf .nop) s)) := ⟨he, rfl, rfl, rfl⟩
      rw [hi]
      exact .inl hnop
    · exact .inr ⟨hb, rfl⟩

theorem rejectWord_keepsError (e : DecodeError) (w : Word) (he : s.phase = .error) :
    KeepsError s (rejectWord e w s) := by
  rcases rejectWord_cases e w s with ⟨-, hi⟩ | ⟨-, -, hi⟩ | ⟨-, hne, -⟩
  · rw [hi]
    exact .refl he
  · rw [hi]
    exact .refl he
  · exact absurd he hne

/-- Settles O16: of all that a step can be, only a reset and an accepted CLEAR do not keep the error. -/
theorem errorSticky : Obligations.ErrorSticky := by
  intro s t he hrun hstep
  rcases step_cases hstep with hc | ⟨rest, -, hc⟩ | ⟨w, rest, i, hscript, hdec, rfl⟩ | ⟨w, rest, e, -, -, rfl⟩ |
    ⟨rest, hscript, -⟩ | ⟨c, o, f, q, sc, rd, d, eg, rfl⟩
  · exact .inl (coreStep_keepsError he hrun hc)
  · exact .inl (coreStep_keepsError (s := restOfScript rest s) he hrun hc)
  · rcases issue_keepsError (i := i) (s := restOfScript rest s) he with hkept | ⟨hb, rfl⟩
    · exact .inl hkept
    · have hw : w = encode .clear := (decodeEncodeAgree w .clear).mp hdec
      exact .inr (.inr ⟨hb, rest, hw ▸ hscript⟩)
  · exact .inl (rejectWord_keepsError (s := restOfScript rest s) e w he)
  · exact .inr (.inl ⟨rest, hscript⟩)
  · exact .inl ⟨he, rfl, rfl, rfl⟩

end Sys2Proof.Machine
end

section
/-! SUPPORT. Hardware reset as a move of the host (70_reset_and_hazards.md R225). -/
namespace Sys2Proof.Machine

/-- A reset keeps the channels, the sink and the host; all else, a running command with it, is as in the reset state. -/
theorem hardwareReset_eq_reset (s : State) :
    hardwareReset s = { State.reset with
      inCh := s.inCh, out := s.out, pushes := s.pushes, sinkFaults := s.sinkFaults, sinkQuota := s.sinkQuota
      script := s.script, reads := s.reads, draws := s.draws, eager := s.eager } := rfl

theorem step_reset {s : State} {rest : List HostAction} (h : s.script = .reset :: rest) :
    step s = .next (hardwareReset (restOfScript rest s)) := step_of_script h

/-- Settles O13: the host's reset is a hardware reset whatever the core is doing, and what it leaves of the state before
is the channels and the host alone. -/
theorem resetStep : Obligations.ResetStep := fun s rest h =>
  ⟨hardwareReset (restOfScript rest s), step_reset h, hardwareReset_eq_reset (restOfScript rest s),
    hardwareReset_busy _, hardwareReset_phase _, hardwareReset_errKind _⟩

end Sys2Proof.Machine
end
